-- ==== Sys2Proof/Word.lean ====
section
/-! DEFINITION. The words the spec counts in bits (R9, R10 of spec/00_scope.md). -/

namespace Sys2Proof

/-- A byte, the unit of addressing everywhere (R50). -/
abbrev Byte := BitVec 8

/-- A 32-bit word: `CW`, `A0`, `A1` of a packet (R80), a u32 read from a buffer (R10). -/
abbrev Word := BitVec 32

/-- A 64-bit pattern: the binary64 form in which a float result is delivered (R167). -/
abbrev Quad := BitVec 64

end Sys2Proof
end

