-- ==== Sys2Proof/Config.lean ====
section
/-! DEFINITION. What an implementation fixes (R7) and the values the spec leaves open.
The values without a body are free: nothing in Lean can evaluate them. -/

namespace Sys2Proof.Config

/-- Default of the OPEN parameter `NBUF` (R7, decision D2; log 1). A state may hold any number of slots. -/
def nbufDefault : Nat := 16

/-- Default of the OPEN parameter `NCUR` (R7, decision D3; log 1). -/
def ncurDefault : Nat := 16

/-- `2 ≤ NBUF ≤ 16` (R7). -/
def nbufMin : Nat := 2

/-- `2 ≤ NBUF ≤ 16` (R7). -/
def nbufMax : Nat := 16

/-- `1 ≤ NCUR ≤ 16` (R7). -/
def ncurMin : Nat := 1

/-- `1 ≤ NCUR ≤ 16` (R7). -/
def ncurMax : Nat := 16

/-- `MAXLEN`, the largest buffer length in bytes (R7, R22). -/
def maxLen : Nat := 4294967295

/-- FREE VALUE: the sign bit of the `n`-th delivered NaN pattern (R168, U9; log 5). -/
opaque nanSign : Nat → Bool

/-- FREE VALUE: the fraction field of the `n`-th delivered NaN pattern, less one. A binary64 NaN has a
non-zero fraction field, so the field is this value plus one, 1 to 2^52 - 1 (R168, U9; log 5). -/
opaque nanFraction : Nat → Fin 4503599627370495

/-- OPEN parameter `TEXT_ENCODING` (R7, R190, decision D15; log 8): applied by the host to the bytes of
`RES = Bytes(b)`, never by the engine. -/
opaque textEncoding : List Byte → String

end Sys2Proof.Config
end

