-- ==== Sys2Proof/Syntax.lean ====
section
/-! DEFINITION. The instructions: one constructor per row of spec/opcode_table.json, and the packet
that carries a command (R80 to R84 of spec/30_encoding.md). -/

namespace Sys2Proof

/-- One command packet: three 32-bit words and the payload byte string (R80, R83). -/
structure Packet where
  cw : Word
  a0 : Word
  a1 : Word
  payload : List Byte
deriving DecidableEq, Repr

/-- The 32 commands of R84 and the LZ4 sequence of R90. `k` is a cursor select, `d` a destination
select, `peek` the bit `P` of R81, a `Word` argument an operand word of R82. -/
inductive Instr where
  /-- R121 -/
  | reset
  /-- R122: destination slot, length, payload -/
  | bload (d : Fin 16) (n : Word) (payload : List Byte)
  /-- R123 -/
  | bfree (d : Fin 16)
  /-- R124: cursor, slot -/
  | cbind (k : Fin 16) (d : Fin 16)
  /-- R125: source cursor, destination cursor -/
  | clone (k : Fin 16) (d : Fin 16)
  /-- R126 -/
  | seek (k : Fin 16) (n : Word)
  /-- R127 -/
  | adv (k : Fin 16) (n : Word)
  /-- R128 -/
  | rem (k : Fin 16)
  /-- R141 -/
  | rdu8 (k : Fin 16) (peek : Bool)
  /-- R142 -/
  | rdu16le (k : Fin 16) (peek : Bool)
  /-- R143 -/
  | rdu16be (k : Fin 16) (peek : Bool)
  /-- R144 -/
  | rdu32le (k : Fin 16) (peek : Bool)
  /-- R145 -/
  | rdu32be (k : Fin 16) (peek : Bool)
  /-- R146 -/
  | rdi8 (k : Fin 16) (peek : Bool)
  /-- R147 -/
  | rdi16le (k : Fin 16) (peek : Bool)
  /-- R148 -/
  | rdi16be (k : Fin 16) (peek : Bool)
  /-- R149 -/
  | rdi32le (k : Fin 16) (peek : Bool)
  /-- R150 -/
  | rdi32be (k : Fin 16) (peek : Bool)
  /-- R170 -/
  | rdf32le (k : Fin 16) (peek : Bool)
  /-- R171 -/
  | rdf32be (k : Fin 16) (peek : Bool)
  /-- R172 -/
  | rdf64le (k : Fin 16) (peek : Bool)
  /-- R173 -/
  | rdf64be (k : Fin 16) (peek : Bool)
  /-- R174 -/
  | rdvfle (k : Fin 16) (peek : Bool)
  /-- R175 -/
  | rdvfbe (k : Fin 16) (peek : Bool)
  /-- R190: cursor, byte count -/
  | rdstr (k : Fin 16) (peek : Bool) (n : Word)
  /-- R191 -/
  | rdspan (k : Fin 16) (peek : Bool) (n : Word)
  /-- R192: cursor, pattern length, pattern -/
  | matchb (k : Fin 16) (peek : Bool) (n : Word) (pat : List Byte)
  /-- R200: cursor, destination slot -/
  | lz4d (k : Fin 16) (d : Fin 16)
  /-- R240: cursor, `byteCount`, `width` -/
  | ilv (k : Fin 16) (byteCount : Word) (width : Word)
  /-- R244: cursor, `count` -/
  | ilv32 (k : Fin 16) (count : Word)
  /-- R245 -/
  | ilv32i (k : Fin 16) (count : Word)
  /-- R247 -/
  | ilv32f (k : Fin 16) (count : Word)
  /-- R90, R91: the two nibbles of the token, `L` (literal-run length) and `M` (match length); the
  extension bytes, literals and offset stand in the stream and are fetched by the meaning -/
  | lz4seq (lit : Fin 16) (mat : Fin 16)
deriving DecidableEq, Repr

/-- What an instruction is encoded as: a command as a packet (R80), an LZ4 sequence by its token byte
(R91). -/
inductive Code where
  | packet (p : Packet)
  | token (b : Byte)
deriving DecidableEq, Repr

end Sys2Proof
end

