-- ==== Sys2Proof/Machine/State.lean ====
section
/-! DEFINITION. The architectural state of the engine (R21 to R36 of spec/10_state.md), as plain data;
the reasons a step can stop; and the state after reset (R36, R300). -/

namespace Sys2Proof.Machine

/-- The four kinds of fault a command can raise (R260 to R264). -/
inductive FaultKind where
  /-- R261, code 1 -/
  | bufferUnderrun
  /-- R262, code 2 -/
  | malformedStream
  /-- R263, code 3 -/
  | invalidGeometry
  /-- R264, code 4 -/
  | illegalCommand
deriving DecidableEq, Repr

/-- The register `STATUS` (R28): `OK`, or the kind of the first fault since reset. The values 5 to 7
are reserved and never produced (U13), so they have no form here. -/
inductive Status where
  | ok
  | faulted (kind : FaultKind)
deriving DecidableEq, Repr

/-- A buffer slot (R22): FREE, or ALLOC(bytes); `LEN` is the length of the byte string. -/
inductive Slot where
  | free
  | alloc (bytes : List Byte)
deriving DecidableEq, Repr

/-- A cursor register (R24): UNBOUND, or the pair (`BND`, `POS`) with `POS` any integer (R25). -/
inductive Cursor where
  | unbound
  | bound (bnd : Nat) (pos : Int)
deriving DecidableEq, Repr

/-- The set FVal of R16 and R160. `fin q` is the nonzero rational q. -/
inductive FVal where
  | posZero
  | negZero
  | posInf
  | negInf
  | nan
  | fin (q : Rat)
deriving DecidableEq, Repr

/-- The result register `RES` (R29), one constructor per form of its table. -/
inductive Res where
  | none
  | unit
  | int (v : Int)
  | float (f : FVal)
  | bytes (b : List Byte)
  /-- slot, start, length -/
  | span (s a n : Nat)
  | bool (t : Bool)
  | elems (e : List (List Byte))
  | words (w : List Word)
  | ints (v : List Int)
  | floats (f : List FVal)
deriving DecidableEq, Repr

/-- What the engine holds while LZ4D executes, and only then (R31): the operands, the source slot,
the header fields, the block end, the pointers, the values of the sequence in hand, and the output
cells written so far. `op` is the length of `out`; the cells from `op` to `dlen - 1` are unwritten
and have no form here (R216, R37). -/
structure Lz4 where
  k : Fin 16
  d : Fin 16
  src : Nat
  clen : Word
  dlen : Word
  blockEnd : Nat
  ip : Nat
  lit : Nat
  ml : Nat
  off : BitVec 16
  start : Int
  out : List Byte
deriving DecidableEq, Repr

/-- What the host does between commands (R20): issue a packet, or pull the external reset (R300). -/
inductive HostInput where
  | packet (p : Packet)
  | reset
deriving DecidableEq, Repr

/-- The machine. `slots`, `cursors`, `status` and `res` are the complete architectural state of R21;
their lengths are NBUF and NCUR. `delivered` holds the binary64 patterns in which the floats of `res`
are carried to the host (R167). `lz4` is the ephemeral state of R31. `inbox` is what the host has
issued and the engine has not yet taken (R34, log 3), and `draws` counts the free draws used for NaN
patterns (R168, log 5): both are the model's own. -/
structure State where
  slots : List Slot
  cursors : List Cursor
  status : Status
  res : Res
  delivered : List Quad
  lz4 : Option Lz4
  inbox : List HostInput
  draws : Nat
deriving DecidableEq, Repr

/-- Reasons the model stops. The faults of the spec are NOT here: they are next states (R268). -/
inductive Fault where
  /-- Raised by LZ4.SEQ alone, when no LZ4D is executing: a sequence is "decoded by LZ4D only"
  (opcode table, row LZ4.SEQ) and has no effect outside one. Safe: no step of the engine raises it,
  because only a running LZ4D fetches a sequence (log 2). -/
  | sequenceOutsideBlock
deriving DecidableEq, Repr

/-- Reasons the model declines to give a meaning. -/
inductive Refusal where
  /-- An instruction without a meaning, by its mnemonic. Safe. No arm of `exec` answers so. -/
  | notModelled (mnemonic : String)
  /-- Raised by BLOAD and MATCH, and by the step for a packet, when the payload does not have the
  length the packet states: "a transport error outside the model" (R83), `refuse` in U14. Safe (log 4). -/
  | payloadLength
deriving DecidableEq, Repr

/-- The state after reset of an engine with `nbuf` slots and `ncur` cursors: every slot FREE, every
cursor UNBOUND, `STATUS` OK, `RES` None, nothing in progress (R36, R300). -/
def resetWith (nbuf ncur : Nat) : State where
  slots := List.replicate nbuf .free
  cursors := List.replicate ncur .unbound
  status := .ok
  res := .none
  delivered := []
  lz4 := none
  inbox := []
  draws := 0

/-- The machine right after reset, with the default NBUF and NCUR (R7, R36). -/
def State.reset : State := resetWith Config.nbufDefault Config.ncurDefault

end Sys2Proof.Machine
end

