-- ==== Sys2Proof/Machine/Binary64.lean ====
section
/-! DEFINITION. Delivery of a float result as an IEEE-754 binary64 pattern, rounded to nearest, ties
to even, with the bits of a NaN free (R167, R168 of spec/42_float.md; logs 5 and 6). -/

namespace Sys2Proof.Machine

/-- The exponent `⌊log2 (n / d)⌋` of a positive fraction. -/
def floorLog2 (n d : Nat) : Int :=
  let k : Int := (Nat.log2 n : Int) - (Nat.log2 d : Int)
  if d * 2 ^ k.toNat ≤ n * 2 ^ (-k).toNat then k else k - 1

/-- `n / d` rounded to the nearest natural number, ties to the even one. -/
def roundHalfEven (n d : Nat) : Nat :=
  let q := n / d
  let r := n % d
  if 2 * r < d then q else if d < 2 * r then q + 1 else q + q % 2

/-- The pattern of the magnitude `n / d` without the sign bit. With `e` the exponent, not below that
of the smallest normal number, `m` is the magnitude in units of the last place `2^(e-52)`; then
`(e + 1022)·2^52 + m` is the pattern for normal and subnormal numbers alike, a carry out of the
significand included. A magnitude beyond the largest finite number gives infinity. -/
def magnitudePattern (n d : Nat) : Nat :=
  let e := max (floorLog2 n d) (-1022)
  let m := roundHalfEven (n * 2 ^ (52 - e).toNat) (d * 2 ^ (e - 52).toNat)
  min ((e + 1022).toNat * 2 ^ 52 + m) (2047 * 2 ^ 52)

/-- A pattern from a sign bit and the 63 bits below it. -/
def signedPattern (neg : Bool) (m : Nat) : Quad := BitVec.ofNat 64 (neg.toNat * 2 ^ 63 + m)

/-- The delivered pattern of a float value (R167); `n` numbers the free draw a NaN takes (R168). -/
def deliver (n : Nat) : FVal → Quad
  | .posZero => signedPattern false 0
  | .negZero => signedPattern true 0
  | .posInf => signedPattern false (2047 * 2 ^ 52)
  | .negInf => signedPattern true (2047 * 2 ^ 52)
  | .nan => signedPattern (Config.nanSign n) (2047 * 2 ^ 52 + ((Config.nanFraction n).val + 1))
  | .fin q => signedPattern (decide (q < 0)) (magnitudePattern q.num.natAbs q.den)

/-- How many free draws a value takes: one for a NaN (R168). -/
def drawsOf : FVal → Nat
  | .nan => 1
  | _ => 0

/-- Delivery of the floats of a result in order: the patterns, and the number of draws used so far. -/
def deliverAll : Nat → List FVal → List Quad × Nat
  | n, [] => ([], n)
  | n, f :: fs => (deliver n f :: (deliverAll (n + drawsOf f) fs).1, (deliverAll (n + drawsOf f) fs).2)

/-- The floats a result holds, in order (R29). -/
def Res.floatList : Res → List FVal
  | .float f => [f]
  | .floats fs => fs
  | _ => []

end Sys2Proof.Machine
end

