-- ==== Sys2Proof/WellFormed.lean ====
section
/-! DEFINITION. Which instructions are well formed: the selects are in range for the engine's NBUF and
NCUR (R87) and a payload has exactly the stated length (R83). -/

namespace Sys2Proof

/-- The selects of an instruction are in range: `k < NCUR` where k is used, `d < NBUF` where d is a
slot, `d < NCUR` where d is a cursor (R87). -/
def Instr.selectsOk (nbuf ncur : Nat) : Instr → Bool
  | .reset => true
  | .bload d _ _ => d.val < nbuf
  | .bfree d => d.val < nbuf
  | .cbind k d => k.val < ncur && d.val < nbuf
  | .clone k d => k.val < ncur && d.val < ncur
  | .seek k _ => k.val < ncur
  | .adv k _ => k.val < ncur
  | .rem k => k.val < ncur
  | .rdu8 k _ => k.val < ncur
  | .rdu16le k _ => k.val < ncur
  | .rdu16be k _ => k.val < ncur
  | .rdu32le k _ => k.val < ncur
  | .rdu32be k _ => k.val < ncur
  | .rdi8 k _ => k.val < ncur
  | .rdi16le k _ => k.val < ncur
  | .rdi16be k _ => k.val < ncur
  | .rdi32le k _ => k.val < ncur
  | .rdi32be k _ => k.val < ncur
  | .rdf32le k _ => k.val < ncur
  | .rdf32be k _ => k.val < ncur
  | .rdf64le k _ => k.val < ncur
  | .rdf64be k _ => k.val < ncur
  | .rdvfle k _ => k.val < ncur
  | .rdvfbe k _ => k.val < ncur
  | .rdstr k _ _ => k.val < ncur
  | .rdspan k _ _ => k.val < ncur
  | .matchb k _ _ _ => k.val < ncur
  | .lz4d k d => k.val < ncur && d.val < nbuf
  | .ilv k _ _ => k.val < ncur
  | .ilv32 k _ => k.val < ncur
  | .ilv32i k _ => k.val < ncur
  | .ilv32f k _ => k.val < ncur
  | .lz4seq _ _ => true

/-- BLOAD and MATCH carry exactly `zext_32(A0)` payload bytes (R83). -/
def Instr.payloadOk : Instr → Bool
  | .bload _ n pl => pl.length == n.toNat
  | .matchb _ _ n pat => pat.length == n.toNat
  | _ => true

/-- A well-formed instruction of an engine with `nbuf` slots and `ncur` cursors. -/
def Instr.wf (nbuf ncur : Nat) (i : Instr) : Bool := i.selectsOk nbuf ncur && i.payloadOk

end Sys2Proof
end

