-- ==== Sys2Proof/Decode.lean ====
section
/-! DEFINITION. Decoding packets and token bytes (R80 to R87, R91 of spec/30_encoding.md), total and
rejecting by name; the encoder; and the bit-field helper they use (R9). -/

namespace Sys2Proof

/-- `w[hi:lo]` of R9: the unsigned integer made of bits hi down to lo. -/
def bits (w hi lo : Nat) : Nat := w / 2 ^ lo % 2 ^ (hi + 1 - lo)

/-- Why a packet is rejected. All but `payloadLength` are the illegal encodings of R87 and raise
IllegalCommand; `payloadLength` is the transport error of R83 and U14. -/
inductive Illegal where
  /-- `CW[11:9]` or `CW[31:20]` is not 0 (R86) -/
  | reservedBits
  /-- `opc` is not in the table of R84 -/
  | unassignedOpcode
  /-- `P` = 1 on a command that does not allow it (R85) -/
  | peekNotAllowed
  /-- an unused `k`, `d`, `A0` or `A1` is not 0 (R86) -/
  | unusedField
  /-- `k` or `d` is out of range for NCUR, NBUF (R87) -/
  | selectRange
  /-- the payload does not have the length the command states (R83, U14) -/
  | payloadLength
deriving DecidableEq, Repr

/-- The fields of a packet (R81, R82). -/
structure Fields where
  opc : Nat
  p : Bool
  k : Fin 16
  d : Fin 16
  a0 : Word
  a1 : Word
  payload : List Byte
deriving DecidableEq, Repr

/-- Field extraction at the bit positions of R81. -/
def fieldsOf (pk : Packet) : Fields where
  opc := bits pk.cw.toNat 7 0
  p := bits pk.cw.toNat 8 8 == 1
  k := Fin.ofNat 16 (bits pk.cw.toNat 15 12)
  d := Fin.ofNat 16 (bits pk.cw.toNat 19 16)
  a0 := pk.a0
  a1 := pk.a1
  payload := pk.payload

/-- The must-be-zero bits `CW[11:9]` and `CW[31:20]` are zero (R81, R86). -/
def reservedZero (cw : Word) : Bool := bits cw.toNat 11 9 == 0 && bits cw.toNat 31 20 == 0

/-- The columns "uses" and "P allowed" of R84, and whether a payload follows (R83). -/
structure Form where
  usesK : Bool := false
  usesD : Bool := false
  usesA0 : Bool := false
  usesA1 : Bool := false
  allowsP : Bool := false
  hasPayload : Bool := false
deriving DecidableEq, Repr

/-- The opcode map of R84: what each assigned opcode uses, and the instruction its fields give. -/
def opcodeRow (f : Fields) : Option (Form × Instr) :=
  match f.opc with
  | 0x01 => some ({}, .reset)
  | 0x02 => some ({ usesD := true, usesA0 := true, hasPayload := true }, .bload f.d f.a0 f.payload)
  | 0x03 => some ({ usesD := true }, .bfree f.d)
  | 0x04 => some ({ usesK := true, usesD := true }, .cbind f.k f.d)
  | 0x05 => some ({ usesK := true, usesD := true }, .clone f.k f.d)
  | 0x06 => some ({ usesK := true, usesA0 := true }, .seek f.k f.a0)
  | 0x07 => some ({ usesK := true, usesA0 := true }, .adv f.k f.a0)
  | 0x08 => some ({ usesK := true }, .rem f.k)
  | 0x10 => some ({ usesK := true, allowsP := true }, .rdu8 f.k f.p)
  | 0x11 => some ({ usesK := true, allowsP := true }, .rdu16le f.k f.p)
  | 0x12 => some ({ usesK := true, allowsP := true }, .rdu16be f.k f.p)
  | 0x13 => some ({ usesK := true, allowsP := true }, .rdu32le f.k f.p)
  | 0x14 => some ({ usesK := true, allowsP := true }, .rdu32be f.k f.p)
  | 0x18 => some ({ usesK := true, allowsP := true }, .rdi8 f.k f.p)
  | 0x19 => some ({ usesK := true, allowsP := true }, .rdi16le f.k f.p)
  | 0x1A => some ({ usesK := true, allowsP := true }, .rdi16be f.k f.p)
  | 0x1B => some ({ usesK := true, allowsP := true }, .rdi32le f.k f.p)
  | 0x1C => some ({ usesK := true, allowsP := true }, .rdi32be f.k f.p)
  | 0x20 => some ({ usesK := true, allowsP := true }, .rdf32le f.k f.p)
  | 0x21 => some ({ usesK := true, allowsP := true }, .rdf32be f.k f.p)
  | 0x22 => some ({ usesK := true, allowsP := true }, .rdf64le f.k f.p)
  | 0x23 => some ({ usesK := true, allowsP := true }, .rdf64be f.k f.p)
  | 0x24 => some ({ usesK := true, allowsP := true }, .rdvfle f.k f.p)
  | 0x25 => some ({ usesK := true, allowsP := true }, .rdvfbe f.k f.p)
  | 0x30 => some ({ usesK := true, usesA0 := true, allowsP := true }, .rdstr f.k f.p f.a0)
  | 0x31 => some ({ usesK := true, usesA0 := true, allowsP := true }, .rdspan f.k f.p f.a0)
  | 0x32 => some ({ usesK := true, usesA0 := true, allowsP := true, hasPayload := true },
      .matchb f.k f.p f.a0 f.payload)
  | 0x40 => some ({ usesK := true, usesD := true }, .lz4d f.k f.d)
  | 0x50 => some ({ usesK := true, usesA0 := true, usesA1 := true }, .ilv f.k f.a0 f.a1)
  | 0x51 => some ({ usesK := true, usesA0 := true }, .ilv32 f.k f.a0)
  | 0x52 => some ({ usesK := true, usesA0 := true }, .ilv32i f.k f.a0)
  | 0x53 => some ({ usesK := true, usesA0 := true }, .ilv32f f.k f.a0)
  | _ => none

/-- Every field the form does not use is zero (R86). -/
def unusedZero (form : Form) (f : Fields) : Bool :=
  (form.usesK || f.k == 0) && (form.usesD || f.d == 0) &&
  (form.usesA0 || f.a0 == 0) && (form.usesA1 || f.a1 == 0)

/-- The payload has the stated length: A0 bytes where the form has one, none elsewhere (R83). -/
def payloadExact (form : Form) (f : Fields) : Bool :=
  f.payload.length == (if form.hasPayload then f.a0.toNat else 0)

/-- Step 2 of R120 for an engine with `nbuf` slots and `ncur` cursors: the instruction of a packet, or
the name of what is wrong. The tests of R87 come before the payload's, because the words alone say how
long a payload is due (log 11). -/
def decode (nbuf ncur : Nat) (pk : Packet) : Except Illegal Instr :=
  if reservedZero pk.cw = false then .error .reservedBits
  else match opcodeRow (fieldsOf pk) with
    | none => .error .unassignedOpcode
    | some (form, i) =>
      if (fieldsOf pk).p && !form.allowsP then .error .peekNotAllowed
      else if unusedZero form (fieldsOf pk) = false then .error .unusedField
      else if i.selectsOk nbuf ncur = false then .error .selectRange
      else if payloadExact form (fieldsOf pk) = false then .error .payloadLength
      else .ok i

/-- The token byte of a sequence: `L` = token[7:4], `M` = token[3:0]; all 256 values are legal (R91). -/
def decodeSeq (b : Byte) : Instr :=
  .lz4seq (Fin.ofNat 16 (bits b.toNat 7 4)) (Fin.ofNat 16 (bits b.toNat 3 0))

/-- Decoding of either kind of code. -/
def decodeCode (nbuf ncur : Nat) : Code → Except Illegal Instr
  | .packet p => decode nbuf ncur p
  | .token b => .ok (decodeSeq b)

/-- The command word with the fields of R81 at their places. -/
def cwOf (opc : Nat) (p : Bool) (k d : Fin 16) : Word :=
  BitVec.ofNat 32 (opc + 256 * p.toNat + 4096 * k.val + 65536 * d.val)

/-- The encoder: packets by R81, R82, R84 with every unused field 0 (R86), tokens by R91. -/
def encode : Instr → Code
  | .reset => .packet ⟨cwOf 0x01 false 0 0, 0, 0, []⟩
  | .bload d n pl => .packet ⟨cwOf 0x02 false 0 d, n, 0, pl⟩
  | .bfree d => .packet ⟨cwOf 0x03 false 0 d, 0, 0, []⟩
  | .cbind k d => .packet ⟨cwOf 0x04 false k d, 0, 0, []⟩
  | .clone k d => .packet ⟨cwOf 0x05 false k d, 0, 0, []⟩
  | .seek k n => .packet ⟨cwOf 0x06 false k 0, n, 0, []⟩
  | .adv k n => .packet ⟨cwOf 0x07 false k 0, n, 0, []⟩
  | .rem k => .packet ⟨cwOf 0x08 false k 0, 0, 0, []⟩
  | .rdu8 k p => .packet ⟨cwOf 0x10 p k 0, 0, 0, []⟩
  | .rdu16le k p => .packet ⟨cwOf 0x11 p k 0, 0, 0, []⟩
  | .rdu16be k p => .packet ⟨cwOf 0x12 p k 0, 0, 0, []⟩
  | .rdu32le k p => .packet ⟨cwOf 0x13 p k 0, 0, 0, []⟩
  | .rdu32be k p => .packet ⟨cwOf 0x14 p k 0, 0, 0, []⟩
  | .rdi8 k p => .packet ⟨cwOf 0x18 p k 0, 0, 0, []⟩
  | .rdi16le k p => .packet ⟨cwOf 0x19 p k 0, 0, 0, []⟩
  | .rdi16be k p => .packet ⟨cwOf 0x1A p k 0, 0, 0, []⟩
  | .rdi32le k p => .packet ⟨cwOf 0x1B p k 0, 0, 0, []⟩
  | .rdi32be k p => .packet ⟨cwOf 0x1C p k 0, 0, 0, []⟩
  | .rdf32le k p => .packet ⟨cwOf 0x20 p k 0, 0, 0, []⟩
  | .rdf32be k p => .packet ⟨cwOf 0x21 p k 0, 0, 0, []⟩
  | .rdf64le k p => .packet ⟨cwOf 0x22 p k 0, 0, 0, []⟩
  | .rdf64be k p => .packet ⟨cwOf 0x23 p k 0, 0, 0, []⟩
  | .rdvfle k p => .packet ⟨cwOf 0x24 p k 0, 0, 0, []⟩
  | .rdvfbe k p => .packet ⟨cwOf 0x25 p k 0, 0, 0, []⟩
  | .rdstr k p n => .packet ⟨cwOf 0x30 p k 0, n, 0, []⟩
  | .rdspan k p n => .packet ⟨cwOf 0x31 p k 0, n, 0, []⟩
  | .matchb k p n pat => .packet ⟨cwOf 0x32 p k 0, n, 0, pat⟩
  | .lz4d k d => .packet ⟨cwOf 0x40 false k d, 0, 0, []⟩
  | .ilv k bc w => .packet ⟨cwOf 0x50 false k 0, bc, w, []⟩
  | .ilv32 k c => .packet ⟨cwOf 0x51 false k 0, c, 0, []⟩
  | .ilv32i k c => .packet ⟨cwOf 0x52 false k 0, c, 0, []⟩
  | .ilv32f k c => .packet ⟨cwOf 0x53 false k 0, c, 0, []⟩
  | .lz4seq l m => .token (BitVec.ofNat 8 (16 * l.val + m.val))

/-- The code whose bits are `w`: a row of 8 bits is a token, a longer one a packet whose words follow
each other from bit 0, every bit above the row's being 0 and the payload empty. -/
def codeOfTableWord (nbits w : Nat) : Code :=
  if nbits ≤ 8 then .token (BitVec.ofNat 8 w)
  else .packet ⟨BitVec.ofNat 32 w, BitVec.ofNat 32 (w / 2 ^ 32), BitVec.ofNat 32 (w / 2 ^ 64), []⟩

/-- The instruction the decoder reads from a row's bits, for an engine with the default NBUF, NCUR. -/
def decodeTableWord (nbits w : Nat) : Option Instr :=
  match decodeCode Config.nbufDefault Config.ncurDefault (codeOfTableWord nbits w) with
  | .ok i => some i
  | .error _ => none

end Sys2Proof
end

