-- ==== Sys2Proof/Machine/Operands.lean ====
section
/-! DEFINITION. Operand forms: byte orders, sign extension, reads of a byte string, and the index
lists of the addressing modes (R10, R11, R13, R53, R63). -/

namespace Sys2Proof.Machine

/-- `le(b)` of R11: the byte at the lowest index is least significant. -/
def le : List Byte → Nat
  | [] => 0
  | b :: bs => b.toNat + 256 * le bs

/-- `be(b)` of R11: the byte at the lowest index is most significant. -/
def be : List Byte → Nat
  | [] => 0
  | b :: bs => b.toNat * 256 ^ bs.length + be bs

/-- `sext_N` of R10 on the number `u = zext_N(v)`. -/
def sext (n u : Nat) : Int := if u < 2 ^ (n - 1) then u else (u : Int) - 2 ^ n

/-- `zext_32(A)` of R82. -/
def zext32 (a : Word) : Nat := a.toNat

/-- `sext_32(A)` of R82, used by ADV only. -/
def sext32 (a : Word) : Int := sext 32 a.toNat

/-- The u32 made of four bytes read in little-endian order (R98). -/
def leWord (b : List Byte) : Word := BitVec.ofNat 32 (le b)

/-- The u32 made of four bytes read in big-endian order (R98). -/
def beWord (b : List Byte) : Word := BitVec.ofNat 32 (be b)

/-- `MemRead` of R13 on the content of a slot: the `n` bytes from index `a`. Used only where the span
has been checked. -/
def memRead (buf : List Byte) (a n : Nat) : List Byte := (buf.drop a).take n

/-- One byte of a slot; an index outside the slot raises BufferUnderrun (R60). -/
def byteAt (buf : List Byte) (a : Nat) : Except FaultKind Byte :=
  match buf[a]? with
  | some b => .ok b
  | none => .error .bufferUnderrun

/-- Run `f` on each element in order, stopping at the first raise (R14, R15). -/
def collect {α β : Type} (f : α → Except FaultKind β) : List α → Except FaultKind (List β)
  | [] => .ok []
  | a :: as =>
    match f a with
    | .error e => .error e
    | .ok b =>
      match collect f as with
      | .error e => .error e
      | .ok bs => .ok (b :: bs)

/-- Plane-indexed mode of ILV (R63 c, R104): byte j of element i is at `p + j·count + i`. -/
def planeIndex (p count i j : Nat) : Nat := p + j * count + i

/-- Plane-indexed mode of the ILV32 family (R63 c, R243): `p + ((i + j·count) mod byteCount)`. -/
def wordPlaneIndex (p count i j : Nat) : Nat := p + (i + j * count) % (4 * count)

end Sys2Proof.Machine
end

