-- ==== Sys2Proof/Machine/Ops.lean ====
section
/-! DEFINITION. The named operations over slots, cursors, STATUS and RES: executing a command (R120),
the span check and the sequential read (R61, R62), peek (R129), taking a fault (R268) and RESET, the
only way out of the faulted state (R269, R270). -/

namespace Sys2Proof.Machine

/-- Taking a fault (R268): `STATUS <- code(X)`, `RES <- None`, the command ends; the ephemeral state is
discarded; no slot and no cursor changes. -/
def takeFault (kind : FaultKind) (s : State) : State :=
  { s with status := .faulted kind, res := .none, delivered := [], lz4 := none }

/-- RESET (R121, R300): every slot FREE, every cursor UNBOUND, `STATUS` OK, `RES` None. It is the only
way out of the faulted state (R270). The host's pending inputs and the draw counter are no state of
the engine and stay (logs 3 and 5). -/
def resetEngine (s : State) : State :=
  { s with slots := s.slots.map (fun _ => .free), cursors := s.cursors.map (fun _ => .unbound),
           status := .ok, res := .none, delivered := [], lz4 := none }

/-- Step 5 of R120: `RES` is written with the command's result; its floats are delivered (R167). -/
def complete (r : Res) (s : State) : State :=
  { s with res := r, delivered := (deliverAll s.draws r.floatList).1,
           draws := (deliverAll s.draws r.floatList).2 }

/-- Steps 1, 3, 4 and 5 of R120 around a command's body: ignored in the faulted state (R269), else the
body runs; a raise takes the fault, a result completes the command. -/
def command (body : State → Except FaultKind (State × Res)) (s : State) :
    Host.Outcome State Fault Refusal :=
  match s.status with
  | .faulted _ => .next s
  | .ok =>
    match body s with
    | .error kind => .next (takeFault kind s)
    | .ok (t, r) => .next (complete r t)

/-- A command whose payload must have `zext_32(A0)` bytes (R83): another length is the transport error
of U14, refused; in the faulted state the packet is ignored all the same (R120 step 1). -/
def withPayload (n : Word) (payload : List Byte) (run : State → Host.Outcome State Fault Refusal)
    (s : State) : Host.Outcome State Fault Refusal :=
  if s.status = .ok ∧ payload.length ≠ zext32 n then .refused .payloadLength else run s

/-- A packet the decoder rejects (R87, R120 steps 1 and 2): ignored in the faulted state, else
IllegalCommand; a wrong payload length is refused (U14). -/
def rejectPacket (e : Illegal) (s : State) : Host.Outcome State Fault Refusal :=
  match s.status with
  | .faulted _ => .next s
  | .ok => if e = .payloadLength then .refused .payloadLength else .next (takeFault .illegalCommand s)

/-- Write cursor register k. -/
def State.setCursor (k : Nat) (c : Cursor) (s : State) : State :=
  { s with cursors := s.cursors.set k c }

/-- Write slot i. -/
def State.setSlot (i : Nat) (x : Slot) (s : State) : State :=
  { s with slots := s.slots.set i x }

/-- The content of slot i where it is ALLOC (R22). -/
def State.bufAt (s : State) (i : Nat) : Option (List Byte) :=
  match s.slots[i]? with
  | some (.alloc b) => some b
  | _ => none

/-- One byte of the machine's memory: index a of slot i, where it exists (R50). -/
def State.byteOf (s : State) (i a : Nat) : Option Byte :=
  match s.bufAt i with
  | some b => b[a]?
  | none => none

/-- Step 3 of R120 for cursor k: it must be bound, else IllegalCommand. Gives `BND[k]`, `POS[k]`. -/
def cursorOf (s : State) (k : Fin 16) : Except FaultKind (Nat × Int) :=
  match s.cursors[k.val]? with
  | some (.bound b p) => .ok (b, p)
  | _ => .error .illegalCommand

/-- A bound cursor with the content of its slot: what a read command works on. -/
structure Opened where
  bnd : Nat
  pos : Int
  buf : List Byte
deriving DecidableEq, Repr

/-- Step 3 of R120 for a command that reads the slot of cursor k. A bound cursor names an ALLOC slot
(R24); finding it FREE is IllegalCommand as well (R37). -/
def openCursor (s : State) (k : Fin 16) : Except FaultKind Opened :=
  match cursorOf s k with
  | .error e => .error e
  | .ok (b, p) =>
    match s.bufAt b with
    | some buf => .ok ⟨b, p, buf⟩
    | none => .error .illegalCommand

/-- Step 3 of R120 for a destination slot that must be FREE (R122, R200). -/
def needFree (s : State) (d : Fin 16) : Except FaultKind Unit :=
  match s.slots[d.val]? with
  | some .free => .ok ()
  | _ => .error .illegalCommand

/-- Step 3 of R120 for a slot that must be ALLOC (R123, R124). -/
def needAlloc (s : State) (d : Fin 16) : Except FaultKind Unit :=
  match s.slots[d.val]? with
  | some (.alloc _) => .ok ()
  | _ => .error .illegalCommand

/-- Cursor register k exists (R87). -/
def needCursor (s : State) (k : Fin 16) : Except FaultKind Unit :=
  if k.val < s.cursors.length then .ok () else .error .illegalCommand

/-- `Need(k, n)` of R61: BufferUnderrun if `POS < 0` or `POS + n > LEN`, also for n = 0. -/
def need (o : Opened) (n : Nat) : Except FaultKind Unit :=
  if o.pos < 0 ∨ (o.buf.length : Int) < o.pos + n then .error .bufferUnderrun else .ok ()

/-- `Fetch(k, n)` of R62: the span check, the n bytes at `POS[k]`, and `POS[k] <- POS[k] + n`. -/
def fetchBytes (k : Fin 16) (o : Opened) (n : Nat) (s : State) :
    Except FaultKind (List Byte × State) :=
  match need o n with
  | .error e => .error e
  | .ok _ => .ok (memRead o.buf o.pos.toNat n, s.setCursor k.val (.bound o.bnd (o.pos + n)))

/-- A read command on cursor k with the peek modifier (R129): the body runs, and with `P` the position
is restored to what it was. -/
def readCommand (k : Fin 16) (peek : Bool)
    (body : Opened → State → Except FaultKind (State × Res)) : State → Host.Outcome State Fault Refusal :=
  command fun s =>
    match openCursor s k with
    | .error e => .error e
    | .ok o =>
      match body o s with
      | .error e => .error e
      | .ok (t, r) => .ok (if peek then t.setCursor k.val (.bound o.bnd o.pos) else t, r)

/-- The body of a read of n bytes whose result is a function of the bytes (R140, R170, R190, R192). -/
def fetchBody (k : Fin 16) (n : Nat) (f : List Byte → Res) (o : Opened) (s : State) :
    Except FaultKind (State × Res) :=
  match fetchBytes k o n s with
  | .error e => .error e
  | .ok (b, t) => .ok (t, f b)

/-- A read of n bytes at the cursor, the result a function of the bytes. -/
def readBytes (k : Fin 16) (peek : Bool) (n : Nat) (f : List Byte → Res) :
    State → Host.Outcome State Fault Refusal :=
  readCommand k peek (fetchBody k n f)

end Sys2Proof.Machine
end

