-- ==== Sys2Proof/Machine/Bytes.lean ====
section
/-! DEFINITION. RDSTR, RDSPAN, MATCH (R190 to R192 of spec/43_bytes.md). -/

namespace Sys2Proof.Machine

/-- R190: the n bytes, no byte value special. -/
def execRdstr (k : Fin 16) (peek : Bool) (n : Word) (s : State) : Host.Outcome State Fault Refusal :=
  readBytes k peek (zext32 n) (fun b => .bytes b) s

/-- The body of RDSPAN (R191): `Need(k, n)`, a descriptor and no copy, `POS[k] <- p + n`. -/
def spanBody (k : Fin 16) (n : Nat) (o : Opened) (s : State) : Except FaultKind (State × Res) :=
  match need o n with
  | .error e => .error e
  | .ok _ => .ok (s.setCursor k.val (.bound o.bnd (o.pos + n)), .span o.bnd o.pos.toNat n)

/-- R191. -/
def execRdspan (k : Fin 16) (peek : Bool) (n : Word) (s : State) : Host.Outcome State Fault Refusal :=
  readCommand k peek (spanBody k (zext32 n)) s

/-- R192: the cursor advances whether or not the bytes matched. -/
def execMatch (k : Fin 16) (peek : Bool) (n : Word) (pat : List Byte) (s : State) :
    Host.Outcome State Fault Refusal :=
  withPayload n pat (readBytes k peek (zext32 n) (fun b => .bool (decide (b = pat)))) s

end Sys2Proof.Machine
end

