-- ==== Sys2Proof/Machine/Cursor.lean ====
section
/-! DEFINITION. Session and position commands: RESET, BLOAD, BFREE, CBIND, CLONE, SEEK, ADV, REM
(R121 to R128 of spec/40_cursor.md). -/

namespace Sys2Proof.Machine

/-- R121. RESET is executed in the faulted state too. -/
def execReset (s : State) : Host.Outcome State Fault Refusal := .next (resetEngine s)

/-- R122: slot d, which must be FREE, becomes ALLOC with the payload. -/
def execBload (d : Fin 16) (n : Word) (payload : List Byte) (s : State) :
    Host.Outcome State Fault Refusal :=
  withPayload n payload (command fun s =>
    match needFree s d with
    | .error e => .error e
    | .ok _ => .ok (s.setSlot d.val (.alloc payload), .unit)) s

/-- A cursor bound to slot d becomes UNBOUND, another stays (R123). -/
def unbindFrom (d : Nat) : Cursor → Cursor
  | .unbound => .unbound
  | .bound b p => if b = d then .unbound else .bound b p

/-- Slot d becomes FREE and every cursor bound to it UNBOUND (R123). -/
def freeSlot (d : Nat) (s : State) : State :=
  { s with slots := s.slots.set d .free, cursors := s.cursors.map (unbindFrom d) }

/-- R123. -/
def execBfree (d : Fin 16) (s : State) : Host.Outcome State Fault Refusal :=
  command (fun s =>
    match needAlloc s d with
    | .error e => .error e
    | .ok _ => .ok (freeSlot d.val s, .unit)) s

/-- R124: cursor k, bound or not, becomes (d, 0). -/
def execCbind (k d : Fin 16) (s : State) : Host.Outcome State Fault Refusal :=
  command (fun s =>
    match needCursor s k with
    | .error e => .error e
    | .ok _ =>
      match needAlloc s d with
      | .error e => .error e
      | .ok _ => .ok (s.setCursor k.val (.bound d.val 0), .unit)) s

/-- R125: cursor d becomes a copy of cursor k. -/
def execClone (k d : Fin 16) (s : State) : Host.Outcome State Fault Refusal :=
  command (fun s =>
    match cursorOf s k with
    | .error e => .error e
    | .ok (b, p) =>
      match needCursor s d with
      | .error e => .error e
      | .ok _ => .ok (s.setCursor d.val (.bound b p), .unit)) s

/-- Move cursor k to the position `f` makes of the present one, with no bounds check (R126, R127). -/
def moveCursor (k : Fin 16) (f : Int → Int) : State → Host.Outcome State Fault Refusal :=
  command fun s =>
    match cursorOf s k with
    | .error e => .error e
    | .ok (b, p) => .ok (s.setCursor k.val (.bound b (f p)), .unit)

/-- R126: `POS[k] <- zext_32(A0)`. -/
def execSeek (k : Fin 16) (n : Word) (s : State) : Host.Outcome State Fault Refusal :=
  moveCursor k (fun _ => (zext32 n : Int)) s

/-- R127: `POS[k] <- POS[k] + sext_32(A0)`, exact in ℤ. -/
def execAdv (k : Fin 16) (n : Word) (s : State) : Host.Outcome State Fault Refusal :=
  moveCursor k (fun p => p + sext32 n) s

/-- R128: `LEN[BND[k]] − POS[k]`, no state change. -/
def execRem (k : Fin 16) (s : State) : Host.Outcome State Fault Refusal :=
  command (fun s =>
    match openCursor s k with
    | .error e => .error e
    | .ok o => .ok (s, .int ((o.buf.length : Int) - o.pos))) s

end Sys2Proof.Machine
end

