-- ==== Sys2Proof/Machine/Float.lean ====
section
/-! DEFINITION. The float functions F32, F64, VF32 and the six float reads (R160 to R175 of
spec/42_float.md). The numeric literals are the spec's, unaudited (U11; log 7). -/

namespace Sys2Proof.Machine

/-- `2^z` as a rational (R10: with negative exponent, the reciprocal). -/
def pow2 : Int → Rat
  | .ofNat n => mkRat (2 ^ n) 1
  | .negSucc n => mkRat 1 (2 ^ (n + 1))

/-- `q`, negated when the sign is set. -/
def applySign (neg : Bool) (q : Rat) : Rat := if neg then -q else q

/-- The value of a 32-bit format with exponent field e, mantissa m and sign: +0 when e = 0, else
`2^(e−127)·(1 + m/2^23)` with the sign applied; e = 255 is an ordinary exponent (R161, R162, R166). -/
def floatOfFields (e m : Nat) (neg : Bool) : FVal :=
  if e = 0 then .posZero
  else .fin (applySign neg (pow2 ((e : Int) - 127) * (1 + mkRat m (2 ^ 23))))

/-- `F32(w)` (R99, R161): the sign is tested as `w > 0x7FFFFFFF`. -/
def f32 (w : Word) : FVal :=
  floatOfFields (bits w.toNat 30 23) (bits w.toNat 22 0) (decide (0x7FFFFFFF < w.toNat))

/-- `VF32(w)` (R101, R166): exponent in 31:24, mantissa in 23:1, sign in bit 0. -/
def vf32 (w : Word) : FVal :=
  floatOfFields (bits w.toNat 31 24) (bits w.toNat 23 1) (decide (bits w.toNat 0 0 = 1))

/-- `F64(hi, lo)` (R100, R163): signed zeros and infinities, one NaN, and the zero-exponent branch at
scale `2^(0−1023)`, half the IEEE-754 value (R164), the sign applied there too (decision D40). -/
def f64 (hi lo : Word) : FVal :=
  let e : Nat := bits hi.toNat 30 20
  let fr : Nat := bits hi.toNat 19 0 * 2 ^ 32 + lo.toNat
  let neg := decide (bits hi.toNat 31 31 = 1)
  if e = 0 then
    if fr = 0 then (if neg then .negZero else .posZero)
    else .fin (applySign neg (pow2 (0 - 1023) * mkRat fr (2 ^ 52)))
  else if e = 2047 then
    if fr = 0 then (if neg then .negInf else .posInf) else .nan
  else .fin (applySign neg (pow2 ((e : Int) - 1023) * (1 + mkRat fr (2 ^ 52))))

/-- R170. -/
def execRdf32le (k : Fin 16) (peek : Bool) (s : State) : Host.Outcome State Fault Refusal :=
  readBytes k peek 4 (fun b => .float (f32 (leWord b))) s

/-- R171. -/
def execRdf32be (k : Fin 16) (peek : Bool) (s : State) : Host.Outcome State Fault Refusal :=
  readBytes k peek 4 (fun b => .float (f32 (beWord b))) s

/-- R172: low word first (R55). -/
def execRdf64le (k : Fin 16) (peek : Bool) (s : State) : Host.Outcome State Fault Refusal :=
  readBytes k peek 8 (fun b => .float (f64 (leWord (b.drop 4)) (leWord (b.take 4)))) s

/-- R173: high word first (R55). -/
def execRdf64be (k : Fin 16) (peek : Bool) (s : State) : Host.Outcome State Fault Refusal :=
  readBytes k peek 8 (fun b => .float (f64 (beWord (b.take 4)) (beWord (b.drop 4)))) s

/-- R174. -/
def execRdvfle (k : Fin 16) (peek : Bool) (s : State) : Host.Outcome State Fault Refusal :=
  readBytes k peek 4 (fun b => .float (vf32 (leWord b))) s

/-- R175. -/
def execRdvfbe (k : Fin 16) (peek : Bool) (s : State) : Host.Outcome State Fault Refusal :=
  readBytes k peek 4 (fun b => .float (vf32 (beWord b))) s

end Sys2Proof.Machine
end

