-- ==== Sys2Proof/Machine/Integer.lean ====
section
/-! DEFINITION. The ten integer reads (R140 to R151 of spec/41_integer.md): N/8 bytes at the cursor,
delivered as the integer their bit string denotes. -/

namespace Sys2Proof.Machine

/-- R141. -/
def execRdu8 (k : Fin 16) (peek : Bool) (s : State) : Host.Outcome State Fault Refusal :=
  readBytes k peek 1 (fun b => .int (le b)) s

/-- R142. -/
def execRdu16le (k : Fin 16) (peek : Bool) (s : State) : Host.Outcome State Fault Refusal :=
  readBytes k peek 2 (fun b => .int (le b)) s

/-- R143. -/
def execRdu16be (k : Fin 16) (peek : Bool) (s : State) : Host.Outcome State Fault Refusal :=
  readBytes k peek 2 (fun b => .int (be b)) s

/-- R144. -/
def execRdu32le (k : Fin 16) (peek : Bool) (s : State) : Host.Outcome State Fault Refusal :=
  readBytes k peek 4 (fun b => .int (le b)) s

/-- R145. -/
def execRdu32be (k : Fin 16) (peek : Bool) (s : State) : Host.Outcome State Fault Refusal :=
  readBytes k peek 4 (fun b => .int (be b)) s

/-- R146. -/
def execRdi8 (k : Fin 16) (peek : Bool) (s : State) : Host.Outcome State Fault Refusal :=
  readBytes k peek 1 (fun b => .int (sext 8 (le b))) s

/-- R147. -/
def execRdi16le (k : Fin 16) (peek : Bool) (s : State) : Host.Outcome State Fault Refusal :=
  readBytes k peek 2 (fun b => .int (sext 16 (le b))) s

/-- R148. -/
def execRdi16be (k : Fin 16) (peek : Bool) (s : State) : Host.Outcome State Fault Refusal :=
  readBytes k peek 2 (fun b => .int (sext 16 (be b))) s

/-- R149. -/
def execRdi32le (k : Fin 16) (peek : Bool) (s : State) : Host.Outcome State Fault Refusal :=
  readBytes k peek 4 (fun b => .int (sext 32 (le b))) s

/-- R150. -/
def execRdi32be (k : Fin 16) (peek : Bool) (s : State) : Host.Outcome State Fault Refusal :=
  readBytes k peek 4 (fun b => .int (sext 32 (be b))) s

end Sys2Proof.Machine
end

