-- ==== Sys2Proof/Machine/Interleave.lean ====
section
/-! DEFINITION. The byte-plane interleaver: ILV, ILV32, ILV32I, ILV32F (R240 to R250 of
spec/45_interleave.md). -/

namespace Sys2Proof.Machine

/-- Element i of an interleaved run at p: byte j stands at `p + j·count + i` (R104, R240). -/
def ilvElem (buf : List Byte) (p count width i : Nat) : Except FaultKind (List Byte) :=
  collect (fun j => byteAt buf (planeIndex p count i j)) (List.range width)

/-- The `count` elements in increasing i (R240, R249). -/
def ilvElems (buf : List Byte) (p count width : Nat) : Except FaultKind (List (List Byte)) :=
  collect (ilvElem buf p count width) (List.range count)

/-- The body of ILV (R240, R241): geometry before bounds; the cursor does not move (R242). -/
def ilvBody (byteCount width : Nat) (o : Opened) (s : State) : Except FaultKind (State × Res) :=
  if width = 0 ∨ byteCount % width ≠ 0 then .error .invalidGeometry
  else
    match need o byteCount with
    | .error e => .error e
    | .ok _ =>
      match ilvElems o.buf o.pos.toNat (byteCount / width) width with
      | .error e => .error e
      | .ok es => .ok (s, .elems es)

/-- The word `2^24·b0 + 2^16·b1 + 2^8·b2 + b3` (R105, R243). -/
def wordOfPlanes (b0 b1 b2 b3 : Byte) : Word :=
  BitVec.ofNat 32 (2 ^ 24 * b0.toNat + 2 ^ 16 * b1.toNat + 2 ^ 8 * b2.toNat + b3.toNat)

/-- Word i of the 32-bit layout at p, with the `mod byteCount` of R243. -/
def planeWord (buf : List Byte) (p count i : Nat) : Except FaultKind Word :=
  match byteAt buf (p + i), byteAt buf (wordPlaneIndex p count i 1),
      byteAt buf (wordPlaneIndex p count i 2), byteAt buf (wordPlaneIndex p count i 3) with
  | .ok b0, .ok b1, .ok b2, .ok b3 => .ok (wordOfPlanes b0 b1 b2 b3)
  | _, _, _, _ => .error .bufferUnderrun

/-- The loop of `Words32(k, count)` (R243), on the content of the slot. -/
def planeWords (buf : List Byte) (p count : Nat) : Except FaultKind (List Word) :=
  collect (planeWord buf p count) (List.range count)

/-- The body of the ILV32 family (R243): the span check on `4·count` (exact, no wrap), the words, the
advance by `4·count`, and the result made of the words. -/
def words32Body (k : Fin 16) (count : Nat) (f : List Word → Res) (o : Opened) (s : State) :
    Except FaultKind (State × Res) :=
  match need o (4 * count) with
  | .error e => .error e
  | .ok _ =>
    match planeWords o.buf o.pos.toNat count with
    | .error e => .error e
    | .ok w => .ok (s.setCursor k.val (.bound o.bnd (o.pos + (4 * count : Nat))), f w)

/-- `ZZ(v)` (R106, R246): v even gives v/2, v odd gives −(v + 1)/2, in ℤ. -/
def zz (v : Word) : Int :=
  if v.toNat % 2 = 0 then ((v.toNat / 2 : Nat) : Int) else -(((v.toNat + 1) / 2 : Nat) : Int)

/-- R240. -/
def execIlv (k : Fin 16) (byteCount width : Word) (s : State) : Host.Outcome State Fault Refusal :=
  readCommand k false (ilvBody (zext32 byteCount) (zext32 width)) s

/-- R244. -/
def execIlv32 (k : Fin 16) (count : Word) (s : State) : Host.Outcome State Fault Refusal :=
  readCommand k false (words32Body k (zext32 count) (fun w => .words w)) s

/-- R245. -/
def execIlv32i (k : Fin 16) (count : Word) (s : State) : Host.Outcome State Fault Refusal :=
  readCommand k false (words32Body k (zext32 count) (fun w => .ints (w.map zz))) s

/-- R247. -/
def execIlv32f (k : Fin 16) (count : Word) (s : State) : Host.Outcome State Fault Refusal :=
  readCommand k false (words32Body k (zext32 count) (fun w => .floats (w.map vf32))) s

end Sys2Proof.Machine
end

