-- ==== Sys2Proof/Machine/Lz4.lean ====
section
/-! DEFINITION. The block decompress command LZ4D and the LZ4 sequence it interprets (R200 to R220 of
spec/44_lz4.md), one definition per rule. LZ4D sets up the ephemeral state `lz4` (R203), executes
sequences until none is left (R204) and completes (R212, R213), all in one step; the instruction
LZ4.SEQ executes one sequence of a block in progress, the finer grain R316 allows (log 2). -/

namespace Sys2Proof.Machine

/-- `op`, the count of output bytes produced so far (R31). -/
def Lz4.op (c : Lz4) : Nat := c.out.length

/-- R205: the token is consumed, `lit` and `ml` are its nibbles. -/
def seqToken (l m : Nat) (c : Lz4) : Lz4 := { c with ip := c.ip + 1, lit := l, ml := m }

/-- The repeat loop of R206 and R210 on the bytes from `ip` to the end of the buffer: every byte read is
added, reading goes on exactly while the byte read is 255 (R92). Gives the sum and how many bytes were
read; the end of the buffer is BufferUnderrun. -/
def readExtension : List Byte → Except FaultKind (Nat × Nat)
  | [] => .error .bufferUnderrun
  | e :: es =>
    if e = 255 then
      match readExtension es with
      | .error x => .error x
      | .ok (v, n) => .ok (255 + v, n + 1)
    else .ok (e.toNat, 1)

/-- R206: literal-length extension, fetched against the end of the buffer (R214). -/
def seqLiteralLength (buf : List Byte) (c : Lz4) : Except FaultKind Lz4 :=
  if c.lit = 15 then
    match readExtension (buf.drop c.ip) with
    | .error e => .error e
    | .ok (v, n) => .ok { c with lit := c.lit + v, ip := c.ip + n }
  else .ok c

/-- R207: the literal run must fit the block, then the output; it is copied to the output. -/
def seqLiterals (buf : List Byte) (c : Lz4) : Except FaultKind Lz4 :=
  if (c.blockEnd : Int) - c.ip < c.lit then .error .bufferUnderrun
  else if (c.dlen.toNat : Int) - c.op < c.lit then .error .malformedStream
  else .ok { c with out := c.out ++ memRead buf c.ip c.lit, ip := c.ip + c.lit }

/-- R209: the offset, two bytes little-endian, fetched against the end of the buffer. -/
def seqOffset (buf : List Byte) (c : Lz4) : Except FaultKind Lz4 :=
  if buf.length < c.ip + 2 then .error .bufferUnderrun
  else
    let off : BitVec 16 := BitVec.ofNat 16 (le (memRead buf c.ip 2))
    .ok { c with off := off, ip := c.ip + 2, start := (c.op : Int) - off.toNat }

/-- R210: match-length extension, then the fixed minimum of 4. -/
def seqMatchLength (buf : List Byte) (c : Lz4) : Except FaultKind Lz4 :=
  if c.ml = 15 then
    match readExtension (buf.drop c.ip) with
    | .error e => .error e
    | .ok (v, n) => .ok { c with ml := c.ml + v + 4, ip := c.ip + n }
  else .ok { c with ml := c.ml + 4 }

/-- The copy loop of R211: `n` bytes, one by one, from index `a` of the output to its end, each read
seeing the writes before it (R67). A cell that is not written yet has no value; R216 says none is read. -/
def copyMatch (out : List Byte) (a : Nat) : Nat → Option (List Byte)
  | 0 => some out
  | n + 1 =>
    match out[a]? with
    | none => none
    | some b => copyMatch (out ++ [b]) (a + 1) n

/-- R211: a zero offset, one beyond the output, or a match beyond `dlen` is MalformedStream; else the
copy. -/
def seqMatchCopy (c : Lz4) : Except FaultKind Lz4 :=
  if c.off = 0 ∨ c.start < 0 then .error .malformedStream
  else if (c.dlen.toNat : Int) - c.op < c.ml then .error .malformedStream
  else
    match copyMatch c.out c.start.toNat c.ml with
    | none => .error .malformedStream
    | some out => .ok { c with out := out }

/-- The match part of a sequence: R209, R210, R211 in order. -/
def seqMatch (buf : List Byte) (c : Lz4) : Except FaultKind Lz4 :=
  match seqOffset buf c with
  | .error e => .error e
  | .ok c =>
    match seqMatchLength buf c with
    | .error e => .error e
    | .ok c => seqMatchCopy c

/-- One whole sequence (R205 to R211), the match part present exactly when input remains before the
block end (R208). -/
def seqBody (buf : List Byte) (l m : Nat) (c : Lz4) : Except FaultKind Lz4 :=
  match seqLiteralLength buf (seqToken l m c) with
  | .error e => .error e
  | .ok c =>
    match seqLiterals buf c with
    | .error e => .error e
    | .ok c => if c.ip < c.blockEnd then seqMatch buf c else .ok c

/-- R212: the end checks, boundary before length. -/
def blockEndCheck (c : Lz4) : Except FaultKind Unit :=
  if c.ip ≠ c.blockEnd then .error .malformedStream
  else if c.op ≠ c.dlen.toNat then .error .malformedStream
  else .ok ()

/-- R213: slot d becomes ALLOC with the output, `POS[k] <- pnew`, the result is `Span(d, 0, dlen)`. -/
def lz4Commit (k d : Fin 16) (src : Nat) (pnew : Int) (out : List Byte) (s : State) : State :=
  complete (.span d.val 0 out.length)
    ({ s with lz4 := none }.setSlot d.val (.alloc out) |>.setCursor k.val (.bound src pnew))

/-- After the loop (R204): the end checks of R212, then the completion of R213 or the fault. -/
def lz4Finish (c : Lz4) (s : State) : State :=
  match blockEndCheck c with
  | .error e => takeFault e s
  | .ok _ => lz4Commit c.k c.d c.src c.blockEnd c.out s

/-- One sequence of the block in progress, then the loop test of R204: the block goes on while `ip` is
before its end, else it finishes. The source slot is ALLOC throughout; FREE is IllegalCommand (R37). -/
def lz4Sequence (l m : Nat) (c : Lz4) (s : State) : State :=
  match s.bufAt c.src with
  | none => takeFault .illegalCommand s
  | some buf =>
    match seqBody buf l m c with
    | .error e => takeFault e s
    | .ok c => if c.ip < c.blockEnd then { s with lz4 := some c } else lz4Finish c s

/-- LZ4.SEQ (R90, R204 to R212): executes the sequence whose token has the nibbles `l`, `m`. Outside a
block it has no effect the spec gives ("decoded by LZ4D only"). -/
def execLz4seq (l m : Fin 16) (s : State) : Host.Outcome State Fault Refusal :=
  match s.lz4 with
  | none => .fault .sequenceOutsideBlock
  | some c => .next (lz4Sequence l.val m.val c s)

/-- Fetch of the next token of a block in progress: `BUF[s][ip]` (R205). -/
def lz4Token (c : Lz4) (s : State) : Option Byte := s.byteOf c.src c.ip

/-- Fetch and execute the next sequence of a block in progress (R204). -/
def lz4Next (c : Lz4) (s : State) : State :=
  if c.ip < c.blockEnd then
    match lz4Token c s with
    | none => takeFault .bufferUnderrun s
    | some b => lz4Sequence (bits b.toNat 7 4) (bits b.toNat 3 0) c s
  else lz4Finish c s

/-- The loop of LZ4D (R204), at most `n` sequences: until no block is in progress. -/
def lz4Loop : Nat → State → State
  | 0, s => s
  | n + 1, s =>
    match s.lz4 with
    | none => s
    | some c => lz4Loop n (lz4Next c s)

/-- R203: the ephemeral state at the entry of the compressed path. -/
def lz4Entry (k d : Fin 16) (src : Nat) (clen dlen : Word) (p : Nat) : Lz4 where
  k := k
  d := d
  src := src
  clen := clen
  dlen := dlen
  blockEnd := p + clen.toNat
  ip := p
  lit := 0
  ml := 0
  off := 0
  start := 0
  out := []

/-- R200 to R203: resources (k, then d), header, then the raw path, which completes at once, or the
entry of the compressed path, which leaves the block in progress. -/
def lz4Start (k d : Fin 16) (s : State) : Except FaultKind State :=
  match openCursor s k with
  | .error e => .error e
  | .ok o =>
    match needFree s d with
    | .error e => .error e
    | .ok _ =>
      match need o 12 with
      | .error e => .error e
      | .ok _ =>
        let p0 := o.pos.toNat
        let clen := leWord (memRead o.buf p0 4)
        let dlen := leWord (memRead o.buf (p0 + 4) 4)
        let p := p0 + 12
        if clen = 0 then
          if o.buf.length - p < dlen.toNat then .error .bufferUnderrun
          else .ok (lz4Commit k d o.bnd (p + dlen.toNat : Nat) (memRead o.buf p dlen.toNat) s)
        else if o.buf.length - p < clen.toNat then .error .bufferUnderrun
        else .ok { s with lz4 := some (lz4Entry k d o.bnd clen dlen p) }

/-- How many sequences the block in progress can have at most: each consumes at least its token, so at
most `clen` (R218). -/
def lz4Fuel (s : State) : Nat :=
  match s.lz4 with
  | none => 0
  | some c => c.clen.toNat

/-- R200: the whole command, atomically (R5, R20). -/
def execLz4d (k d : Fin 16) (s : State) : Host.Outcome State Fault Refusal :=
  match s.status with
  | .faulted _ => .next s
  | .ok =>
    match lz4Start k d s with
    | .error e => .next (takeFault e s)
    | .ok t => .next (lz4Loop (lz4Fuel t) t)

end Sys2Proof.Machine
end

