-- ==== Sys2Proof/Machine/Dispatch.lean ====
section
/-! DEFINITION. The one dispatch from instruction to meaning. -/

namespace Sys2Proof.Machine

def exec (i : Instr) (s : State) : Host.Outcome State Fault Refusal :=
  match i with
  | .reset => Sys2Proof.Machine.execReset s
  | .bload d n payload => Sys2Proof.Machine.execBload d n payload s
  | .bfree d => Sys2Proof.Machine.execBfree d s
  | .cbind k d => Sys2Proof.Machine.execCbind k d s
  | .clone k d => Sys2Proof.Machine.execClone k d s
  | .seek k n => Sys2Proof.Machine.execSeek k n s
  | .adv k n => Sys2Proof.Machine.execAdv k n s
  | .rem k => Sys2Proof.Machine.execRem k s
  | .rdu8 k peek => Sys2Proof.Machine.execRdu8 k peek s
  | .rdu16le k peek => Sys2Proof.Machine.execRdu16le k peek s
  | .rdu16be k peek => Sys2Proof.Machine.execRdu16be k peek s
  | .rdu32le k peek => Sys2Proof.Machine.execRdu32le k peek s
  | .rdu32be k peek => Sys2Proof.Machine.execRdu32be k peek s
  | .rdi8 k peek => Sys2Proof.Machine.execRdi8 k peek s
  | .rdi16le k peek => Sys2Proof.Machine.execRdi16le k peek s
  | .rdi16be k peek => Sys2Proof.Machine.execRdi16be k peek s
  | .rdi32le k peek => Sys2Proof.Machine.execRdi32le k peek s
  | .rdi32be k peek => Sys2Proof.Machine.execRdi32be k peek s
  | .rdf32le k peek => Sys2Proof.Machine.execRdf32le k peek s
  | .rdf32be k peek => Sys2Proof.Machine.execRdf32be k peek s
  | .rdf64le k peek => Sys2Proof.Machine.execRdf64le k peek s
  | .rdf64be k peek => Sys2Proof.Machine.execRdf64be k peek s
  | .rdvfle k peek => Sys2Proof.Machine.execRdvfle k peek s
  | .rdvfbe k peek => Sys2Proof.Machine.execRdvfbe k peek s
  | .rdstr k peek n => Sys2Proof.Machine.execRdstr k peek n s
  | .rdspan k peek n => Sys2Proof.Machine.execRdspan k peek n s
  | .matchb k peek n pat => Sys2Proof.Machine.execMatch k peek n pat s
  | .lz4d k d => Sys2Proof.Machine.execLz4d k d s
  | .ilv k byteCount width => Sys2Proof.Machine.execIlv k byteCount width s
  | .ilv32 k count => Sys2Proof.Machine.execIlv32 k count s
  | .ilv32i k count => Sys2Proof.Machine.execIlv32i k count s
  | .ilv32f k count => Sys2Proof.Machine.execIlv32f k count s
  | .lz4seq lit mat => Sys2Proof.Machine.execLz4seq lit mat s

end Sys2Proof.Machine
end

