-- ==== Sys2Proof/Machine/Fetch.lean ====
section
/-! DEFINITION. What the engine executes next: the next sequence of a block in progress, else the
host's next input, else nothing (R20, R27, R66, R300; logs 2 and 3). -/

namespace Sys2Proof.Machine

/-- What a step finds to do, with the state after the input is taken. -/
inductive Fetched where
  /-- no input: the engine holds its state (R278, R300) -/
  | idle
  /-- the external reset input (R300) -/
  | externalReset (s : State)
  /-- an instruction: a decoded command, or the next LZ4 sequence -/
  | instr (i : Instr) (s : State)
  /-- a packet the decoder rejects (R87) -/
  | rejected (e : Illegal) (s : State)
  /-- the block in progress has no sequence left (R204) -/
  | blockEnd (c : Lz4) (s : State)
  /-- the token of the next sequence does not exist in the buffer (R60) -/
  | missingToken (s : State)
deriving DecidableEq, Repr

/-- The next packet, decoded for this engine's NBUF and NCUR (R120 step 2). -/
def fetchPacket (p : Packet) (s : State) : Fetched :=
  match decode s.slots.length s.cursors.length p with
  | .ok i => .instr i s
  | .error e => .rejected e s

/-- The fetch. While a block is in progress the host does not act (R20). -/
def fetch (s : State) : Fetched :=
  match s.lz4 with
  | some c =>
    if c.ip < c.blockEnd then
      match lz4Token c s with
      | some b => .instr (decodeSeq b) s
      | none => .missingToken s
    else .blockEnd c s
  | none =>
    match s.inbox with
    | [] => .idle
    | .reset :: rest => .externalReset { s with inbox := rest }
    | .packet p :: rest => fetchPacket p { s with inbox := rest }

/-- Four bytes of a u32 field in little-endian order (R54). -/
def leBytes (n : Nat) : List Byte :=
  [BitVec.ofNat 8 n, BitVec.ofNat 8 (n / 256), BitVec.ofNat 8 (n / 65536), BitVec.ofNat 8 (n / 16777216)]

/-- The payload of a block whose only sequence has this token, every other byte of it zero: the token,
one extension byte if `L` = 15, and the literals (R90, R95). -/
def oneSequence (b : Byte) : List Byte :=
  b :: List.replicate ((if bits b.toNat 7 4 = 15 then 1 else 0) + bits b.toNat 7 4) 0

/-- A slot's content: the header (R88) and that block. -/
def oneSequenceBlock (b : Byte) : List Byte :=
  leBytes (oneSequence b).length ++ leBytes (bits b.toNat 7 4) ++ [0, 0, 0, 0] ++ oneSequence b

/-- The state in which LZ4D c0, s1 stands at the first sequence of that block: slot 0 holds it, cursor 0
is bound to it, slot 1 is FREE (R203). -/
def placeSequence (b : Byte) (s : State) : State :=
  { ({ s with cursors := s.cursors.set 0 (.bound 0 0) }.setSlot 0 (.alloc (oneSequenceBlock b))).setSlot 1
      .free with
    lz4 := some (lz4Entry 0 1 0 (BitVec.ofNat 32 (oneSequence b).length)
      (BitVec.ofNat 32 (bits b.toNat 7 4)) 12) }

/-- Put a code where the next step fetches: a packet at the head of the inbox, with no block in
progress; a token as the next sequence of a block in progress. -/
def placeCode (c : Code) (s : State) : State :=
  match c with
  | .packet p => { s with inbox := .packet p :: s.inbox, lz4 := none }
  | .token b => placeSequence b s

end Sys2Proof.Machine
end

