-- ==== Sys2Proof/Machine/Step.lean ====
section
/-! DEFINITION. One step of the machine: fetch, then execute (R120, R316). -/

namespace Sys2Proof.Machine

/-- One step: one command, one reset event, or, in a state with a block in progress, one sequence. -/
def step (s : State) : Host.Outcome State Fault Refusal :=
  match fetch s with
  | .idle => .next s
  | .externalReset t => .next (resetEngine t)
  | .instr i t => exec i t
  | .rejected e t => rejectPacket e t
  | .blockEnd c t => .next (lz4Finish c t)
  | .missingToken t => .next (takeFault .bufferUnderrun t)

/-- `s` with the instruction whose bits are `w` placed where the next step fetches it (log 3). -/
def State.withFetchWord (s : State) (nbits w : Nat) : State := placeCode (codeOfTableWord nbits w) s

end Sys2Proof.Machine
end

