-- ==== Sys2Proof/Machine/Assembler.lean ====
section
/-! DEFINITION. Assembler text and pseudo-instructions (R107, R108 of spec/30_encoding.md). -/

namespace Sys2Proof.Machine

/-- The mnemonic of an instruction (R84; the row LZ4.SEQ of the opcode table). -/
def mnemonic : Instr → String
  | .reset => "RESET"
  | .bload _ _ _ => "BLOAD"
  | .bfree _ => "BFREE"
  | .cbind _ _ => "CBIND"
  | .clone _ _ => "CLONE"
  | .seek _ _ => "SEEK"
  | .adv _ _ => "ADV"
  | .rem _ => "REM"
  | .rdu8 _ _ => "RDU8"
  | .rdu16le _ _ => "RDU16LE"
  | .rdu16be _ _ => "RDU16BE"
  | .rdu32le _ _ => "RDU32LE"
  | .rdu32be _ _ => "RDU32BE"
  | .rdi8 _ _ => "RDI8"
  | .rdi16le _ _ => "RDI16LE"
  | .rdi16be _ _ => "RDI16BE"
  | .rdi32le _ _ => "RDI32LE"
  | .rdi32be _ _ => "RDI32BE"
  | .rdf32le _ _ => "RDF32LE"
  | .rdf32be _ _ => "RDF32BE"
  | .rdf64le _ _ => "RDF64LE"
  | .rdf64be _ _ => "RDF64BE"
  | .rdvfle _ _ => "RDVFLE"
  | .rdvfbe _ _ => "RDVFBE"
  | .rdstr _ _ _ => "RDSTR"
  | .rdspan _ _ _ => "RDSPAN"
  | .matchb _ _ _ _ => "MATCH"
  | .lz4d _ _ => "LZ4D"
  | .ilv _ _ _ => "ILV"
  | .ilv32 _ _ => "ILV32"
  | .ilv32i _ _ => "ILV32I"
  | .ilv32f _ _ => "ILV32F"
  | .lz4seq _ _ => "LZ4.SEQ"

/-- The peek bit of an instruction, `false` where it has none. -/
def peekBit : Instr → Bool
  | .rdu8 _ p | .rdu16le _ p | .rdu16be _ p | .rdu32le _ p | .rdu32be _ p | .rdi8 _ p
  | .rdi16le _ p | .rdi16be _ p | .rdi32le _ p | .rdi32be _ p | .rdf32le _ p | .rdf32be _ p
  | .rdf64le _ p | .rdf64be _ p | .rdvfle _ p | .rdvfbe _ p | .rdstr _ p _ | .rdspan _ p _
  | .matchb _ p _ _ => p
  | _ => false

/-- The pseudo-instruction `PEEK <read command>`: the read command with `P` = 1 (R108); none for an
instruction that takes no peek modifier (R85). -/
def pseudoPeek : Instr → Option Instr
  | .rdu8 k _ => some (.rdu8 k true)
  | .rdu16le k _ => some (.rdu16le k true)
  | .rdu16be k _ => some (.rdu16be k true)
  | .rdu32le k _ => some (.rdu32le k true)
  | .rdu32be k _ => some (.rdu32be k true)
  | .rdi8 k _ => some (.rdi8 k true)
  | .rdi16le k _ => some (.rdi16le k true)
  | .rdi16be k _ => some (.rdi16be k true)
  | .rdi32le k _ => some (.rdi32le k true)
  | .rdi32be k _ => some (.rdi32be k true)
  | .rdf32le k _ => some (.rdf32le k true)
  | .rdf32be k _ => some (.rdf32be k true)
  | .rdf64le k _ => some (.rdf64le k true)
  | .rdf64be k _ => some (.rdf64be k true)
  | .rdvfle k _ => some (.rdvfle k true)
  | .rdvfbe k _ => some (.rdvfbe k true)
  | .rdstr k _ n => some (.rdstr k true n)
  | .rdspan k _ n => some (.rdspan k true n)
  | .matchb k _ n pat => some (.matchb k true n pat)
  | _ => none

/-- `ILVA c<k>, #bc, #w`: `ILV` followed by `ADV c<k>, #bc` (R108), legal for bc below 2^31. -/
def pseudoIlva (k : Fin 16) (bc w : Word) : List Instr := [.ilv k bc w, .adv k bc]

/-- `SKIP c<k>, #n` is `ADV c<k>, #n` (R108). -/
def pseudoSkip (k : Fin 16) (n : Word) : Instr := .adv k n

/-- A cursor operand. -/
def asmCursor (k : Fin 16) : String := "c" ++ toString k.val

/-- A slot operand. -/
def asmSlot (d : Fin 16) : String := "s" ++ toString d.val

/-- An operand word in decimal. -/
def asmWord (n : Word) : String := "#" ++ toString n.toNat

/-- One hexadecimal digit. -/
def hexDigit (n : Nat) : Char := if n < 10 then Char.ofNat (48 + n) else Char.ofNat (55 + n)

/-- A byte in two hexadecimal digits. -/
def hexByte (b : Byte) : String := String.ofList [hexDigit (bits b.toNat 7 4), hexDigit (bits b.toNat 3 0)]

/-- A payload in braces, its bytes separated by blanks (R107). The braces are characters 123 and 125. -/
def asmPayload (pl : List Byte) : String :=
  String.singleton (Char.ofNat 123) ++ String.intercalate " " (pl.map hexByte) ++
    String.singleton (Char.ofNat 125)

/-- The operands of an instruction in the order of R107: cursor, destination, A0, A1, payload. A
sequence is written by its token byte. -/
def operandTexts : Instr → List String
  | .reset => []
  | .bload d n pl => [asmSlot d, asmWord n, asmPayload pl]
  | .bfree d => [asmSlot d]
  | .cbind k d => [asmCursor k, asmSlot d]
  | .clone k d => [asmCursor k, asmCursor d]
  | .seek k n => [asmCursor k, asmWord n]
  | .adv k n => [asmCursor k, "#" ++ toString n.toInt]
  | .rdstr k _ n | .rdspan k _ n => [asmCursor k, asmWord n]
  | .matchb k _ n pat => [asmCursor k, asmWord n, asmPayload pat]
  | .lz4d k d => [asmCursor k, asmSlot d]
  | .ilv k bc w => [asmCursor k, asmWord bc, asmWord w]
  | .ilv32 k c | .ilv32i k c | .ilv32f k c => [asmCursor k, asmWord c]
  | .lz4seq l m => [hexByte (BitVec.ofNat 8 (16 * l.val + m.val))]
  | .rem k | .rdu8 k _ | .rdu16le k _ | .rdu16be k _ | .rdu32le k _ | .rdu32be k _ | .rdi8 k _
  | .rdi16le k _ | .rdi16be k _ | .rdi32le k _ | .rdi32be k _ | .rdf32le k _ | .rdf32be k _
  | .rdf64le k _ | .rdf64be k _ | .rdvfle k _ | .rdvfbe k _ => [asmCursor k]

/-- `MNEMONIC[.P] operands` (R107). -/
def assemble (i : Instr) : String :=
  let name := mnemonic i ++ (if peekBit i then ".P" else "")
  match operandTexts i with
  | [] => name
  | ops => name ++ " " ++ String.intercalate ", " ops

end Sys2Proof.Machine
end

