-- ==== Sys2Proof/Machine/BlockFormat.lean ====
section
/-! DEFINITION. The compressed block of R90 to R96 as data: its sequences, the bytes they are written
as, and the output they stand for. Claims about LZ4D are stated against it; the engine does not use it. -/

namespace Sys2Proof.Machine

/-- A sequence with a match (R90): literals, offset, and match length (R94). -/
structure Sequence where
  lits : List Byte
  off : Nat
  ml : Nat
deriving DecidableEq, Repr

/-- The 4-bit length field of a length (R92). -/
def lengthNibble (n : Nat) : Nat := min n 15

/-- The extension bytes of a length of 15 or more (R92): bytes of 255, then one below 255. -/
def lengthExtension (n : Nat) : List Byte :=
  if n < 15 then [] else List.replicate ((n - 15) / 255) 255 ++ [BitVec.ofNat 8 ((n - 15) % 255)]

/-- The token of the two length fields (R91). -/
def tokenByte (l m : Nat) : Byte := BitVec.ofNat 8 (16 * lengthNibble l + lengthNibble m)

/-- How many bytes of a sequence come before its offset: token, extension bytes, literals (R90). -/
def Sequence.runLength (q : Sequence) : Nat := 1 + (lengthExtension q.lits.length).length + q.lits.length

/-- The bytes of a sequence with a match, in the order of R90. -/
def Sequence.bytes (q : Sequence) : List Byte :=
  tokenByte q.lits.length (q.ml - 4) ::
    (lengthExtension q.lits.length ++ q.lits ++ [BitVec.ofNat 8 q.off, BitVec.ofNat 8 (q.off / 256)] ++
      lengthExtension (q.ml - 4))

/-- The bytes of the last sequence of a block: no offset and no match (R95). Its low nibble is ignored;
here it is `m`. -/
def lastBytes (lits : List Byte) (m : Nat) : List Byte :=
  tokenByte lits.length m :: (lengthExtension lits.length ++ lits)

/-- How a block ends (R95): with a last sequence of literals, its ignored low nibble made of `m`, or right
after the match of the sequence before. -/
inductive BlockTail where
  | literals (lits : List Byte) (m : Nat)
  | afterMatch
deriving DecidableEq, Repr

/-- The bytes of a block's end; none where it ends with a match. -/
def BlockTail.bytes : BlockTail → List Byte
  | .literals lits m => lastBytes lits m
  | .afterMatch => []

/-- The literals of a block's end; none where it ends with a match. -/
def BlockTail.lits : BlockTail → List Byte
  | .literals lits _ => lits
  | .afterMatch => []

/-- The payload of a block. It is empty only for no sequence and the tail `afterMatch`, which is no
compressed block: a header with clen = 0 is the raw path (R202). -/
def blockBytes (qs : List Sequence) (tail : BlockTail) : List Byte :=
  qs.flatMap Sequence.bytes ++ tail.bytes

/-- `out` extended by a match of length `ml` at distance `off` is `mid`: the bytes of `out` stay, and
each new byte equals the byte `off` before it (R211). -/
structure MatchExtends (out : List Byte) (off ml : Nat) (mid : List Byte) : Prop where
  length : mid.length = out.length + ml
  keeps : ∀ i, i < out.length → mid[i]? = out[i]?
  repeats : ∀ t, t < ml → mid[out.length + t]? = mid[out.length + t - off]?

/-- The offset and match length of a sequence are legal after `op` output bytes (R93, R94, R211). -/
structure Sequence.Legal (q : Sequence) (op : Nat) : Prop where
  offPos : 0 < q.off
  offOut : q.off ≤ op
  offWidth : q.off < 65536
  minMatch : 4 ≤ q.ml

/-- From the output `out` the sequences `qs` and the literals of the block's end lead to the output `final`. -/
def Expands : List Byte → List Sequence → List Byte → List Byte → Prop
  | out, [], lits, final => final = out ++ lits
  | out, q :: qs, lits, final =>
    q.Legal (out ++ q.lits).length ∧
      ∃ mid, MatchExtends (out ++ q.lits) q.off q.ml mid ∧ Expands mid qs lits final

/-- A block header (R88): `clen`, `dlen`, four reserved bytes of any value (R89). -/
def headerBytes (clen dlen : Nat) (r0 r1 r2 r3 : Byte) : List Byte :=
  [BitVec.ofNat 8 clen, BitVec.ofNat 8 (clen / 256), BitVec.ofNat 8 (clen / 65536),
   BitVec.ofNat 8 (clen / 16777216),
   BitVec.ofNat 8 dlen, BitVec.ofNat 8 (dlen / 256), BitVec.ofNat 8 (dlen / 65536),
   BitVec.ofNat 8 (dlen / 16777216), r0, r1, r2, r3]

end Sys2Proof.Machine
end

