-- ==== Sys2Proof/Machine/Flags.lean ====
section
/-! DEFINITION. Flags: the engine has none ("There are no condition codes, carry, overflow or
predicate flags", R28). Its only status is the register STATUS; this file gives its numbers. -/

namespace Sys2Proof.Machine

/-- The code of a fault kind (R28, R261 to R264). -/
def FaultKind.code : FaultKind → BitVec 3
  | .bufferUnderrun => 1
  | .malformedStream => 2
  | .invalidGeometry => 3
  | .illegalCommand => 4

/-- The 3-bit value of STATUS the host reads (R28). -/
def Status.code : Status → BitVec 3
  | .ok => 0
  | .faulted k => k.code

/-- What the host reads as STATUS (R35). -/
def State.hostStatus (s : State) : BitVec 3 := s.status.code

end Sys2Proof.Machine
end

