-- ==== Sys2Proof/Machine/View.lean ====
section
/-! DEFINITION. What the host reads between commands (R29, R35): STATUS, RES and its delivered floats,
the bytes a span denotes (R191, R306), the text of a string result (R190). No rule of the engine reads
any of this. -/

namespace Sys2Proof.Machine

/-- The bytes a descriptor `Span(s, a, n)` denotes: `MemRead(s, a, n)` while slot s is ALLOC and holds
them; nothing once it is FREE (R191, R306, U4). -/
def State.spanBytes (s : State) (slot a n : Nat) : Option (List Byte) :=
  match s.bufAt slot with
  | some b => if a + n ≤ b.length then some (memRead b a n) else none
  | none => none

/-- The bytes RES denotes to the host, for the two forms that are bytes (R29). -/
def State.resBytes (s : State) : Option (List Byte) :=
  match s.res with
  | .bytes b => some b
  | .span i a n => s.spanBytes i a n
  | _ => none

/-- The text of a string result: the host applies `TEXT_ENCODING` to the delivered bytes (R190, U5). -/
def State.resText (s : State) : Option String :=
  match s.res with
  | .bytes b => some (Config.textEncoding b)
  | _ => none

/-- The engine is Faulted (R269). -/
def State.isFaulted (s : State) : Bool := decide (s.status ≠ .ok)

end Sys2Proof.Machine
end

