-- ==== Sys2Proof/Safety.lean ====
section
/-! DEFINITION. What claims are stated in: the well-formed states, the canonical form of the memory,
the situation a read command works in, and what counts as a safe run. -/

namespace Sys2Proof.Machine

/-- A slot holds at most `MAXLEN` bytes (R22). -/
def Slot.wf : Slot → Bool
  | .free => true
  | .alloc b => decide (b.length ≤ Config.maxLen)

/-- The canonical form of the memory. The spec gives the machine NBUF slots, each its own address space
(R22, R50): a slot's content IS its byte string, so equal memories are equal data; what is to be kept
is that the slots number 2 to 16 (R7) and none is longer than `MAXLEN`. -/
def Memory.wf (slots : List Slot) : Bool :=
  decide (Config.nbufMin ≤ slots.length) && decide (slots.length ≤ Config.nbufMax) && slots.all Slot.wf

/-- The memory of a slot as (address, byte) pairs, addresses rising from 0; an address that is not
listed does not exist (R50). -/
def Slot.cells : Slot → List Host.Cell
  | .free => []
  | .alloc b => b.zipIdx.map (fun x => (x.2, x.1))

/-- A slot is ALLOC (R22). -/
def Slot.isAlloc : Slot → Bool
  | .free => false
  | .alloc _ => true

/-- A bound cursor names an ALLOC slot (R24). -/
def Cursor.wf (slots : List Slot) : Cursor → Bool
  | .unbound => true
  | .bound b _ => (slots[b]?.map Slot.isAlloc).getD false

/-- `fin q` is used for nonzero rationals only (R160). -/
def FVal.wf : FVal → Bool
  | .fin q => decide (q ≠ 0)
  | _ => true

/-- The payload of RES is in the range its form states (R29). -/
def Res.wf : Res → Bool
  | .float f => f.wf
  | .floats fs => fs.all FVal.wf
  | .ints vs => vs.all (fun v => decide (-2 ^ 31 ≤ v) && decide (v < 2 ^ 31))
  | _ => true

/-- A block in progress is sound: its source slot is ALLOC and holds the block (R203), a sequence is
still due (R204), the output has not passed `dlen` (R207, R211), its destination slot is FREE (R200),
its cursor is bound to the source (R213), and no more sequences are due than `clen` allows (R218). -/
structure Lz4.Wf (s : State) (c : Lz4) : Prop where
  source : ∃ buf, s.bufAt c.src = some buf ∧ c.blockEnd ≤ buf.length
  due : c.ip < c.blockEnd
  output : c.op ≤ c.dlen.toNat
  destination : s.slots[c.d.val]? = some .free
  cursor : ∃ p, s.cursors[c.k.val]? = some (.bound c.src p)
  fuel : c.blockEnd ≤ c.ip + c.clen.toNat

/-- The invariant of the engine: the memory's canonical form (R7, R22), 1 to 16 cursors (R7), every
bound cursor naming an ALLOC slot (R24), RES None and nothing in progress while Faulted (R268), RES in
its stated ranges (R29, R160), one delivered pattern for each float of RES (R167), and a sound block
where one is in progress (R31). -/
structure EngineInv (s : State) : Prop where
  memory : Memory.wf s.slots = true
  cursorCount : Config.ncurMin ≤ s.cursors.length ∧ s.cursors.length ≤ Config.ncurMax
  cursors : ∀ c ∈ s.cursors, Cursor.wf s.slots c = true
  faulted : s.status ≠ .ok → s.res = .none ∧ s.lz4 = none
  result : s.res.wf = true
  delivery : s.delivered.length = s.res.floatList.length
  block : ∀ c, s.lz4 = some c → Lz4.Wf s c

/-- The situation of a command that works on cursor k: not Faulted, k bound to slot b at position p, and
slot b ALLOC with content `buf`. -/
structure Ready (s : State) (k : Fin 16) (b : Nat) (p : Int) (buf : List Byte) : Prop where
  ok : s.status = .ok
  cursor : s.cursors[k.val]? = some (.bound b p)
  slot : s.slots[b]? = some (.alloc buf)

/-- The cursor a command reads and that must be bound: all but RESET, BLOAD, BFREE, CBIND (R264). -/
def readsCursor : Instr → Option (Fin 16)
  | .reset | .bload _ _ _ | .bfree _ | .cbind _ _ | .lz4seq _ _ => none
  | .clone k _ | .seek k _ | .adv k _ | .rem k | .lz4d k _ => some k
  | .rdu8 k _ | .rdu16le k _ | .rdu16be k _ | .rdu32le k _ | .rdu32be k _ => some k
  | .rdi8 k _ | .rdi16le k _ | .rdi16be k _ | .rdi32le k _ | .rdi32be k _ => some k
  | .rdf32le k _ | .rdf32be k _ | .rdf64le k _ | .rdf64be k _ | .rdvfle k _ | .rdvfbe k _ => some k
  | .rdstr k _ _ | .rdspan k _ _ | .matchb k _ _ _ => some k
  | .ilv k _ _ | .ilv32 k _ | .ilv32i k _ | .ilv32f k _ => some k

/-- An LZ4 sequence, as against a command of the host. -/
def isSequence : Instr → Bool
  | .lz4seq _ _ => true
  | _ => false

/-- How many bytes a read command consumes (R58); none for the other instructions. -/
def readWidth : Instr → Option Nat
  | .rdu8 _ _ | .rdi8 _ _ => some 1
  | .rdu16le _ _ | .rdu16be _ _ | .rdi16le _ _ | .rdi16be _ _ => some 2
  | .rdu32le _ _ | .rdu32be _ _ | .rdi32le _ _ | .rdi32be _ _ => some 4
  | .rdf32le _ _ | .rdf32be _ _ | .rdvfle _ _ | .rdvfbe _ _ => some 4
  | .rdf64le _ _ | .rdf64be _ _ => some 8
  | .rdstr _ _ n | .rdspan _ _ n | .matchb _ _ n _ => some n.toNat
  | _ => none

/-- The state with a fault taken, written out (R268). -/
def faultedWith (s : State) (kind : FaultKind) : State :=
  { s with status := .faulted kind, res := .none, delivered := [], lz4 := none }

/-- The state after a command that writes `RES` with a value that is no float, written out (R29). -/
def withResult (s : State) (r : Res) : State := { s with res := r, delivered := [] }

/-- A safe run: `n` steps that neither stop nor leave the engine Faulted. -/
def SafeRun (n : Nat) (s : State) : Prop :=
  ∃ t, Host.Core.run Sys2Proof.core n s = .next t ∧ t.status = .ok

end Sys2Proof.Machine
end

