-- ==== Sys2Proof/Certificates/Slice0/Obligations.lean ====
section
/-! DEFINITION. The statements about the engine. Where a statement says `Ready s k b p buf`, the engine is
not Faulted, cursor k is bound to slot b at position p and slot b holds `buf`. `faultedWith s kind` is s
with STATUS and RES (and nothing else a program can see) changed; `withResult s r` is s with RES written. -/

open Sys2Proof Sys2Proof.Machine

/-! ### Encodings -/

/-- Decode after encode is the identity on every well-formed instruction, for every NBUF and NCUR. -/
def Obligations.DecodeOfEncode : Prop :=
  ∀ (nbuf ncur : Nat) (i : Instr), i.wf nbuf ncur = true → decodeCode nbuf ncur (encode i) = .ok i

/-- Encode after decode is the identity: a legal packet is well formed and is the only packet of its
instruction, and a token byte the only one of its sequence. -/
def Obligations.EncodeOfDecode : Prop :=
  (∀ (nbuf ncur : Nat) (p : Packet) (i : Instr), decode nbuf ncur p = .ok i →
    i.wf nbuf ncur = true ∧ encode i = .packet p) ∧
  (∀ b : Byte, encode (decodeSeq b) = .token b)

/-- R87, with the fields of R81 and the table of R84: which packets are illegal encodings, exactly. The
lists are the opcodes of R84 by what they use. A packet rejected for its payload's length alone is no
illegal encoding (R83). -/
def Obligations.IllegalEncodingsExactly : Prop :=
  ∀ (nbuf ncur : Nat) (p : Packet),
    let cw : Nat := p.cw.toNat
    let opc : Nat := cw % 256
    let k : Nat := cw / 2 ^ 12 % 16
    let d : Nat := cw / 2 ^ 16 % 16
    let reads := [0x10, 0x11, 0x12, 0x13, 0x14, 0x18, 0x19, 0x1A, 0x1B, 0x1C, 0x20, 0x21, 0x22, 0x23,
      0x24, 0x25, 0x30, 0x31, 0x32]
    let usesK := [0x04, 0x05, 0x06, 0x07, 0x08, 0x40, 0x50, 0x51, 0x52, 0x53] ++ reads
    let usesSlot := [0x02, 0x03, 0x04, 0x40]
    let usesA0 := [0x02, 0x06, 0x07, 0x30, 0x31, 0x32, 0x50, 0x51, 0x52, 0x53]
    (∃ e, decode nbuf ncur p = .error e ∧ e ≠ .payloadLength) ↔
      (opc ∉ [0x01, 0x02, 0x03] ++ usesK) ∨
      (cw / 2 ^ 9 % 8 ≠ 0 ∨ cw / 2 ^ 20 ≠ 0) ∨
      (cw / 2 ^ 8 % 2 = 1 ∧ opc ∉ reads) ∨
      (k ≠ 0 ∧ opc ∉ usesK) ∨ (d ≠ 0 ∧ opc ∉ 0x05 :: usesSlot) ∨
      (p.a0 ≠ 0 ∧ opc ∉ usesA0) ∨ (p.a1 ≠ 0 ∧ opc ≠ 0x50) ∨
      (opc ∈ usesK ∧ ncur ≤ k) ∨ (opc ∈ usesSlot ∧ nbuf ≤ d) ∨ (opc = 0x05 ∧ ncur ≤ d)

/-- Words written out from R81, R84 and R91 decode to what they stand for, one at least for each family:
session, position, integer, float and byte reads, block, interleave, sequence. -/
def Obligations.SpecWordsDecode : Prop :=
  decode 4 4 ⟨0x00000001, 0, 0, []⟩ = .ok .reset ∧
  decode 4 4 ⟨0x00021005, 0, 0, []⟩ = .ok (.clone 1 2) ∧
  decode 4 4 ⟨0x00000007, 0xFFFFFFFF, 0, []⟩ = .ok (.adv 0 0xFFFFFFFF) ∧
  decode 4 4 ⟨0x00001113, 0, 0, []⟩ = .ok (.rdu32le 1 true) ∧
  decode 4 4 ⟨0x00003022, 0, 0, []⟩ = .ok (.rdf64le 3 false) ∧
  decode 4 4 ⟨0x00000132, 2, 0, [0x3C, 0x72]⟩ = .ok (.matchb 0 true 2 [0x3C, 0x72]) ∧
  decode 4 4 ⟨0x00010040, 0, 0, []⟩ = .ok (.lz4d 0 1) ∧
  decode 4 4 ⟨0x00000050, 6, 2, []⟩ = .ok (.ilv 0 6 2) ∧
  decode 4 4 ⟨0x00000053, 3, 0, []⟩ = .ok (.ilv32f 0 3) ∧
  decodeSeq 0x32 = .lz4seq 3 2

/-! ### The step -/

/-- With no block in progress the step takes the host's next packet and runs the instruction it decodes
to. -/
def Obligations.StepRunsDecodedPacket : Prop :=
  ∀ (s : State) (p : Packet) (rest : List HostInput) (i : Instr),
    s.lz4 = none → s.inbox = .packet p :: rest →
    decode s.slots.length s.cursors.length p = .ok i →
    step s = exec i { s with inbox := rest }

/-- With a block in progress the step runs the sequence whose token stands at `ip`, the high nibble the
literal length and the low nibble the match length. That a step is one sequence in such a state is the
model's choice (log 2), the finer grain R316 allows; for the host LZ4D is one step (R20, R277). -/
def Obligations.StepRunsNextSequence : Prop :=
  ∀ (s : State) (c : Lz4) (l m : Fin 16),
    s.lz4 = some c → c.ip < c.blockEnd →
    s.byteOf c.src c.ip = some (BitVec.ofNat 8 (16 * l.val + m.val)) →
    step s = exec (.lz4seq l m) s

/-- Executing an illegal packet (R120 step 2, R87): outside the faulted state it raises IllegalCommand. -/
def Obligations.IllegalPacketRaises : Prop :=
  ∀ (s : State) (p : Packet) (rest : List HostInput) (e : Illegal),
    s.lz4 = none → s.inbox = .packet p :: rest → s.status = .ok →
    decode s.slots.length s.cursors.length p = .error e → e ≠ .payloadLength →
    step s = .next (faultedWith { s with inbox := rest } .illegalCommand)

/-- The external reset gives the reset state, whatever the state was; with nothing to do the engine
holds its state. The host's other inputs and the draw counter, the model's own fields, stay (logs 3, 5). -/
def Obligations.ExternalResetAndIdle : Prop :=
  (∀ (s : State) (rest : List HostInput), s.lz4 = none → s.inbox = .reset :: rest →
    step s = .next { resetWith s.slots.length s.cursors.length with inbox := rest, draws := s.draws }) ∧
  (∀ s : State, s.lz4 = none → s.inbox = [] → step s = .next s)

/-- R269: in the faulted state every command but RESET leaves the whole state as it is, and so does every
packet, legal or not, that is not a legal RESET packet. -/
def Obligations.FaultedIgnoresAllButReset : Prop :=
  (∀ (i : Instr) (s : State), s.status ≠ .ok → i ≠ .reset → isSequence i = false →
    exec i s = .next s) ∧
  (∀ (s : State) (p : Packet) (rest : List HostInput),
    s.status ≠ .ok → s.lz4 = none → s.inbox = .packet p :: rest →
    decode s.slots.length s.cursors.length p ≠ .ok .reset →
    step s = .next { s with inbox := rest })

/-- R268, over all commands: when one ends Faulted, the state differs from the one before it in STATUS
and RES alone: no slot, no cursor; the ephemeral state is gone. -/
def Obligations.FaultsArePrecise : Prop :=
  ∀ (i : Instr) (s t : State) (kind : FaultKind),
    isSequence i = false → s.status = .ok → exec i s = .next t → t.status = .faulted kind →
    t = faultedWith s kind

/-- R262, R263: MalformedStream comes from LZ4D (or its sequences) alone, InvalidGeometry from ILV alone. -/
def Obligations.FaultKindsByCommand : Prop :=
  ∀ (i : Instr) (s t : State), s.status = .ok → exec i s = .next t →
    (t.status = .faulted .malformedStream → (∃ k d, i = .lz4d k d) ∨ isSequence i = true) ∧
    (t.status = .faulted .invalidGeometry → ∃ k bc w, i = .ilv k bc w)

/-- Every command answers a next state, success or fault, and so does a sequence of a block in progress. -/
def Obligations.CommandsAlwaysEnd : Prop :=
  (∀ (i : Instr) (s : State), isSequence i = false → i.payloadOk = true → ∃ t, exec i s = .next t) ∧
  (∀ (l m : Fin 16) (c : Lz4) (s : State), s.lz4 = some c → ∃ t, exec (.lz4seq l m) s = .next t)

/-- The ephemeral state of LZ4D does not outlive its command (R31, R36). -/
def Obligations.BlockStateIsEphemeral : Prop :=
  ∀ (i : Instr) (s t : State), s.lz4 = none → exec i s = .next t → t.lz4 = none

/-! ### Reset -/

/-- R121: RESET, in every state, Faulted or not, frees every slot, unbinds every cursor, clears STATUS
and RES: the reset state of the same engine. The host's inputs and the draw counter, the model's own
fields, stay (logs 3, 5). -/
def Obligations.ResetGivesResetState : Prop :=
  ∀ s : State, exec .reset s =
    .next { resetWith s.slots.length s.cursors.length with inbox := s.inbox, draws := s.draws }

/-- R36: the values after reset, for every NBUF and NCUR. -/
def Obligations.ResetValues : Prop :=
  ∀ nbuf ncur : Nat,
    ((resetWith nbuf ncur).slots.length = nbuf ∧ ∀ x ∈ (resetWith nbuf ncur).slots, x = .free) ∧
    ((resetWith nbuf ncur).cursors.length = ncur ∧ ∀ x ∈ (resetWith nbuf ncur).cursors, x = .unbound) ∧
    (resetWith nbuf ncur).hostStatus = 0 ∧ (resetWith nbuf ncur).res = .none ∧
    (resetWith nbuf ncur).lz4 = none

/-! ### Session and position commands -/

/-- BLOAD, BFREE, CBIND, CLONE take effect: the next state in full (R122 to R125). -/
def Obligations.SessionCommandsTakeEffect : Prop :=
  (∀ (s : State) (d : Fin 16) (n : Word) (pl : List Byte),
    s.status = .ok → pl.length = n.toNat → s.slots[d.val]? = some .free →
    exec (.bload d n pl) s = .next (withResult { s with slots := s.slots.set d.val (.alloc pl) } .unit)) ∧
  (∀ (s : State) (d : Fin 16) (b : List Byte),
    s.status = .ok → s.slots[d.val]? = some (.alloc b) →
    ∃ t, exec (.bfree d) s = .next t ∧
      t = withResult { s with slots := s.slots.set d.val .free, cursors := t.cursors } .unit ∧
      t.cursors.length = s.cursors.length ∧
      ∀ (k : Nat) (c : Cursor), s.cursors[k]? = some c →
        t.cursors[k]? = some (match c with
          | .unbound => .unbound
          | .bound i p => if i = d.val then .unbound else .bound i p)) ∧
  (∀ (s : State) (k d : Fin 16) (b : List Byte),
    s.status = .ok → s.slots[d.val]? = some (.alloc b) → k.val < s.cursors.length →
    exec (.cbind k d) s =
      .next (withResult { s with cursors := s.cursors.set k.val (.bound d.val 0) } .unit)) ∧
  (∀ (s : State) (k d : Fin 16) (i : Nat) (p : Int),
    s.status = .ok → s.cursors[k.val]? = some (.bound i p) → d.val < s.cursors.length →
    exec (.clone k d) s =
      .next (withResult { s with cursors := s.cursors.set d.val (.bound i p) } .unit))

/-- A slot in the wrong state is IllegalCommand (R264): BLOAD and LZ4D on a destination that is not FREE,
BFREE and CBIND on a slot that is not ALLOC. -/
def Obligations.WrongSlotStateIsIllegal : Prop :=
  ∀ (s : State) (d : Fin 16), s.status = .ok →
    (∀ b, s.slots[d.val]? = some (.alloc b) →
      (∀ (n : Word) (pl : List Byte), pl.length = n.toNat →
        exec (.bload d n pl) s = .next (faultedWith s .illegalCommand)) ∧
      (∀ k : Fin 16, exec (.lz4d k d) s = .next (faultedWith s .illegalCommand))) ∧
    (s.slots[d.val]? = some .free →
      exec (.bfree d) s = .next (faultedWith s .illegalCommand) ∧
      (∀ k : Fin 16, exec (.cbind k d) s = .next (faultedWith s .illegalCommand)))

/-- A command that reads an UNBOUND cursor is IllegalCommand (R264, R37). -/
def Obligations.UnboundCursorIsIllegal : Prop :=
  ∀ (i : Instr) (s : State) (k : Fin 16),
    readsCursor i = some k → i.payloadOk = true → s.status = .ok →
    s.cursors[k.val]? = some .unbound →
    exec i s = .next (faultedWith s .illegalCommand)

/-- The model's choice for a payload of the wrong length (log 4; U14 says `refuse`): BLOAD and MATCH stop
with the refusal `payloadLength`, but in the faulted state are ignored like any packet. -/
def Obligations.WrongPayloadIsRefused : Prop :=
  ∀ (s : State) (x k : Fin 16) (peek : Bool) (n : Word) (pl : List Byte), pl.length ≠ n.toNat →
    (s.status = .ok →
      exec (.bload x n pl) s = .refused .payloadLength ∧
      exec (.matchb k peek n pl) s = .refused .payloadLength) ∧
    (s.status ≠ .ok → exec (.bload x n pl) s = .next s ∧ exec (.matchb k peek n pl) s = .next s)

/-- SEEK, ADV, REM: the next state in full, for every position, inside the buffer or not (R126 to R128).
A0 is signed for ADV alone. -/
def Obligations.PositionCommandsTakeEffect : Prop :=
  (∀ (s : State) (k : Fin 16) (n : Word) (i : Nat) (p : Int),
    s.status = .ok → s.cursors[k.val]? = some (.bound i p) →
    exec (.seek k n) s =
      .next (withResult { s with cursors := s.cursors.set k.val (.bound i n.toNat) } .unit) ∧
    let step : Int := if n.toNat < 2 ^ 31 then (n.toNat : Int) else n.toNat - 2 ^ 32
    exec (.adv k n) s =
      .next (withResult { s with cursors := s.cursors.set k.val (.bound i (p + step)) } .unit)) ∧
  (∀ (s : State) (k : Fin 16) (b : Nat) (p : Int) (buf : List Byte), Ready s k b p buf →
    exec (.rem k) s = .next (withResult s (.int (buf.length - p))))

/-! ### Reads in general -/

/-- The five unsigned reads, peek or not: the next state in full (R141 to R145, R129). Without peek the
position of cursor k has advanced by the width, with peek no cursor has moved; RES holds the value. -/
def Obligations.UnsignedReadsDeliver : Prop :=
  ∀ (s : State) (k : Fin 16) (b p : Nat) (buf : List Byte) (peek : Bool), Ready s k b p buf →
    let after (n : Nat) (v : Nat) : Host.Outcome State Fault Refusal :=
      .next (withResult { s with cursors :=
        if peek then s.cursors else s.cursors.set k.val (.bound b (p + n : Nat)) } (.int v))
    (∀ b0, buf[p]? = some b0 → exec (.rdu8 k peek) s = after 1 b0.toNat) ∧
    (∀ b0 b1, buf[p]? = some b0 → buf[p + 1]? = some b1 →
      exec (.rdu16le k peek) s = after 2 (b0.toNat + 2 ^ 8 * b1.toNat) ∧
      exec (.rdu16be k peek) s = after 2 (2 ^ 8 * b0.toNat + b1.toNat)) ∧
    (∀ b0 b1 b2 b3, buf[p]? = some b0 → buf[p + 1]? = some b1 → buf[p + 2]? = some b2 →
      buf[p + 3]? = some b3 →
      exec (.rdu32le k peek) s =
        after 4 (b0.toNat + 2 ^ 8 * b1.toNat + 2 ^ 16 * b2.toNat + 2 ^ 24 * b3.toNat) ∧
      exec (.rdu32be k peek) s =
        after 4 (2 ^ 24 * b0.toNat + 2 ^ 16 * b1.toNat + 2 ^ 8 * b2.toNat + b3.toNat))

/-- The five signed reads: the two's-complement value of the same bit string (R146 to R150). -/
def Obligations.SignedReadsDeliver : Prop :=
  ∀ (s : State) (k : Fin 16) (b p : Nat) (buf : List Byte) (peek : Bool), Ready s k b p buf →
    let after (n u : Nat) : Host.Outcome State Fault Refusal :=
      .next (withResult { s with cursors :=
        if peek then s.cursors else s.cursors.set k.val (.bound b (p + n : Nat)) }
        (.int (if u < 2 ^ (8 * n - 1) then (u : Int) else u - 2 ^ (8 * n))))
    (∀ b0, buf[p]? = some b0 → exec (.rdi8 k peek) s = after 1 b0.toNat) ∧
    (∀ b0 b1, buf[p]? = some b0 → buf[p + 1]? = some b1 →
      exec (.rdi16le k peek) s = after 2 (b0.toNat + 2 ^ 8 * b1.toNat) ∧
      exec (.rdi16be k peek) s = after 2 (2 ^ 8 * b0.toNat + b1.toNat)) ∧
    (∀ b0 b1 b2 b3, buf[p]? = some b0 → buf[p + 1]? = some b1 → buf[p + 2]? = some b2 →
      buf[p + 3]? = some b3 →
      exec (.rdi32le k peek) s =
        after 4 (b0.toNat + 2 ^ 8 * b1.toNat + 2 ^ 16 * b2.toNat + 2 ^ 24 * b3.toNat) ∧
      exec (.rdi32be k peek) s =
        after 4 (2 ^ 24 * b0.toNat + 2 ^ 16 * b1.toNat + 2 ^ 8 * b2.toNat + b3.toNat))

/-- The six float reads: the float function of the word or words the bytes make (R170 to R175, R55). The
clauses on `delivered` and `draws` (the pattern beside RES, and one more draw counted for a NaN) are the
model's choice (log 5): R167 and R168 give the pattern and its free bits, R34 has the draw as an input. -/
def Obligations.FloatReadsDeliver : Prop :=
  ∀ (s : State) (k : Fin 16) (b p : Nat) (buf : List Byte) (peek : Bool) (x : Nat → Byte),
    Ready s k b p buf →
    let after (n : Nat) (f : FVal) : Host.Outcome State Fault Refusal :=
      .next { s with
        cursors := if peek then s.cursors else s.cursors.set k.val (.bound b (p + n : Nat))
        res := .float f
        delivered := [deliver s.draws f]
        draws := if f = .nan then s.draws + 1 else s.draws }
    let leAt (i : Nat) : Word := BitVec.ofNat 32
      ((x i).toNat + 2 ^ 8 * (x (i + 1)).toNat + 2 ^ 16 * (x (i + 2)).toNat + 2 ^ 24 * (x (i + 3)).toNat)
    let beAt (i : Nat) : Word := BitVec.ofNat 32
      (2 ^ 24 * (x i).toNat + 2 ^ 16 * (x (i + 1)).toNat + 2 ^ 8 * (x (i + 2)).toNat + (x (i + 3)).toNat)
    ((∀ i, i < 4 → buf[p + i]? = some (x i)) →
      exec (.rdf32le k peek) s = after 4 (f32 (leAt 0)) ∧
      exec (.rdf32be k peek) s = after 4 (f32 (beAt 0)) ∧
      exec (.rdvfle k peek) s = after 4 (vf32 (leAt 0)) ∧
      exec (.rdvfbe k peek) s = after 4 (vf32 (beAt 0))) ∧
    ((∀ i, i < 8 → buf[p + i]? = some (x i)) →
      exec (.rdf64le k peek) s = after 8 (f64 (leAt 4) (leAt 0)) ∧
      exec (.rdf64be k peek) s = after 8 (f64 (beAt 0) (beAt 4)))

/-- RDSTR, RDSPAN, MATCH: the next state in full, for every length n, 0 included (R190 to R192). MATCH
advances whether or not the bytes matched. -/
def Obligations.ByteReadsDeliver : Prop :=
  ∀ (s : State) (k : Fin 16) (b p : Nat) (buf : List Byte) (peek : Bool) (n : Word),
    Ready s k b p buf → p + n.toNat ≤ buf.length →
    let after (r : Res) : Host.Outcome State Fault Refusal :=
      .next (withResult { s with cursors :=
        if peek then s.cursors else s.cursors.set k.val (.bound b (p + n.toNat : Nat)) } r)
    (∃ bs : List Byte, bs.length = n.toNat ∧ (∀ i, i < n.toNat → bs[i]? = buf[p + i]?) ∧
      exec (.rdstr k peek n) s = after (.bytes bs)) ∧
    exec (.rdspan k peek n) s = after (.span b p n.toNat) ∧
    (∀ pat : List Byte, pat.length = n.toNat →
      ∃ r : Bool, (r = true ↔ ∀ i, i < n.toNat → buf[p + i]? = pat[i]?) ∧
        exec (.matchb k peek n pat) s = after (.bool r))

/-- R61, R261: every read command whose span does not lie in the slot, an empty span at a position
outside it included, is BufferUnderrun and nothing moves. -/
def Obligations.ReadsOutsideTheSlotUnderrun : Prop :=
  ∀ (i : Instr) (s : State) (k : Fin 16) (n b : Nat) (p : Int) (buf : List Byte),
    readsCursor i = some k → readWidth i = some n → i.payloadOk = true → Ready s k b p buf →
    (p < 0 ∨ (buf.length : Int) < p + n) →
    exec i s = .next (faultedWith s .bufferUnderrun)

/-- R130: a peeking read gives the same RES as the plain read, leaves every cursor and slot unchanged,
and gives the same again. `pseudoPeek i` is i with P = 1 (R108). -/
def Obligations.PeekLaws : Prop :=
  ∀ (i j : Instr) (s t : State), pseudoPeek i = some j → s.status = .ok →
    exec i s = .next t → t.status = .ok →
    ∃ u v, exec j s = .next u ∧ u.res = t.res ∧ u.cursors = s.cursors ∧ u.slots = s.slots ∧
      u.status = .ok ∧ exec j u = .next v ∧ v.res = t.res ∧ v.cursors = s.cursors

/-- What no read and no interleave changes: slots (every byte of memory), every cursor but the one it
works on and that one's binding, the host's inputs, a block in progress (R51, R26, R52). -/
def Obligations.ReadCommandsFrame : Prop :=
  ∀ (i : Instr) (s t : State) (k : Fin 16),
    readsCursor i = some k → (readWidth i ≠ none ∨ (∃ n c, i = .ilv k n c) ∨ (∃ n, i = .ilv32 k n) ∨
      (∃ n, i = .ilv32i k n) ∨ (∃ n, i = .ilv32f k n)) →
    exec i s = .next t → t.status = .ok →
    (∀ j a, t.byteOf j a = s.byteOf j a) ∧ t.slots = s.slots ∧
    t.cursors.length = s.cursors.length ∧
    (∀ j, j ≠ k.val → t.cursors[j]? = s.cursors[j]?) ∧
    (∃ b p q, s.cursors[k.val]? = some (.bound b p) ∧ t.cursors[k.val]? = some (.bound b q)) ∧
    t.inbox = s.inbox ∧ t.lz4 = s.lz4 ∧ s.status = .ok

/-- R52, over all instructions: none changes a byte of an ALLOC slot or its length; only RESET and BFREE
of that slot end its being ALLOC (R121, R123). -/
def Obligations.AllocatedSlotsAreImmutable : Prop :=
  ∀ (i : Instr) (s t : State) (j : Nat) (buf : List Byte),
    EngineInv s → s.slots[j]? = some (.alloc buf) → exec i s = .next t →
    (t.slots[j]? = some (.alloc buf) ∧ ∀ a, t.byteOf j a = s.byteOf j a) ∨
    (t.slots[j]? = some .free ∧ (i = .reset ∨ ∃ d : Fin 16, d.val = j ∧ i = .bfree d))

/-- A span denotes its bytes as long as its slot is ALLOC, and nothing once it is FREE (R191, R306). The
result of RDSPAN, peek or not, denotes the n bytes at the position; the result of LZ4D the whole of its
destination slot; no instruction changes what any descriptor of an ALLOC slot denotes unless that slot is
ALLOC no longer; after BFREE of the slot, and after RESET, it denotes nothing (the host's view, log 10). -/
def Obligations.SpansDenoteUntilFreed : Prop :=
  (∀ (s t : State) (k d : Fin 16) (p : Nat) (buf : List Byte) (peek : Bool) (n : Word),
    Ready s k d.val p buf → exec (.rdspan k peek n) s = .next t → t.status = .ok →
    ∃ bs, t.resBytes = some bs ∧ t.spanBytes d.val p n.toNat = some bs ∧ bs.length = n.toNat ∧
      ∀ i, i < n.toNat → bs[i]? = buf[p + i]?) ∧
  (∀ (s t : State) (k d : Fin 16), s.status = .ok → exec (.lz4d k d) s = .next t → t.status = .ok →
    ∃ out, t.slots[d.val]? = some (.alloc out) ∧ t.resBytes = some out) ∧
  (∀ (i : Instr) (s t : State) (d a n : Nat) (buf buf' : List Byte),
    EngineInv s → s.slots[d]? = some (.alloc buf) → exec i s = .next t →
    t.slots[d]? = some (.alloc buf') → t.spanBytes d a n = s.spanBytes d a n) ∧
  (∀ (s t : State) (d : Fin 16) (a n : Nat), exec (.bfree d) s = .next t → t.status = .ok →
    t.spanBytes d.val a n = none) ∧
  (∀ (s t : State) (d a n : Nat), exec .reset s = .next t → t.spanBytes d a n = none)

/-! ### Integers -/

/-- R151: the LE reading of bytes is the BE reading of the reversed bytes. -/
def Obligations.ReversalSwapsByteOrder : Prop := ∀ b : List Byte, le b = be b.reverse

/-- R56: reading two bytes at a position and, at the same position, four, the values agree on the shared
bytes. -/
def Obligations.NarrowAndWideReadsAgree : Prop :=
  ∀ (s t u : State) (k : Fin 16) (v w : Int),
    s.status = .ok → exec (.rdu16le k true) s = .next t → exec (.rdu32le k false) t = .next u →
    t.res = .int v → u.res = .int w → v = w % 2 ^ 16

/-! ### Floats -/

/-- R161: the value of F32, as the formula states it. -/
def Obligations.StandardFloatValue : Prop :=
  ∀ w : Word,
    let e : Nat := w.toNat / 2 ^ 23 % 2 ^ 8
    let m : Nat := w.toNat % 2 ^ 23
    let q : Rat := (2 : Rat) ^ ((e : Int) - 127) * (1 + (m : Rat) / 2 ^ 23)
    (e = 0 → f32 w = .posZero) ∧
    (e ≠ 0 → f32 w = .fin (if 0x7FFFFFFF < w.toNat then -q else q))

/-- R166: the value of VF32, as the formula states it. -/
def Obligations.VendorFloatValue : Prop :=
  ∀ w : Word,
    let e : Nat := w.toNat / 2 ^ 24
    let m : Nat := w.toNat / 2 % 2 ^ 23
    let q : Rat := (2 : Rat) ^ ((e : Int) - 127) * (1 + (m : Rat) / 2 ^ 23)
    (e = 0 → vf32 w = .posZero) ∧
    (e ≠ 0 → vf32 w = .fin (if w.toNat % 2 = 1 then -q else q))

/-- R163: the value of F64, case by case, the halved scale of the zero-exponent branch included. -/
def Obligations.StandardDoubleValue : Prop :=
  ∀ hi lo : Word,
    let e : Nat := hi.toNat / 2 ^ 20 % 2 ^ 11
    let fr : Nat := hi.toNat % 2 ^ 20 * 2 ^ 32 + lo.toNat
    let s : Nat := hi.toNat / 2 ^ 31
    let signed (q : Rat) : FVal := .fin (if s = 1 then -q else q)
    (e = 0 → fr = 0 → f64 hi lo = if s = 1 then .negZero else .posZero) ∧
    (e = 0 → fr ≠ 0 → f64 hi lo = signed ((fr : Rat) * (2 : Rat) ^ (-1075 : Int))) ∧
    (e = 2047 → fr = 0 → f64 hi lo = if s = 1 then .negInf else .posInf) ∧
    (e = 2047 → fr ≠ 0 → f64 hi lo = .nan) ∧
    (1 ≤ e → e ≤ 2046 →
      f64 hi lo = signed ((2 : Rat) ^ ((e : Int) - 1023) * (1 + (fr : Rat) / 2 ^ 52)))

/-- R102: the vendor word is the standard word rotated left by one bit: its fields are those of the
standard word, and so is its value. -/
def Obligations.VendorIsRotatedStandard : Prop :=
  ∀ f : Word,
    let v : Word := BitVec.ofNat 32 (f.toNat * 2 % 2 ^ 32 + f.toNat / 2 ^ 31)
    v.toNat / 2 ^ 24 = f.toNat / 2 ^ 23 % 2 ^ 8 ∧ v.toNat / 2 % 2 ^ 23 = f.toNat % 2 ^ 23 ∧
    v.toNat % 2 = f.toNat / 2 ^ 31 ∧ vf32 v = f32 f

/-- R167 on the normalized branch: no rounding occurs, the delivered pattern is the 64 bits read. -/
def Obligations.NormalDoublesDeliverExactly : Prop :=
  ∀ (n : Nat) (hi lo : Word),
    1 ≤ hi.toNat / 2 ^ 20 % 2 ^ 11 → hi.toNat / 2 ^ 20 % 2 ^ 11 ≤ 2046 →
    (deliver n (f64 hi lo)).toNat = hi.toNat * 2 ^ 32 + lo.toNat

/-- R167 on the zero-exponent branch: sign s, exponent field 0, fraction field
(fr + (1 if fr mod 4 = 3 else 0)) div 2: half the value, rounded to nearest, ties to even. -/
def Obligations.DenormalDoublesDeliverHalved : Prop :=
  ∀ (n : Nat) (hi lo : Word), hi.toNat / 2 ^ 20 % 2 ^ 11 = 0 →
    let fr : Nat := hi.toNat % 2 ^ 20 * 2 ^ 32 + lo.toNat
    (deliver n (f64 hi lo)).toNat =
      hi.toNat / 2 ^ 31 * 2 ^ 63 + (fr + (if fr % 4 = 3 then 1 else 0)) / 2

/-- R167 for the 32-bit formats: a nonzero F32 or VF32 value is delivered exactly, exponent rebiased and
mantissa in the top of the fraction field; a zero as the pattern 0. -/
def Obligations.ShortFloatsDeliverExactly : Prop :=
  ∀ (n : Nat) (w : Word),
    let pattern (e m s : Nat) : Nat :=
      if e = 0 then 0 else s * 2 ^ 63 + (e + 896) * 2 ^ 52 + m * 2 ^ 29
    (deliver n (f32 w)).toNat =
      pattern (w.toNat / 2 ^ 23 % 2 ^ 8) (w.toNat % 2 ^ 23) (w.toNat / 2 ^ 31) ∧
    (deliver n (vf32 w)).toNat = pattern (w.toNat / 2 ^ 24) (w.toNat / 2 % 2 ^ 23) (w.toNat % 2)

/-- R168: NaN is one value that carries nothing of the input; whatever its free bits, what is delivered
is a NaN pattern, exponent field all ones and fraction field not zero. -/
def Obligations.NanIsOneValueWithFreeBits : Prop :=
  (∀ hi lo hi' lo' : Word,
    hi.toNat / 2 ^ 20 % 2 ^ 11 = 2047 → hi.toNat % 2 ^ 20 * 2 ^ 32 + lo.toNat ≠ 0 →
    hi'.toNat / 2 ^ 20 % 2 ^ 11 = 2047 → hi'.toNat % 2 ^ 20 * 2 ^ 32 + lo'.toNat ≠ 0 →
    f64 hi lo = f64 hi' lo') ∧
  (∀ n : Nat, (deliver n .nan).toNat / 2 ^ 52 % 2 ^ 11 = 2047 ∧ (deliver n .nan).toNat % 2 ^ 52 ≠ 0)

/-! ### Blocks -/

/-- R92: extension bytes of 255 are added and reading goes on; the first other byte is added and ends
it; the end of the buffer is BufferUnderrun. -/
def Obligations.LengthExtensionRule : Prop :=
  (∀ (m : Nat) (e : Byte) (rest : List Byte), e ≠ 255 →
    readExtension (List.replicate m 255 ++ e :: rest) = .ok (255 * m + e.toNat, m + 1)) ∧
  (∀ m : Nat, readExtension (List.replicate m 255) = .error .bufferUnderrun)

/-- R211: the copy of a match with 1 ≤ off ≤ op never reads an unwritten cell (R216), keeps what was
there and repeats the last `off` bytes, overlapping or not. -/
def Obligations.MatchCopyRepeats : Prop :=
  ∀ (out : List Byte) (off ml : Nat), 0 < off → off ≤ out.length →
    ∃ mid, copyMatch out (out.length - off) ml = some mid ∧ MatchExtends out off ml mid

/-- R202, R213: a block with clen = 0 is copied verbatim to slot d, and cursor k advances by 12 + dlen.
The next state in full; `r` are the four reserved bytes, of any value (R89). -/
def Obligations.RawBlockDelivers : Prop :=
  ∀ (s : State) (k d : Fin 16) (b : Nat) (pre payload post : List Byte) (r0 r1 r2 r3 : Byte),
    payload.length < 2 ^ 32 →
    Ready s k b pre.length (pre ++ headerBytes 0 payload.length r0 r1 r2 r3 ++ payload ++ post) →
    s.slots[d.val]? = some .free →
    exec (.lz4d k d) s = .next { s with
      slots := s.slots.set d.val (.alloc payload)
      cursors := s.cursors.set k.val (.bound b (pre.length + 12 + payload.length : Nat))
      res := .span d.val 0 payload.length, delivered := [], lz4 := none }

/-- R200 to R213: LZ4D decodes every block the format of R90 to R96 describes: any sequences with legal
offsets and match lengths, lengths of any size with their extension bytes, then a last sequence of
literals, or nothing, the block ending with a match (R95, R204, R217). Slot d gets the output they stand
for, cursor k advances by 12 + clen. -/
def Obligations.CompressedBlockDelivers : Prop :=
  ∀ (s : State) (k d : Fin 16) (b : Nat) (pre post : List Byte) (r0 r1 r2 r3 : Byte)
    (qs : List Sequence) (tail : BlockTail) (final : List Byte),
    Expands [] qs tail.lits final → final.length < 2 ^ 32 →
    0 < (blockBytes qs tail).length → (blockBytes qs tail).length < 2 ^ 32 →
    Ready s k b pre.length
      (pre ++ headerBytes (blockBytes qs tail).length final.length r0 r1 r2 r3 ++
        blockBytes qs tail ++ post) →
    s.slots[d.val]? = some .free →
    exec (.lz4d k d) s = .next { s with
      slots := s.slots.set d.val (.alloc final)
      cursors := s.cursors.set k.val (.bound b (pre.length + 12 + (blockBytes qs tail).length : Nat))
      res := .span d.val 0 final.length, delivered := [], lz4 := none }

/-- R212, R213: whatever the bytes, when LZ4D ends without a fault, its output has exactly `dlen` bytes,
the cursor has moved by exactly the header and the bytes it declares, all of which are in the slot, and
nothing else but slot d, cursor k and RES has changed. -/
def Obligations.AcceptedBlocksAreExact : Prop :=
  ∀ (s t : State) (k d : Fin 16) (b : Nat) (p : Int) (buf : List Byte), Ready s k b p buf →
    exec (.lz4d k d) s = .next t → t.status = .ok →
    let clen := le (memRead buf p.toNat 4)
    let dlen := le (memRead buf (p.toNat + 4) 4)
    let used := 12 + (if clen = 0 then dlen else clen)
    0 ≤ p ∧ p + used ≤ buf.length ∧ s.slots[d.val]? = some .free ∧
    ∃ out : List Byte, out.length = dlen ∧ t = { s with
      slots := s.slots.set d.val (.alloc out)
      cursors := s.cursors.set k.val (.bound b (p + used))
      res := .span d.val 0 dlen, delivered := [], lz4 := none }

/-- R201 to R203: a header that does not lie in the slot, or one that declares more bytes than remain, is
BufferUnderrun. -/
def Obligations.BlockHeaderUnderruns : Prop :=
  ∀ (s : State) (k d : Fin 16) (b : Nat) (p : Int) (buf : List Byte), Ready s k b p buf →
    s.slots[d.val]? = some .free →
    let clen := le (memRead buf p.toNat 4)
    let dlen := le (memRead buf (p.toNat + 4) 4)
    (p < 0 ∨ (buf.length : Int) < p + 12 ∨
      (buf.length : Int) < p + 12 + (if clen = 0 then dlen else clen)) →
    exec (.lz4d k d) s = .next (faultedWith s .bufferUnderrun)

/-- R205 to R211: LZ4.SEQ on a sequence with a match, more of the block following it: the block stays in
progress, `ip` behind the sequence, the output extended by the literals and the match. -/
def Obligations.SequenceWithMatchContinues : Prop :=
  ∀ (s : State) (c : Lz4) (buf rest mid : List Byte) (q : Sequence) (l m : Fin 16),
    s.lz4 = some c → s.bufAt c.src = some buf → buf.drop c.ip = q.bytes ++ rest →
    l.val = lengthNibble q.lits.length → m.val = lengthNibble (q.ml - 4) →
    c.ip + q.bytes.length < c.blockEnd → q.Legal (c.out ++ q.lits).length →
    MatchExtends (c.out ++ q.lits) q.off q.ml mid → mid.length ≤ c.dlen.toNat →
    exec (.lz4seq l m) s = .next { s with lz4 := some { c with
      ip := c.ip + q.bytes.length, lit := q.lits.length, ml := q.ml, off := BitVec.ofNat 16 q.off
      start := (c.op : Int) + q.lits.length - q.off, out := mid } }

/-- R204 to R213: LZ4.SEQ on a sequence whose match ends exactly at the block end and completes the output:
the block ends with a match (R95, R217) and is completed like any other. -/
def Obligations.SequenceWithMatchCompletes : Prop :=
  ∀ (s : State) (c : Lz4) (buf rest mid : List Byte) (q : Sequence) (l m : Fin 16),
    s.lz4 = some c → s.bufAt c.src = some buf → buf.drop c.ip = q.bytes ++ rest →
    l.val = lengthNibble q.lits.length → m.val = lengthNibble (q.ml - 4) →
    c.ip + q.bytes.length = c.blockEnd → q.Legal (c.out ++ q.lits).length →
    MatchExtends (c.out ++ q.lits) q.off q.ml mid → mid.length = c.dlen.toNat →
    exec (.lz4seq l m) s = .next { s with
      slots := s.slots.set c.d.val (.alloc mid)
      cursors := s.cursors.set c.k.val (.bound c.src c.blockEnd)
      res := .span c.d.val 0 c.dlen.toNat, delivered := [], lz4 := none }

/-- R207, R208, R212, R213: LZ4.SEQ on the last sequence of a block, whatever its low nibble: slot d
becomes ALLOC with the output, cursor k stands at the block end, nothing stays in progress. -/
def Obligations.LastSequenceCompletes : Prop :=
  ∀ (s : State) (c : Lz4) (buf lits rest : List Byte) (n : Nat) (l m : Fin 16),
    s.lz4 = some c → s.bufAt c.src = some buf → buf.drop c.ip = lastBytes lits n ++ rest →
    l.val = lengthNibble lits.length →
    c.ip + (lastBytes lits n).length = c.blockEnd → (c.out ++ lits).length = c.dlen.toNat →
    exec (.lz4seq l m) s = .next { s with
      slots := s.slots.set c.d.val (.alloc (c.out ++ lits))
      cursors := s.cursors.set c.k.val (.bound c.src c.blockEnd)
      res := .span c.d.val 0 c.dlen.toNat, delivered := [], lz4 := none }

/-- R206, R207, R209, R210, R211: the faults of a sequence, in order, for lengths of any size. A literal
length whose extension runs off the buffer is BufferUnderrun. With the literal length `run` read and its
bytes beginning at `p`: a run beyond the block is BufferUnderrun; else a run beyond the output is
MalformedStream; else, where a match follows, an offset that does not lie in the buffer is BufferUnderrun;
a match length whose extension runs off the buffer is BufferUnderrun, whatever the offset; else a zero
offset, one beyond the output so far, or a match beyond `dlen` is MalformedStream. -/
def Obligations.SequenceFaults : Prop :=
  ∀ (s : State) (c : Lz4) (buf : List Byte) (l m : Fin 16),
    s.lz4 = some c → s.bufAt c.src = some buf →
    (∀ n, l.val = 15 → buf.drop (c.ip + 1) = List.replicate n 255 →
      exec (.lz4seq l m) s = .next (faultedWith s .bufferUnderrun)) ∧
    (∀ (run : Nat) (tail : List Byte),
      l.val = lengthNibble run → buf.drop (c.ip + 1) = lengthExtension run ++ tail →
      let p := c.ip + 1 + (lengthExtension run).length
      (c.blockEnd < p + run →
        exec (.lz4seq l m) s = .next (faultedWith s .bufferUnderrun)) ∧
      (p + run ≤ c.blockEnd → c.dlen.toNat < c.op + run →
        exec (.lz4seq l m) s = .next (faultedWith s .malformedStream)) ∧
      (p + run < c.blockEnd → c.op + run ≤ c.dlen.toNat →
        (buf.length < p + run + 2 →
          exec (.lz4seq l m) s = .next (faultedWith s .bufferUnderrun)) ∧
        (∀ o0 o1 n, m.val = 15 → tail.drop run = o0 :: o1 :: List.replicate n 255 →
          exec (.lz4seq l m) s = .next (faultedWith s .bufferUnderrun)) ∧
        (∀ o0 o1 more rest, m.val = lengthNibble more →
          tail.drop run = o0 :: o1 :: (lengthExtension more ++ rest) →
          (o0.toNat + 256 * o1.toNat = 0 ∨ c.op + run < o0.toNat + 256 * o1.toNat ∨
            c.dlen.toNat < c.op + run + more + 4) →
          exec (.lz4seq l m) s = .next (faultedWith s .malformedStream))))

/-- R212, R215: the faults of a block's end are MalformedStream. For LZ4.SEQ: a match whose bytes lie in the
buffer but reach beyond the block end; a match, or a last run of literals, that ends exactly at the block
end with another number of output bytes than `dlen`. For LZ4D: a block of the format, in either form, whose
header declares another output length than the block produces. -/
def Obligations.BlockEndChecks : Prop :=
  (∀ (s : State) (c : Lz4) (buf rest : List Byte) (q : Sequence) (l m : Fin 16),
    s.lz4 = some c → s.bufAt c.src = some buf → buf.drop c.ip = q.bytes ++ rest →
    l.val = lengthNibble q.lits.length → m.val = lengthNibble (q.ml - 4) →
    q.Legal (c.out ++ q.lits).length → c.ip + q.runLength < c.blockEnd →
    (c.blockEnd < c.ip + q.bytes.length ∨
      (c.ip + q.bytes.length = c.blockEnd ∧ c.op + q.lits.length + q.ml ≠ c.dlen.toNat)) →
    exec (.lz4seq l m) s = .next (faultedWith s .malformedStream)) ∧
  (∀ (s : State) (c : Lz4) (buf lits rest : List Byte) (n : Nat) (l m : Fin 16),
    s.lz4 = some c → s.bufAt c.src = some buf → buf.drop c.ip = lastBytes lits n ++ rest →
    l.val = lengthNibble lits.length → c.ip + (lastBytes lits n).length = c.blockEnd →
    c.op + lits.length ≠ c.dlen.toNat →
    exec (.lz4seq l m) s = .next (faultedWith s .malformedStream)) ∧
  (∀ (s : State) (k d : Fin 16) (b : Nat) (pre post : List Byte) (r0 r1 r2 r3 : Byte)
    (qs : List Sequence) (tail : BlockTail) (final : List Byte) (dlen : Nat),
    Expands [] qs tail.lits final → dlen < 2 ^ 32 → dlen ≠ final.length →
    0 < (blockBytes qs tail).length → (blockBytes qs tail).length < 2 ^ 32 →
    Ready s k b pre.length
      (pre ++ headerBytes (blockBytes qs tail).length dlen r0 r1 r2 r3 ++ blockBytes qs tail ++ post) →
    s.slots[d.val]? = some .free →
    exec (.lz4d k d) s = .next (faultedWith s .malformedStream))

/-- R316: sequence by sequence, from the state in which LZ4D has entered the block, the machine's steps
reach exactly the state LZ4D reaches in one step. -/
def Obligations.SequenceGrainAgrees : Prop :=
  ∀ (s t : State) (k d : Fin 16), s.status = .ok → lz4Start k d s = .ok t →
    ∃ n u, Host.Core.run Sys2Proof.core n t = .next u ∧ exec (.lz4d k d) s = .next u ∧ u.lz4 = none

/-- The model's choice (log 2): LZ4.SEQ with no block in progress stops with the fault
`sequenceOutsideBlock`; the spec has it "decoded by LZ4D only". -/
def Obligations.SequenceOutsideBlockStops : Prop :=
  ∀ (s : State) (l m : Fin 16), s.lz4 = none → exec (.lz4seq l m) s = .fault .sequenceOutsideBlock

/-! ### Interleave -/

/-- R240, R242: ILV delivers the elements, byte j of element i from `p + j·count + i`, and moves no
cursor: only RES changes. -/
def Obligations.InterleaveDelivers : Prop :=
  ∀ (s : State) (k : Fin 16) (b p : Nat) (buf : List Byte) (bc w : Word), Ready s k b p buf →
    w.toNat ≠ 0 → bc.toNat % w.toNat = 0 → p + bc.toNat ≤ buf.length →
    ∃ es : List (List Byte), exec (.ilv k bc w) s = .next (withResult s (.elems es)) ∧
      es.length = bc.toNat / w.toNat ∧
      ∀ i, i < bc.toNat / w.toNat → ∃ e, es[i]? = some e ∧ e.length = w.toNat ∧
        ∀ j, j < w.toNat → e[j]? = buf[p + j * (bc.toNat / w.toNat) + i]?

/-- R240, R241, R267: ILV tests the geometry first, then the bounds. -/
def Obligations.InterleaveFaultOrder : Prop :=
  ∀ (s : State) (k : Fin 16) (b : Nat) (p : Int) (buf : List Byte) (bc w : Word), Ready s k b p buf →
    ((w.toNat = 0 ∨ bc.toNat % w.toNat ≠ 0) →
      exec (.ilv k bc w) s = .next (faultedWith s .invalidGeometry)) ∧
    (w.toNat ≠ 0 → bc.toNat % w.toNat = 0 → (p < 0 ∨ (buf.length : Int) < p + bc.toNat) →
      exec (.ilv k bc w) s = .next (faultedWith s .bufferUnderrun))

/-- R243 to R247: the three 32-bit interleaves deliver the words, plane 0 most significant, each with its
transform, and advance the cursor by 4·count (exact, no wrap); a span that does not lie in the slot is
BufferUnderrun. -/
def Obligations.WordInterleavesDeliver : Prop :=
  ∀ (s : State) (k : Fin 16) (b : Nat) (p : Int) (buf : List Byte) (count : Word), Ready s k b p buf →
    let n := count.toNat
    (0 ≤ p → p + 4 * n ≤ buf.length →
      let moved := { s with cursors := s.cursors.set k.val (.bound b (p + 4 * n)) }
      ∃ ws : List Word, ws.length = n ∧
        (∀ i, i < n → ∃ (w : Word) (b0 b1 b2 b3 : Byte), ws[i]? = some w ∧
          buf[p.toNat + i]? = some b0 ∧ buf[p.toNat + n + i]? = some b1 ∧
          buf[p.toNat + 2 * n + i]? = some b2 ∧ buf[p.toNat + 3 * n + i]? = some b3 ∧
          w.toNat = 2 ^ 24 * b0.toNat + 2 ^ 16 * b1.toNat + 2 ^ 8 * b2.toNat + b3.toNat) ∧
        exec (.ilv32 k count) s = .next (withResult moved (.words ws)) ∧
        exec (.ilv32i k count) s = .next (withResult moved (.ints (ws.map zz))) ∧
        exec (.ilv32f k count) s = .next { moved with
          res := .floats (ws.map vf32), delivered := ws.map (fun w => deliver s.draws (vf32 w)) }) ∧
    ((p < 0 ∨ (buf.length : Int) < p + 4 * n) →
      exec (.ilv32 k count) s = .next (faultedWith s .bufferUnderrun) ∧
      exec (.ilv32i k count) s = .next (faultedWith s .bufferUnderrun) ∧
      exec (.ilv32f k count) s = .next (faultedWith s .bufferUnderrun))

/-- R248: the `mod byteCount` of R243 never changes an index, and ILV32 reads the same bytes as ILV with
width 4: word i is the big-endian number of element i. -/
def Obligations.WordsAreBigEndianElements : Prop :=
  (∀ p count i j : Nat, i < count → j ≤ 3 → wordPlaneIndex p count i j = planeIndex p count i j) ∧
  ∀ (s t u : State) (k : Fin 16) (bc count : Word) (es : List (List Byte)) (ws : List Word),
    bc.toNat = 4 * count.toNat → s.status = .ok →
    exec (.ilv k bc 4) s = .next t → exec (.ilv32 k count) s = .next u →
    t.res = .elems es → u.res = .words ws →
    ws.map BitVec.toNat = es.map be

/-- R246: ZZ inverts the zigzag code, is a bijection from the u32 values onto −2^31 .. 2^31 − 1, and is
the exclusive-or form the rule gives for 32-bit words. -/
def Obligations.ZigzagIsABijection : Prop :=
  (∀ v : Word, (v.toNat % 2 = 0 → 2 * zz v = v.toNat) ∧ (v.toNat % 2 = 1 → 2 * zz v = -(v.toNat + 1))) ∧
  (∀ v w : Word, zz v = zz w → v = w) ∧
  (∀ z : Int, (-2 ^ 31 ≤ z ∧ z < 2 ^ 31) ↔ ∃ v : Word, zz v = z) ∧
  (∀ v : Word, zz v = ((v >>> 1) ^^^ (if v.toNat % 2 = 1 then BitVec.allOnes 32 else 0)).toInt)

/-! ### Invariant -/

/-- Every step keeps the invariant of the engine. -/
def Obligations.StepKeepsInvariant : Prop :=
  ∀ s t : State, EngineInv s → step s = .next t → EngineInv t

/-- The reset state, that of an engine with the default NBUF and NCUR (R7, log 1), meets the invariant. -/
def Obligations.ResetMeetsInvariant : Prop := State.reset = resetWith 16 16 ∧ EngineInv State.reset
end

