-- ==== Sys2Proof/Laws/Decode.lean ====
section
/-! SUPPORT. What the decoder accepts, said once. -/

namespace Sys2Proof

/-- Everything `decode` can accept: the conditions of R85, R86, R87 and R83 hold, and the instruction is
the one the opcode map gives for the fields. -/
theorem decode_ok_iff {nbuf ncur : Nat} {p : Packet} {i : Instr} :
    decode nbuf ncur p = .ok i ↔
      reservedZero p.cw = true ∧ ∃ form, opcodeRow (fieldsOf p) = some (form, i) ∧
        ((fieldsOf p).p = true → form.allowsP = true) ∧ unusedZero form (fieldsOf p) = true ∧
        i.selectsOk nbuf ncur = true ∧ payloadExact form (fieldsOf p) = true := by
  unfold decode
  cases hr : reservedZero p.cw with
  | false => simp
  | true =>
    cases ho : opcodeRow (fieldsOf p) with
    | none => simp
    | some x =>
      obtain ⟨form, j⟩ := x
      cases hp : (fieldsOf p).p <;> cases ha : form.allowsP <;> cases hu : unusedZero form (fieldsOf p) <;>
        cases hs : j.selectsOk nbuf ncur <;> cases hl : payloadExact form (fieldsOf p) <;>
        simp_all <;> grind

/-- No packet decodes to an LZ4 sequence: only a running LZ4D fetches one. -/
theorem opcodeRow_not_sequence {f : Fields} {form : Form} {l m : Fin 16} :
    opcodeRow f ≠ some (form, .lz4seq l m) := by
  unfold opcodeRow
  split <;> simp

end Sys2Proof
end

