-- ==== Sys2Proof/Laws/State.lean ====
section
/-! SUPPORT. One lemma per field per update of the state, true by rfl, so that no proof unfolds an update. -/

namespace Sys2Proof.Machine

@[simp] theorem takeFault_slots (kind : FaultKind) (s : State) : (takeFault kind s).slots = s.slots := rfl
@[simp] theorem takeFault_cursors (kind : FaultKind) (s : State) : (takeFault kind s).cursors = s.cursors := rfl
@[simp] theorem takeFault_status (kind : FaultKind) (s : State) : (takeFault kind s).status = .faulted kind := rfl
@[simp] theorem takeFault_res (kind : FaultKind) (s : State) : (takeFault kind s).res = .none := rfl
@[simp] theorem takeFault_delivered (kind : FaultKind) (s : State) : (takeFault kind s).delivered = [] := rfl
@[simp] theorem takeFault_lz4 (kind : FaultKind) (s : State) : (takeFault kind s).lz4 = none := rfl
@[simp] theorem takeFault_inbox (kind : FaultKind) (s : State) : (takeFault kind s).inbox = s.inbox := rfl
@[simp] theorem takeFault_draws (kind : FaultKind) (s : State) : (takeFault kind s).draws = s.draws := rfl

@[simp] theorem resetEngine_slots (s : State) : (resetEngine s).slots = s.slots.map (fun _ => .free) := rfl
@[simp] theorem resetEngine_cursors (s : State) : (resetEngine s).cursors = s.cursors.map (fun _ => .unbound) := rfl
@[simp] theorem resetEngine_status (s : State) : (resetEngine s).status = .ok := rfl
@[simp] theorem resetEngine_res (s : State) : (resetEngine s).res = .none := rfl
@[simp] theorem resetEngine_delivered (s : State) : (resetEngine s).delivered = [] := rfl
@[simp] theorem resetEngine_lz4 (s : State) : (resetEngine s).lz4 = none := rfl
@[simp] theorem resetEngine_inbox (s : State) : (resetEngine s).inbox = s.inbox := rfl
@[simp] theorem resetEngine_draws (s : State) : (resetEngine s).draws = s.draws := rfl

@[simp] theorem complete_slots (r : Res) (s : State) : (complete r s).slots = s.slots := rfl
@[simp] theorem complete_cursors (r : Res) (s : State) : (complete r s).cursors = s.cursors := rfl
@[simp] theorem complete_status (r : Res) (s : State) : (complete r s).status = s.status := rfl
@[simp] theorem complete_res (r : Res) (s : State) : (complete r s).res = r := rfl
@[simp] theorem complete_delivered (r : Res) (s : State) : (complete r s).delivered = (deliverAll s.draws r.floatList).1 := rfl
@[simp] theorem complete_lz4 (r : Res) (s : State) : (complete r s).lz4 = s.lz4 := rfl
@[simp] theorem complete_inbox (r : Res) (s : State) : (complete r s).inbox = s.inbox := rfl
@[simp] theorem complete_draws (r : Res) (s : State) : (complete r s).draws = (deliverAll s.draws r.floatList).2 := rfl

@[simp] theorem setCursor_slots (k : Nat) (c : Cursor) (s : State) : (s.setCursor k c).slots = s.slots := rfl
@[simp] theorem setCursor_cursors (k : Nat) (c : Cursor) (s : State) : (s.setCursor k c).cursors = s.cursors.set k c := rfl
@[simp] theorem setCursor_status (k : Nat) (c : Cursor) (s : State) : (s.setCursor k c).status = s.status := rfl
@[simp] theorem setCursor_res (k : Nat) (c : Cursor) (s : State) : (s.setCursor k c).res = s.res := rfl
@[simp] theorem setCursor_delivered (k : Nat) (c : Cursor) (s : State) : (s.setCursor k c).delivered = s.delivered := rfl
@[simp] theorem setCursor_lz4 (k : Nat) (c : Cursor) (s : State) : (s.setCursor k c).lz4 = s.lz4 := rfl
@[simp] theorem setCursor_inbox (k : Nat) (c : Cursor) (s : State) : (s.setCursor k c).inbox = s.inbox := rfl
@[simp] theorem setCursor_draws (k : Nat) (c : Cursor) (s : State) : (s.setCursor k c).draws = s.draws := rfl

@[simp] theorem setSlot_slots (i : Nat) (x : Slot) (s : State) : (s.setSlot i x).slots = s.slots.set i x := rfl
@[simp] theorem setSlot_cursors (i : Nat) (x : Slot) (s : State) : (s.setSlot i x).cursors = s.cursors := rfl
@[simp] theorem setSlot_status (i : Nat) (x : Slot) (s : State) : (s.setSlot i x).status = s.status := rfl
@[simp] theorem setSlot_res (i : Nat) (x : Slot) (s : State) : (s.setSlot i x).res = s.res := rfl
@[simp] theorem setSlot_delivered (i : Nat) (x : Slot) (s : State) : (s.setSlot i x).delivered = s.delivered := rfl
@[simp] theorem setSlot_lz4 (i : Nat) (x : Slot) (s : State) : (s.setSlot i x).lz4 = s.lz4 := rfl
@[simp] theorem setSlot_inbox (i : Nat) (x : Slot) (s : State) : (s.setSlot i x).inbox = s.inbox := rfl
@[simp] theorem setSlot_draws (i : Nat) (x : Slot) (s : State) : (s.setSlot i x).draws = s.draws := rfl

@[simp] theorem freeSlot_slots (d : Nat) (s : State) : (freeSlot d s).slots = s.slots.set d .free := rfl
@[simp] theorem freeSlot_cursors (d : Nat) (s : State) : (freeSlot d s).cursors = s.cursors.map (unbindFrom d) := rfl
@[simp] theorem freeSlot_status (d : Nat) (s : State) : (freeSlot d s).status = s.status := rfl
@[simp] theorem freeSlot_res (d : Nat) (s : State) : (freeSlot d s).res = s.res := rfl
@[simp] theorem freeSlot_delivered (d : Nat) (s : State) : (freeSlot d s).delivered = s.delivered := rfl
@[simp] theorem freeSlot_lz4 (d : Nat) (s : State) : (freeSlot d s).lz4 = s.lz4 := rfl
@[simp] theorem freeSlot_inbox (d : Nat) (s : State) : (freeSlot d s).inbox = s.inbox := rfl
@[simp] theorem freeSlot_draws (d : Nat) (s : State) : (freeSlot d s).draws = s.draws := rfl

@[simp] theorem faultedWith_slots (kind : FaultKind) (s : State) : (faultedWith s kind).slots = s.slots := rfl
@[simp] theorem faultedWith_cursors (kind : FaultKind) (s : State) : (faultedWith s kind).cursors = s.cursors := rfl
@[simp] theorem faultedWith_status (kind : FaultKind) (s : State) : (faultedWith s kind).status = .faulted kind := rfl
@[simp] theorem faultedWith_res (kind : FaultKind) (s : State) : (faultedWith s kind).res = .none := rfl
@[simp] theorem faultedWith_delivered (kind : FaultKind) (s : State) : (faultedWith s kind).delivered = [] := rfl
@[simp] theorem faultedWith_lz4 (kind : FaultKind) (s : State) : (faultedWith s kind).lz4 = none := rfl
@[simp] theorem faultedWith_inbox (kind : FaultKind) (s : State) : (faultedWith s kind).inbox = s.inbox := rfl
@[simp] theorem faultedWith_draws (kind : FaultKind) (s : State) : (faultedWith s kind).draws = s.draws := rfl

@[simp] theorem withResult_slots (r : Res) (s : State) : (withResult s r).slots = s.slots := rfl
@[simp] theorem withResult_cursors (r : Res) (s : State) : (withResult s r).cursors = s.cursors := rfl
@[simp] theorem withResult_status (r : Res) (s : State) : (withResult s r).status = s.status := rfl
@[simp] theorem withResult_res (r : Res) (s : State) : (withResult s r).res = r := rfl
@[simp] theorem withResult_delivered (r : Res) (s : State) : (withResult s r).delivered = [] := rfl
@[simp] theorem withResult_lz4 (r : Res) (s : State) : (withResult s r).lz4 = s.lz4 := rfl
@[simp] theorem withResult_inbox (r : Res) (s : State) : (withResult s r).inbox = s.inbox := rfl
@[simp] theorem withResult_draws (r : Res) (s : State) : (withResult s r).draws = s.draws := rfl

theorem takeFault_eq_faultedWith (kind : FaultKind) (s : State) : takeFault kind s = faultedWith s kind := rfl

/-- A result that holds no float is delivered with no pattern and takes no draw. -/
theorem complete_eq_withResult {r : Res} (h : r.floatList = []) (s : State) :
    complete r s = withResult s r := by
  simp [complete, withResult, h, deliverAll]

end Sys2Proof.Machine
end

