-- ==== Sys2Proof/Laws/Float.lean ====
section
/-! SUPPORT. The float and zigzag functions: `pow2` is the power of two, and every value they give is in
the range RES states for it (R29, R160). -/

namespace Sys2Proof.Machine

/-- `pow2` is the integer power of two. -/
theorem pow2_eq_zpow (z : Int) : pow2 z = (2 : Rat) ^ z := by
  cases z with
  | ofNat n => simp [pow2, Rat.mkRat_eq_div]
  | negSucc n => simp [pow2, Rat.mkRat_eq_div, zpow_negSucc]

theorem pow2_pos (z : Int) : 0 < pow2 z := by
  rw [pow2_eq_zpow]
  positivity

theorem applySign_ne_zero {neg : Bool} {q : Rat} (h : q ≠ 0) : applySign neg q ≠ 0 := by
  cases neg <;> simpa [applySign] using h

theorem mkRat_nonneg (n d : Nat) : (0 : Rat) ≤ mkRat n d := by
  rw [Rat.mkRat_eq_div]
  positivity

theorem floatOfFields_wf (e m : Nat) (neg : Bool) : (floatOfFields e m neg).wf = true := by
  unfold floatOfFields
  split
  · rfl
  · have := pow2_pos ((e : Int) - 127)
    have := mkRat_nonneg m (2 ^ 23)
    simp only [FVal.wf, decide_eq_true_eq]
    exact applySign_ne_zero (by positivity)

theorem f32_wf (w : Word) : (f32 w).wf = true := floatOfFields_wf _ _ _

theorem vf32_wf (w : Word) : (vf32 w).wf = true := floatOfFields_wf _ _ _

/-- The 32-bit formats never give NaN (R162, R166). -/
theorem vf32_ne_nan (w : Word) : vf32 w ≠ .nan := by
  unfold vf32 floatOfFields
  split <;> simp

theorem f64_wf (hi lo : Word) : (f64 hi lo).wf = true := by
  unfold f64
  simp only []
  split
  · split
    · split <;> rfl
    · rename_i h
      have h0 := pow2_pos (0 - 1023)
      have h1 := mkRat_nonneg (bits hi.toNat 19 0 * 2 ^ 32 + lo.toNat) (2 ^ 52)
      simp only [FVal.wf, decide_eq_true_eq]
      refine applySign_ne_zero (mul_ne_zero h0.ne' ?_)
      have hd : (2 ^ 52 : Nat) ≠ 0 := by norm_num
      exact fun hz => h (by exact_mod_cast (Rat.mkRat_eq_zero hd).mp hz)
  · split
    · split
      · split <;> rfl
      · rfl
    · have h0 := pow2_pos ((bits hi.toNat 30 20 : Int) - 1023)
      have h1 := mkRat_nonneg (bits hi.toNat 19 0 * 2 ^ 32 + lo.toNat) (2 ^ 52)
      simp only [FVal.wf, decide_eq_true_eq]
      exact applySign_ne_zero (by positivity)

/-- Every zigzag value fits a signed 32-bit integer (R246). -/
theorem zz_range (v : Word) : -2 ^ 31 ≤ zz v ∧ zz v < 2 ^ 31 := by
  have := v.isLt
  unfold zz
  split <;> omega

/-- One pattern is delivered for each float. -/
theorem deliverAll_length (n : Nat) (fs : List FVal) : (deliverAll n fs).1.length = fs.length := by
  induction fs generalizing n with
  | nil => rfl
  | cons f fs ih => simp [deliverAll, ih]

end Sys2Proof.Machine
end

