-- ==== Sys2Proof/Laws/Memory.lean ====
section
/-! SUPPORT. The memory operations: what a byte reads as after each, and that each keeps the canonical
form `Memory.wf`. -/

namespace Sys2Proof.Machine

theorem Memory.wf_iff (slots : List Slot) :
    Memory.wf slots = true ↔
      Config.nbufMin ≤ slots.length ∧ slots.length ≤ Config.nbufMax ∧ ∀ x ∈ slots, x.wf = true := by
  simp [Memory.wf, and_assoc]

/-- The reset state's memory is canonical. -/
theorem reset_memory_wf : Memory.wf State.reset.slots = true := by decide

/-- Writing a slot with content of a legal length keeps the canonical form. -/
theorem setSlot_memory_wf {s : State} {i : Nat} {x : Slot} (h : Memory.wf s.slots = true)
    (hx : x.wf = true) : Memory.wf (s.setSlot i x).slots = true := by
  rw [Memory.wf_iff] at h ⊢
  refine ⟨by simpa using h.1, by simpa using h.2.1, fun y hy => ?_⟩
  rcases List.mem_or_eq_of_mem_set hy with hy | rfl
  · exact h.2.2 y hy
  · exact hx

/-- BFREE's memory effect keeps the canonical form. -/
theorem freeSlot_memory_wf {s : State} {d : Nat} (h : Memory.wf s.slots = true) :
    Memory.wf (freeSlot d s).slots = true := setSlot_memory_wf (x := .free) h rfl

/-- RESET's memory effect keeps the canonical form. -/
theorem resetEngine_memory_wf {s : State} (h : Memory.wf s.slots = true) :
    Memory.wf (resetEngine s).slots = true := by
  rw [Memory.wf_iff] at h ⊢
  refine ⟨by simpa using h.1, by simpa using h.2.1, fun y hy => ?_⟩
  simp only [resetEngine_slots, List.mem_map] at hy
  obtain ⟨_, _, rfl⟩ := hy
  rfl

/-- Taking a fault keeps the canonical form: it touches no slot. -/
theorem takeFault_memory_wf {s : State} {kind : FaultKind} (h : Memory.wf s.slots = true) :
    Memory.wf (takeFault kind s).slots = true := h

/-- Writing a cursor keeps the canonical form: it touches no slot. -/
theorem setCursor_memory_wf {s : State} {k : Nat} {c : Cursor} (h : Memory.wf s.slots = true) :
    Memory.wf (s.setCursor k c).slots = true := h

/-- LZ4D's memory effect keeps the canonical form, its output being a u32 in length (R201, R213). -/
theorem lz4Commit_memory_wf {s : State} {k d : Fin 16} {b : Nat} {p : Int} {out : List Byte}
    (h : Memory.wf s.slots = true) (ho : out.length ≤ Config.maxLen) :
    Memory.wf (lz4Commit k d b p out s).slots = true :=
  setSlot_memory_wf (x := .alloc out) h (by simpa [Slot.wf] using ho)

/-- What slot j holds after slot i is written. -/
theorem bufAt_setSlot (s : State) (i j : Nat) (x : Slot) :
    (s.setSlot i x).bufAt j =
      if i = j ∧ i < s.slots.length then (match x with | .free => none | .alloc b => some b)
      else s.bufAt j := by
  simp only [State.bufAt, setSlot_slots, List.getElem?_set]
  by_cases h : i = j
  · subst h
    by_cases hi : i < s.slots.length
    · cases x <;> simp [hi]
    · simp [hi]
  · simp [h]

/-- Reading back what was written. -/
theorem byteOf_setSlot_same {s : State} {i : Nat} (h : i < s.slots.length) (b : List Byte) (a : Nat) :
    (s.setSlot i (.alloc b)).byteOf i a = b[a]? := by
  simp [State.byteOf, bufAt_setSlot, h]

/-- A write to one slot leaves every byte of the others. -/
theorem byteOf_setSlot_other {s : State} {i j : Nat} (h : i ≠ j) (x : Slot) (a : Nat) :
    (s.setSlot i x).byteOf j a = s.byteOf j a := by
  simp [State.byteOf, bufAt_setSlot, h]

/-- No cursor write touches memory. -/
theorem byteOf_setCursor (s : State) (k : Nat) (c : Cursor) (i a : Nat) :
    (s.setCursor k c).byteOf i a = s.byteOf i a := rfl

/-- Writing RES touches no memory. -/
theorem byteOf_complete (s : State) (r : Res) (i a : Nat) :
    (complete r s).byteOf i a = s.byteOf i a := rfl

/-- Taking a fault touches no memory (R268). -/
theorem byteOf_takeFault (s : State) (kind : FaultKind) (i a : Nat) :
    (takeFault kind s).byteOf i a = s.byteOf i a := rfl

/-- The cells of a slot are its bytes in order of address. -/
theorem Slot.cells_alloc_getElem? (b : List Byte) (a : Nat) :
    (Slot.cells (.alloc b))[a]? = (b[a]?).map (fun x => (a, x)) := by
  simp [Slot.cells, List.getElem?_map, List.getElem?_zipIdx, Option.map_map, Function.comp_def]

/-- Addresses in a slot's cells rise strictly: the cell form of a slot is canonical. -/
theorem Slot.cells_rising (x : Slot) : (x.cells.map Prod.fst).Pairwise (· < ·) := by
  cases x with
  | free => simp [Slot.cells]
  | alloc b =>
    have : (Slot.cells (.alloc b)).map Prod.fst = List.range b.length := by
      apply List.ext_getElem?
      intro a
      rw [List.getElem?_map, Slot.cells_alloc_getElem?]
      by_cases h : a < b.length <;> simp [h]
    rw [this]; exact List.pairwise_lt_range

end Sys2Proof.Machine
end

