-- ==== Sys2Proof/Laws/Ops.lean ====
section
/-! SUPPORT. For each shared operation, once, everything it can do. -/

namespace Sys2Proof.Machine

/-- `cursorOf` answers exactly the binding of a bound cursor. -/
theorem cursorOf_ok_iff {s : State} {k : Fin 16} {x : Nat × Int} :
    cursorOf s k = .ok x ↔ s.cursors[k.val]? = some (.bound x.1 x.2) := by
  obtain ⟨b, p⟩ := x
  unfold cursorOf
  split <;> simp_all

/-- `cursorOf` raises IllegalCommand or nothing. -/
theorem cursorOf_error {s : State} {k : Fin 16} {e : FaultKind} (h : cursorOf s k = .error e) :
    e = .illegalCommand := by
  unfold cursorOf at h
  split at h <;> simp_all

/-- The content of an ALLOC slot. -/
theorem bufAt_eq_some_iff {s : State} {i : Nat} {b : List Byte} :
    s.bufAt i = some b ↔ s.slots[i]? = some (.alloc b) := by
  unfold State.bufAt
  split <;> simp_all

/-- `openCursor` answers the binding of cursor k and the content of its slot. -/
theorem openCursor_ok_iff {s : State} {k : Fin 16} {o : Opened} :
    openCursor s k = .ok o ↔
      s.cursors[k.val]? = some (.bound o.bnd o.pos) ∧ s.slots[o.bnd]? = some (.alloc o.buf) := by
  unfold openCursor
  constructor
  · intro h
    split at h
    · cases h
    · rename_i b p hc
      rw [cursorOf_ok_iff] at hc
      split at h
      · rename_i buf hb
        rw [bufAt_eq_some_iff] at hb
        cases h
        exact ⟨hc, hb⟩
      · cases h
  · rintro ⟨hc, hb⟩
    rw [(cursorOf_ok_iff (x := (o.bnd, o.pos))).mpr hc]
    simp [bufAt_eq_some_iff.mpr hb]

/-- `openCursor` raises IllegalCommand or nothing. -/
theorem openCursor_error {s : State} {k : Fin 16} {e : FaultKind} (h : openCursor s k = .error e) :
    e = .illegalCommand := by
  unfold openCursor at h
  split at h
  · rename_i hc
    cases h
    exact cursorOf_error hc
  · split at h <;> simp_all

theorem Ready.openCursor {s : State} {k : Fin 16} {b : Nat} {p : Int} {buf : List Byte}
    (h : Ready s k b p buf) : openCursor s k = .ok ⟨b, p, buf⟩ :=
  openCursor_ok_iff.mpr ⟨h.cursor, h.slot⟩

theorem Ready.cursorOf {s : State} {k : Fin 16} {b : Nat} {p : Int} {buf : List Byte}
    (h : Ready s k b p buf) : cursorOf s k = .ok (b, p) :=
  cursorOf_ok_iff.mpr h.cursor

/-- The span check passes exactly when the span lies in the slot (R61). -/
theorem need_ok_iff {o : Opened} {n : Nat} {u : Unit} :
    need o n = .ok u ↔ 0 ≤ o.pos ∧ o.pos + n ≤ o.buf.length := by
  unfold need
  split <;> simp <;> omega

/-- The span check raises BufferUnderrun or nothing. -/
theorem need_error {o : Opened} {n : Nat} {e : FaultKind} (h : need o n = .error e) :
    e = .bufferUnderrun ∧ (o.pos < 0 ∨ (o.buf.length : Int) < o.pos + n) := by
  unfold need at h
  split at h <;> simp_all

theorem needFree_ok_iff {s : State} {d : Fin 16} {u : Unit} :
    needFree s d = .ok u ↔ s.slots[d.val]? = some .free := by
  unfold needFree
  split <;> simp_all

theorem needFree_error {s : State} {d : Fin 16} {e : FaultKind} (h : needFree s d = .error e) :
    e = .illegalCommand := by
  unfold needFree at h
  split at h <;> simp_all

theorem needAlloc_ok_iff {s : State} {d : Fin 16} {u : Unit} :
    needAlloc s d = .ok u ↔ ∃ b, s.slots[d.val]? = some (.alloc b) := by
  unfold needAlloc
  split <;> simp_all

theorem needAlloc_error {s : State} {d : Fin 16} {e : FaultKind} (h : needAlloc s d = .error e) :
    e = .illegalCommand := by
  unfold needAlloc at h
  split at h <;> simp_all

theorem needCursor_ok_iff {s : State} {k : Fin 16} {u : Unit} :
    needCursor s k = .ok u ↔ k.val < s.cursors.length := by
  unfold needCursor
  split <;> simp_all

/-- Everything `fetchBytes` can answer: the span is in the slot, the bytes are its content there, and
only the position of cursor k moves, by n (R62). -/
theorem fetchBytes_ok_iff {k : Fin 16} {o : Opened} {n : Nat} {s : State} {x : List Byte × State} :
    fetchBytes k o n s = .ok x ↔
      (0 ≤ o.pos ∧ o.pos + n ≤ o.buf.length) ∧
      x = (memRead o.buf o.pos.toNat n, s.setCursor k.val (.bound o.bnd (o.pos + n))) := by
  unfold fetchBytes
  cases h : need o n with
  | error e =>
    have := (need_error h).2
    simp
    omega
  | ok u =>
    have := need_ok_iff.mp h
    simp [this, eq_comm]

/-- A command outside the faulted state: its body's raise is taken, its result completed (R120). -/
theorem command_of_ok {body : State → Except FaultKind (State × Res)} {s : State}
    (h : s.status = .ok) :
    command body s =
      match body s with
      | .error kind => .next (takeFault kind s)
      | .ok (t, r) => .next (complete r t) := by
  cases hb : body s <;> simp [command, h, hb]

/-- A command in the faulted state has no effect (R269). -/
theorem command_of_faulted {body : State → Except FaultKind (State × Res)} {s : State}
    (h : s.status ≠ .ok) : command body s = .next s := by
  unfold command
  split <;> simp_all

/-- Everything a command can answer: it never stops; it is ignored, takes a fault its body raised, or
completes with its body's result. -/
theorem command_cases (body : State → Except FaultKind (State × Res)) (s : State) :
    (s.status ≠ .ok ∧ command body s = .next s) ∨
    (s.status = .ok ∧ ∃ kind, body s = .error kind ∧ command body s = .next (takeFault kind s)) ∨
    (s.status = .ok ∧ ∃ t r, body s = .ok (t, r) ∧ command body s = .next (complete r t)) := by
  by_cases h : s.status = .ok
  · rw [command_of_ok h]
    cases hb : body s with
    | error kind => exact .inr (.inl ⟨h, kind, rfl, rfl⟩)
    | ok x => exact .inr (.inr ⟨h, x.1, x.2, rfl, rfl⟩)
  · exact .inl ⟨h, command_of_faulted h⟩

/-- A command with a payload: refused exactly when it is not Faulted and the length is wrong (R83). -/
theorem withPayload_exact {n : Word} {payload : List Byte}
    {run : State → Host.Outcome State Fault Refusal} {s : State} (h : payload.length = n.toNat) :
    withPayload n payload run s = run s := by
  simp [withPayload, zext32, h]

/-- A completed read command, peek modifier included, in the situation it works in (R120, R129). -/
theorem readCommand_of_ready {k : Fin 16} {peek : Bool}
    {body : Opened → State → Except FaultKind (State × Res)} {s : State} {b : Nat} {p : Int}
    {buf : List Byte} (h : Ready s k b p buf) :
    readCommand k peek body s =
      match body ⟨b, p, buf⟩ s with
      | .error e => .next (takeFault e s)
      | .ok (t, r) => .next (complete r (if peek then t.setCursor k.val (.bound b p) else t)) := by
  unfold readCommand
  rw [command_of_ok h.ok]
  simp only [h.openCursor]
  cases body ⟨b, p, buf⟩ s <;> rfl

/-- Reading n bytes in the situation it works in: the span check decides between the bytes and
BufferUnderrun; without peek the position moves by n (R61, R62, R129). -/
theorem readBytes_of_ready {k : Fin 16} {peek : Bool} {n : Nat} {f : List Byte → Res} {s : State}
    {b : Nat} {p : Int} {buf : List Byte} (h : Ready s k b p buf) (h0 : 0 ≤ p)
    (h1 : p + n ≤ buf.length) :
    readBytes k peek n f s =
      .next (complete (f (memRead buf p.toNat n))
        (s.setCursor k.val (.bound b (if peek then p else p + n)))) := by
  have hn : need ⟨b, p, buf⟩ n = .ok () := need_ok_iff.mpr ⟨h0, h1⟩
  unfold readBytes
  rw [readCommand_of_ready h]
  simp only [fetchBody, fetchBytes, hn]
  cases peek <;> simp [State.setCursor, List.set_set]

/-- Reading past the end takes BufferUnderrun and moves nothing (R261, R268). -/
theorem readBytes_past_end {k : Fin 16} {peek : Bool} {n : Nat} {f : List Byte → Res} {s : State}
    {b : Nat} {p : Int} {buf : List Byte} (h : Ready s k b p buf)
    (h1 : p < 0 ∨ (buf.length : Int) < p + n) :
    readBytes k peek n f s = .next (takeFault .bufferUnderrun s) := by
  have hn : need ⟨b, p, buf⟩ n = .error .bufferUnderrun := by simp [need, h1]
  unfold readBytes
  rw [readCommand_of_ready h]
  simp [fetchBody, fetchBytes, hn]

/-- Setting a cursor to what it already holds changes nothing. -/
theorem setCursor_self {s : State} {k : Fin 16} {c : Cursor} (h : s.cursors[k.val]? = some c) :
    s.setCursor k.val c = s := by
  unfold State.setCursor
  obtain ⟨hk, rfl⟩ := List.getElem?_eq_some_iff.mp h
  rw [List.set_getElem_self]

/-- Everything `collect` can answer: one result for each element, in order. -/
theorem collect_ok_iff {α β : Type} {f : α → Except FaultKind β} {as : List α} {bs : List β} :
    collect f as = .ok bs ↔ List.Forall₂ (fun a b => f a = .ok b) as bs := by
  induction as generalizing bs with
  | nil => cases bs <;> simp [collect, eq_comm]
  | cons a as ih =>
    unfold collect
    cases ha : f a with
    | error e => cases bs <;> simp [ha]
    | ok b =>
      cases has : collect f as with
      | error e =>
        cases bs with
        | nil => simp
        | cons b' bs' =>
          have : ¬ List.Forall₂ (fun a b => f a = .ok b) as bs' := fun h => by
            rw [← ih, has] at h; cases h
          simp [this]
      | ok bs' =>
        cases bs with
        | nil => simp
        | cons b'' bs'' =>
          have := ih (bs := bs'')
          simp only [has] at this
          simp [ha, ← this]

/-- `byteAt` answers exactly the byte of the buffer. -/
theorem byteAt_ok_iff {buf : List Byte} {a : Nat} {b : Byte} :
    byteAt buf a = .ok b ↔ buf[a]? = some b := by
  unfold byteAt
  split <;> simp_all

/-- Inside the buffer `byteAt` never raises. -/
theorem byteAt_of_lt {buf : List Byte} {a : Nat} (h : a < buf.length) : byteAt buf a = .ok buf[a] := by
  simp [byteAt_ok_iff, h]

/-- A span that lies in the buffer is read in full. -/
theorem memRead_length {buf : List Byte} {a n : Nat} (h : a + n ≤ buf.length) :
    (memRead buf a n).length = n := by
  simp [memRead]
  omega

/-- Byte i of a span is byte `a + i` of the buffer (R13). -/
theorem memRead_getElem? {buf : List Byte} {a n i : Nat} (h : i < n) :
    (memRead buf a n)[i]? = buf[a + i]? := by
  simp [memRead, h]

end Sys2Proof.Machine
end

