-- ==== Sys2Proof/Laws/Lz4.lean ====
section
/-! SUPPORT. For each operation of LZ4D, once, everything it can do: what a sequence keeps of the block
in progress, that it moves the input pointer forward and never passes `dlen`, and what the loop can end
in. -/

namespace Sys2Proof.Machine

/-- The part of the ephemeral state that no sequence changes. -/
structure SameBlock (c c' : Lz4) : Prop where
  k : c'.k = c.k
  d : c'.d = c.d
  src : c'.src = c.src
  clen : c'.clen = c.clen
  dlen : c'.dlen = c.dlen
  blockEnd : c'.blockEnd = c.blockEnd

theorem SameBlock.trans {a b c : Lz4} (h : SameBlock a b) (h' : SameBlock b c) : SameBlock a c :=
  ⟨h'.k.trans h.k, h'.d.trans h.d, h'.src.trans h.src, h'.clen.trans h.clen, h'.dlen.trans h.dlen,
   h'.blockEnd.trans h.blockEnd⟩

/-- An extension is at least one byte. -/
theorem readExtension_pos {bs : List Byte} {v n : Nat} (h : readExtension bs = .ok (v, n)) : 0 < n := by
  cases bs with
  | nil => cases h
  | cons e es =>
    simp only [readExtension] at h
    split at h
    · split at h
      · cases h
      · cases h; omega
    · cases h; omega

/-- An extension raises BufferUnderrun or nothing (R206, R210). -/
theorem readExtension_error {bs : List Byte} {e : FaultKind} (h : readExtension bs = .error e) :
    e = .bufferUnderrun := by
  induction bs with
  | nil => cases h; rfl
  | cons b bs ih =>
    simp only [readExtension] at h
    split at h
    · split at h
      · rename_i h'
        cases h
        exact ih h'
      · cases h
    · cases h

theorem seqToken_sameBlock (l m : Nat) (c : Lz4) : SameBlock c (seqToken l m c) := ⟨rfl, rfl, rfl, rfl, rfl, rfl⟩

theorem seqLiteralLength_ok {buf : List Byte} {c c' : Lz4} (h : seqLiteralLength buf c = .ok c') :
    SameBlock c c' ∧ c.ip ≤ c'.ip ∧ c'.out = c.out := by
  unfold seqLiteralLength at h
  split at h
  · split at h
    · cases h
    · cases h
      exact ⟨⟨rfl, rfl, rfl, rfl, rfl, rfl⟩, Nat.le_add_right _ _, rfl⟩
  · cases h
    exact ⟨⟨rfl, rfl, rfl, rfl, rfl, rfl⟩, le_refl _, rfl⟩

/-- The literal run fits the block and the output (R207). -/
theorem seqLiterals_ok {buf : List Byte} {c c' : Lz4} (h : seqLiterals buf c = .ok c') :
    SameBlock c c' ∧ c'.ip = c.ip + c.lit ∧ c'.ip ≤ c'.blockEnd ∧ c.op + c.lit ≤ c.dlen.toNat ∧
      c'.out = c.out ++ memRead buf c.ip c.lit := by
  unfold seqLiterals at h
  split at h
  · cases h
  · split at h
    · cases h
    · cases h
      exact ⟨⟨rfl, rfl, rfl, rfl, rfl, rfl⟩, rfl, by simp; omega, by omega, rfl⟩

theorem seqOffset_ok {buf : List Byte} {c c' : Lz4} (h : seqOffset buf c = .ok c') :
    SameBlock c c' ∧ c'.ip = c.ip + 2 ∧ c'.ip ≤ buf.length ∧ c'.out = c.out := by
  unfold seqOffset at h
  split at h
  · cases h
  · cases h
    exact ⟨⟨rfl, rfl, rfl, rfl, rfl, rfl⟩, rfl, by simp; omega, rfl⟩

theorem seqMatchLength_ok {buf : List Byte} {c c' : Lz4} (h : seqMatchLength buf c = .ok c') :
    SameBlock c c' ∧ c.ip ≤ c'.ip ∧ c'.out = c.out ∧ 4 ≤ c'.ml := by
  unfold seqMatchLength at h
  split at h
  · split at h
    · cases h
    · cases h
      exact ⟨⟨rfl, rfl, rfl, rfl, rfl, rfl⟩, Nat.le_add_right _ _, rfl, by simp⟩
  · cases h
    exact ⟨⟨rfl, rfl, rfl, rfl, rfl, rfl⟩, le_refl _, rfl, by simp⟩

/-- A match copy adds exactly the match length. -/
theorem copyMatch_length {out out' : List Byte} {a n : Nat} (h : copyMatch out a n = some out') :
    out'.length = out.length + n := by
  induction n generalizing out a with
  | zero =>
    cases h
    rfl
  | succ n ih =>
    simp only [copyMatch] at h
    split at h
    · cases h
    · rw [ih h]
      simp
      omega

/-- A match is copied only with a legal offset and within `dlen` (R211). -/
theorem seqMatchCopy_ok {c c' : Lz4} (h : seqMatchCopy c = .ok c') :
    SameBlock c c' ∧ c'.ip = c.ip ∧ c'.op ≤ c.dlen.toNat ∧ c.off ≠ 0 ∧ 0 ≤ c.start := by
  unfold seqMatchCopy at h
  by_cases h0 : c.off = 0 ∨ c.start < 0
  · rw [if_pos h0] at h
    cases h
  · by_cases h1 : (c.dlen.toNat : Int) - c.op < c.ml
    · rw [if_neg h0, if_pos h1] at h
      cases h
    · rw [if_neg h0, if_neg h1] at h
      cases hc : copyMatch c.out c.start.toNat c.ml with
      | none => simp [hc] at h
      | some out =>
        rw [hc] at h
        cases h
        have := copyMatch_length hc
        refine ⟨⟨rfl, rfl, rfl, rfl, rfl, rfl⟩, rfl, ?_, by tauto, by omega⟩
        simp only [Lz4.op] at h1 ⊢
        omega

theorem seqMatch_ok {buf : List Byte} {c c' : Lz4} (h : seqMatch buf c = .ok c') :
    SameBlock c c' ∧ c.ip < c'.ip ∧ c'.op ≤ c.dlen.toNat := by
  unfold seqMatch at h
  split at h
  · cases h
  · rename_i c1 h1
    split at h
    · cases h
    · rename_i c2 h2
      obtain ⟨s1, i1, -, -⟩ := seqOffset_ok h1
      obtain ⟨s2, i2, -, -⟩ := seqMatchLength_ok h2
      obtain ⟨s3, i3, o3, -, -⟩ := seqMatchCopy_ok h
      refine ⟨(s1.trans s2).trans s3, by omega, ?_⟩
      rw [← s1.dlen, ← s2.dlen]
      exact o3

/-- Everything a whole sequence can answer: the block is the same, `ip` has moved forward, the output
has not passed `dlen`. -/
theorem seqBody_ok {buf : List Byte} {l m : Nat} {c c' : Lz4} (h : seqBody buf l m c = .ok c') :
    SameBlock c c' ∧ c.ip < c'.ip ∧ c'.op ≤ c.dlen.toNat := by
  unfold seqBody at h
  split at h
  · cases h
  · rename_i c1 h1
    split at h
    · cases h
    · rename_i c2 h2
      obtain ⟨s1, i1, o1⟩ := seqLiteralLength_ok h1
      obtain ⟨s2, i2, -, d2, o2⟩ := seqLiterals_ok h2
      have s12 := ((seqToken_sameBlock l m c).trans s1).trans s2
      have i0 : (seqToken l m c).ip = c.ip + 1 := rfl
      split at h
      · obtain ⟨s3, i3, o3⟩ := seqMatch_ok h
        refine ⟨s12.trans s3, by omega, ?_⟩
        rw [← s12.dlen]
        exact o3
      · cases h
        refine ⟨s12, by omega, ?_⟩
        have hd := s12.dlen
        have hl : (memRead buf c1.ip c1.lit).length ≤ c1.lit := by simp [memRead]
        have hd1 := s2.dlen
        simp only [Lz4.op, o2, List.length_append] at d2 ⊢
        rw [← hd, hd1]
        omega

/-- When `seqLiterals` raises BufferUnderrun: the run passes the block end (R207). -/
theorem seqLiterals_underrun {buf : List Byte} {c : Lz4} (h : c.blockEnd < c.ip + c.lit) :
    seqLiterals buf c = .error .bufferUnderrun := by
  unfold seqLiterals
  rw [if_pos (by omega)]

/-- When `seqLiterals` raises MalformedStream: the run fits the block and passes the output (R207). -/
theorem seqLiterals_malformed {buf : List Byte} {c : Lz4} (h : c.ip + c.lit ≤ c.blockEnd)
    (ho : c.dlen.toNat < c.op + c.lit) : seqLiterals buf c = .error .malformedStream := by
  unfold seqLiterals
  rw [if_neg (by omega), if_pos (by omega)]

/-- When `seqLiterals` copies: the run fits both (R207). -/
theorem seqLiterals_copy {buf : List Byte} {c : Lz4} (h : c.ip + c.lit ≤ c.blockEnd)
    (ho : c.op + c.lit ≤ c.dlen.toNat) :
    seqLiterals buf c = .ok { c with out := c.out ++ memRead buf c.ip c.lit, ip := c.ip + c.lit } := by
  unfold seqLiterals
  rw [if_neg (by omega), if_neg (by omega)]

/-- When `seqOffset` raises: the two bytes do not lie in the buffer (R209). -/
theorem seqOffset_underrun {buf : List Byte} {c : Lz4} (h : buf.length < c.ip + 2) :
    seqOffset buf c = .error .bufferUnderrun := by
  unfold seqOffset
  rw [if_pos h]

/-- When `seqMatchCopy` raises: a zero offset, one beyond the output, or a match beyond `dlen` (R211). -/
theorem seqMatchCopy_malformed {c : Lz4}
    (h : c.off = 0 ∨ c.start < 0 ∨ c.dlen.toNat < c.op + c.ml) :
    seqMatchCopy c = .error .malformedStream := by
  unfold seqMatchCopy
  by_cases h1 : c.off = 0 ∨ c.start < 0
  · rw [if_pos h1]
  · rw [if_neg h1, if_pos (by rw [← or_assoc] at h; have := h.resolve_left h1; omega)]

/-- When `seqMatchCopy` copies (R211). -/
theorem seqMatchCopy_copy {c : Lz4} {out : List Byte} (h1 : c.off ≠ 0) (h2 : 0 ≤ c.start)
    (h3 : c.op + c.ml ≤ c.dlen.toNat) (h4 : copyMatch c.out c.start.toNat c.ml = some out) :
    seqMatchCopy c = .ok { c with out := out } := by
  unfold seqMatchCopy
  rw [if_neg (not_or.mpr ⟨h1, by omega⟩), if_neg (by omega), h4]

/-- The end checks pass exactly when the block was consumed and the output produced exactly (R212). -/
theorem blockEndCheck_ok_iff {c : Lz4} {u : Unit} :
    blockEndCheck c = .ok u ↔ c.ip = c.blockEnd ∧ c.op = c.dlen.toNat := by
  unfold blockEndCheck
  split
  · simp_all
  · split <;> simp_all

theorem blockEndCheck_error {c : Lz4} {e : FaultKind} (h : blockEndCheck c = .error e) :
    e = .malformedStream := by
  unfold blockEndCheck at h
  split at h
  · cases h; rfl
  · split at h
    · cases h; rfl
    · cases h

/-- Everything the end of a block can do: MalformedStream, or the completion with exactly `dlen` bytes. -/
theorem lz4Finish_cases (c : Lz4) (s : State) :
    lz4Finish c s = takeFault .malformedStream s ∨
      (c.ip = c.blockEnd ∧ c.op = c.dlen.toNat ∧
        lz4Finish c s = lz4Commit c.k c.d c.src c.blockEnd c.out s) := by
  unfold lz4Finish
  cases h : blockEndCheck c with
  | error e =>
    cases blockEndCheck_error h
    exact .inl rfl
  | ok u =>
    have := blockEndCheck_ok_iff.mp h
    exact .inr ⟨this.1, this.2, rfl⟩

/-- What one sequence of a block can lead to: a fault, the block going on further ahead, or its
completion with exactly `dlen` bytes. -/
inductive SeqResult (c : Lz4) (s : State) : State → Prop
  | fault (kind : FaultKind) : SeqResult c s (takeFault kind s)
  | more (c' : Lz4) (same : SameBlock c c') (ahead : c.ip < c'.ip) (due : c'.ip < c'.blockEnd)
      (output : c'.op ≤ c'.dlen.toNat) : SeqResult c s { s with lz4 := some c' }
  | done (out : List Byte) (exact_ : out.length = c.dlen.toNat) :
      SeqResult c s (lz4Commit c.k c.d c.src c.blockEnd out s)

theorem lz4Finish_result {c c' : Lz4} {s : State} (h : SameBlock c c') : SeqResult c s (lz4Finish c' s) := by
  rcases lz4Finish_cases c' s with h' | ⟨-, ho, h'⟩
  · rw [h']
    exact .fault _
  · rw [h', h.k, h.d, h.src, h.blockEnd]
    exact .done _ (by rw [← h.dlen]; exact ho)

/-- Everything LZ4.SEQ can do to a block in progress (R204 to R213). -/
theorem lz4Sequence_result (l m : Nat) (c : Lz4) (s : State) : SeqResult c s (lz4Sequence l m c s) := by
  unfold lz4Sequence
  split
  · exact .fault _
  · split
    · exact .fault _
    · rename_i buf _ c' h
      obtain ⟨hs, hi, ho⟩ := seqBody_ok h
      split
      · rename_i hd
        exact .more c' hs hi hd (by rw [hs.dlen]; exact ho)
      · exact lz4Finish_result hs

/-- Everything the fetch and execution of the next sequence can do. -/
theorem lz4Next_result (c : Lz4) (s : State) : SeqResult c s (lz4Next c s) := by
  unfold lz4Next
  split
  · split
    · exact .fault _
    · exact lz4Sequence_result _ _ _ _
  · exact lz4Finish_result ⟨rfl, rfl, rfl, rfl, rfl, rfl⟩

/-- Everything the loop of LZ4D can end in, with enough sequences allowed: a fault or the completion. The
block state is gone, and only the completion touches slot, cursor and RES (R204, R212, R213). -/
theorem lz4Loop_result {n : Nat} {c : Lz4} {s : State} (hn : c.blockEnd < c.ip + n + 1) (hn0 : 0 < n) :
    (∃ kind, lz4Loop n { s with lz4 := some c } = takeFault kind s) ∨
      (∃ out : List Byte, out.length = c.dlen.toNat ∧
        lz4Loop n { s with lz4 := some c } = lz4Commit c.k c.d c.src c.blockEnd out s) := by
  have loop_none : ∀ (n : Nat) (t : State), t.lz4 = none → lz4Loop n t = t := by
    intro n t ht
    cases n <;> simp [lz4Loop, ht]
  induction n generalizing c with
  | zero => omega
  | succ n ih =>
    simp only [lz4Loop]
    generalize ht : lz4Next c { s with lz4 := some c } = t
    have hr := lz4Next_result c { s with lz4 := some c }
    rw [ht] at hr
    cases hr with
    | fault kind =>
      rw [loop_none _ _ rfl]
      exact .inl ⟨kind, rfl⟩
    | done out ho =>
      rw [loop_none _ _ rfl]
      exact .inr ⟨out, ho, rfl⟩
    | more c' hs hi hd ho =>
      have := ih (c := c') (by have := hs.blockEnd; omega) (by have := hs.blockEnd; omega)
      rw [hs.k, hs.d, hs.src, hs.dlen, hs.blockEnd] at this
      exact this

end Sys2Proof.Machine
end

