-- ==== Sys2Proof/Laws/Exec.lean ====
section
/-! SUPPORT. What a command can answer, said once for all commands: the one inversion lemma of `exec`. -/

namespace Sys2Proof.Machine

/-- Everything a command of the host can lead to. -/
inductive CommandResult (i : Instr) (s : State) : State → Prop
  /-- the faulted state (R269) -/
  | ignored (h : s.status ≠ .ok) : CommandResult i s s
  /-- a fault (R268) -/
  | fault (h : s.status = .ok) (kind : FaultKind) : CommandResult i s (takeFault kind s)
  /-- RESET (R121) -/
  | reset (h : i = .reset) : CommandResult i s (resetEngine s)
  /-- BLOAD (R122) -/
  | loaded (h : s.status = .ok) (d : Fin 16) (n : Word) (pl : List Byte) (hi : i = .bload d n pl)
      (free : s.slots[d.val]? = some .free) (exact_ : pl.length = n.toNat) :
      CommandResult i s (complete .unit (s.setSlot d.val (.alloc pl)))
  /-- BFREE (R123) -/
  | freed (h : s.status = .ok) (d : Fin 16) (hi : i = .bfree d) :
      CommandResult i s (complete .unit (freeSlot d.val s))
  /-- a result and no state change (R128, R240) -/
  | result (h : s.status = .ok) (r : Res) (wf : r.wf = true) : CommandResult i s (complete r s)
  /-- a result and one cursor written: every read, SEEK, ADV, CBIND, CLONE, the ILV32 family -/
  | moved (h : s.status = .ok) (r : Res) (wf : r.wf = true) (k : Fin 16) (b : Nat) (p : Int)
      (bind : (∃ buf, s.slots[b]? = some (.alloc buf)) ∨ ∃ (j : Fin 16) (q : Int), s.cursors[j.val]? = some (.bound b q)) :
      CommandResult i s (complete r (s.setCursor k.val (.bound b p)))
  /-- LZ4D (R213) -/
  | block (h : s.status = .ok) (k d : Fin 16) (hi : i = .lz4d k d) (b : Nat) (p : Int) (out buf : List Byte)
      (len : out.length < 2 ^ 32) (free : s.slots[d.val]? = some .free)
      (slot : s.slots[b]? = some (.alloc buf)) :
      CommandResult i s (lz4Commit k d b p out s)

/-- A read command, peek modifier included, that completes: only RES and the cursor it works on can
change, and with peek not even that. -/
theorem readCommand_result {i : Instr} {s t : State} {k : Fin 16} {peek : Bool}
    {body : Opened → State → Except FaultKind (State × Res)}
    (hb : ∀ o u r, body o s = .ok (u, r) →
      r.wf = true ∧ (u = s ∨ ∃ p, u = s.setCursor k.val (.bound o.bnd p)))
    (h : readCommand k peek body s = .next t) : CommandResult i s t := by
  unfold readCommand at h
  rcases command_cases _ s with ⟨hs, hc⟩ | ⟨hs, kind, -, hc⟩ | ⟨hs, u, r, hbody, hc⟩
  · rw [hc] at h
    cases h
    exact .ignored hs
  · rw [hc] at h
    cases h
    exact .fault hs kind
  · rw [hc] at h
    cases h
    split at hbody
    · cases hbody
    · rename_i o ho
      obtain ⟨hcur, hslot⟩ := openCursor_ok_iff.mp ho
      split at hbody
      · cases hbody
      · rename_i v r' hv
        obtain ⟨hw, hu⟩ := hb o v r' hv
        cases hbody
        rcases hu with rfl | ⟨p, rfl⟩
        · cases peek
          · exact .result hs _ hw
          · exact .moved hs _ hw k o.bnd o.pos (.inl ⟨_, hslot⟩)
        · cases peek
          · exact .moved hs _ hw k o.bnd p (.inl ⟨_, hslot⟩)
          · have : (s.setCursor k.val (.bound o.bnd p)).setCursor k.val (.bound o.bnd o.pos) =
                s.setCursor k.val (.bound o.bnd o.pos) := by
              simp [State.setCursor, List.set_set]
            rw [if_pos rfl, this]
            exact .moved hs _ hw k o.bnd o.pos (.inl ⟨_, hslot⟩)

theorem readBytes_result {i : Instr} {s t : State} {k : Fin 16} {peek : Bool} {n : Nat}
    {f : List Byte → Res} (hf : ∀ b, (f b).wf = true) (h : readBytes k peek n f s = .next t) :
    CommandResult i s t := by
  refine readCommand_result (fun o u r hb => ?_) h
  unfold fetchBody at hb
  split at hb
  · cases hb
  · rename_i x v hx
    have := (fetchBytes_ok_iff.mp hx).2
    cases hb
    cases this
    exact ⟨hf _, .inr ⟨_, rfl⟩⟩

theorem withPayload_next {n : Word} {pl : List Byte} {run : State → Host.Outcome State Fault Refusal}
    {s t : State} (h : withPayload n pl run s = .next t) :
    run s = .next t ∧ (s.status = .ok → pl.length = n.toNat) := by
  unfold withPayload at h
  split at h
  · cases h
  · rename_i hn
    refine ⟨h, fun hs => ?_⟩
    by_contra hne
    exact hn ⟨hs, hne⟩

theorem moveCursor_result {i : Instr} {s t : State} {k : Fin 16} {f : Int → Int}
    (h : moveCursor k f s = .next t) : CommandResult i s t := by
  unfold moveCursor at h
  rcases command_cases _ s with ⟨hs, hc⟩ | ⟨hs, kind, -, hc⟩ | ⟨hs, u, r, hbody, hc⟩
  · rw [hc] at h
    cases h
    exact .ignored hs
  · rw [hc] at h
    cases h
    exact .fault hs kind
  · rw [hc] at h
    cases h
    split at hbody
    · cases hbody
    · rename_i b p hk
      cases hbody
      exact .moved hs _ rfl k b _ (.inr ⟨k, p, cursorOf_ok_iff.mp hk⟩)

theorem words32_result {i : Instr} {s t : State} {k : Fin 16} {n : Nat} {f : List Word → Res}
    (hf : ∀ w, (f w).wf = true) (h : readCommand k false (words32Body k n f) s = .next t) :
    CommandResult i s t := by
  refine readCommand_result (fun o u r hb => ?_) h
  unfold words32Body at hb
  split at hb
  · cases hb
  · split at hb
    · cases hb
    · cases hb
      exact ⟨hf _, .inr ⟨_, rfl⟩⟩

/-- Everything LZ4D can answer (R200 to R213): ignored, a fault, or the completion in full. -/
theorem execLz4d_result {k d : Fin 16} {s t : State} (h : execLz4d k d s = .next t) :
    CommandResult (.lz4d k d) s t := by
  unfold execLz4d at h
  split at h
  · rename_i hs
    cases h
    exact .ignored (by simp [hs])
  · rename_i hs
    split at h
    · cases h
      exact .fault hs _
    · rename_i u hu
      cases h
      unfold lz4Start at hu
      split at hu
      · cases hu
      · rename_i o ho
        obtain ⟨hcur, hslot⟩ := openCursor_ok_iff.mp ho
        split at hu
        · cases hu
        · rename_i hf
          have hfree := needFree_ok_iff.mp hf
          split at hu
          · cases hu
          · simp only [] at hu
            split at hu
            · split at hu
              · cases hu
              · cases hu
                refine .block hs k d rfl _ _ _ _ ?_ hfree hslot
                have := (leWord (memRead o.buf (o.pos.toNat + 4) 4)).isLt
                simp [memRead] at *
                omega
            · rename_i hc0
              split at hu
              · cases hu
              · cases hu
                have hpos : 0 < (leWord (memRead o.buf o.pos.toNat 4)).toNat := by
                  rcases Nat.eq_zero_or_pos (leWord (memRead o.buf o.pos.toNat 4)).toNat with h0 | h0
                  · exact absurd (BitVec.eq_of_toNat_eq (by simpa using h0)) hc0
                  · exact h0
                have hl := lz4Loop_result (c := lz4Entry k d o.bnd (leWord (memRead o.buf o.pos.toNat 4))
                  (leWord (memRead o.buf (o.pos.toNat + 4) 4)) (o.pos.toNat + 12)) (s := s)
                  (n := (leWord (memRead o.buf o.pos.toNat 4)).toNat) (by simp [lz4Entry]) hpos
                rcases hl with ⟨kind, hl⟩ | ⟨out, hlen, hl⟩
                · simp only [lz4Fuel, lz4Entry] at hl ⊢
                  rw [hl]
                  exact .fault hs kind
                · simp only [lz4Fuel, lz4Entry] at hl ⊢
                  rw [hl]
                  refine .block hs k d rfl _ _ _ _ ?_ hfree hslot
                  rw [hlen]
                  exact (leWord (memRead o.buf (o.pos.toNat + 4) 4)).isLt

/-- THE inversion lemma of `exec` for the commands of the host: whatever it answers is one of these. -/
theorem exec_result {i : Instr} {s t : State} (hi : isSequence i = false) (h : exec i s = .next t) :
    CommandResult i s t := by
  cases i with
  | reset =>
    cases h
    exact .reset rfl
  | bload d n pl =>
    obtain ⟨h, hl⟩ := withPayload_next h
    rcases command_cases _ s with ⟨hs, hc⟩ | ⟨hs, kind, -, hc⟩ | ⟨hs, u, r, hbody, hc⟩
    · rw [hc] at h
      cases h
      exact .ignored hs
    · rw [hc] at h
      cases h
      exact .fault hs kind
    · rw [hc] at h
      cases h
      split at hbody
      · cases hbody
      · rename_i hf
        cases hbody
        exact .loaded hs d n pl rfl (needFree_ok_iff.mp hf) (hl hs)
  | bfree d =>
    simp only [exec, execBfree] at h
    rcases command_cases _ s with ⟨hs, hc⟩ | ⟨hs, kind, -, hc⟩ | ⟨hs, u, r, hbody, hc⟩
    · rw [hc] at h
      cases h
      exact .ignored hs
    · rw [hc] at h
      cases h
      exact .fault hs kind
    · rw [hc] at h
      cases h
      split at hbody
      · cases hbody
      · cases hbody
        exact .freed hs d rfl
  | cbind k d =>
    simp only [exec, execCbind] at h
    rcases command_cases _ s with ⟨hs, hc⟩ | ⟨hs, kind, -, hc⟩ | ⟨hs, u, r, hbody, hc⟩
    · rw [hc] at h
      cases h
      exact .ignored hs
    · rw [hc] at h
      cases h
      exact .fault hs kind
    · rw [hc] at h
      cases h
      split at hbody
      · cases hbody
      · split at hbody
        · cases hbody
        · rename_i ha
          cases hbody
          exact .moved hs _ rfl k d.val 0 (.inl (needAlloc_ok_iff.mp ha))
  | clone k d =>
    simp only [exec, execClone] at h
    rcases command_cases _ s with ⟨hs, hc⟩ | ⟨hs, kind, -, hc⟩ | ⟨hs, u, r, hbody, hc⟩
    · rw [hc] at h
      cases h
      exact .ignored hs
    · rw [hc] at h
      cases h
      exact .fault hs kind
    · rw [hc] at h
      cases h
      split at hbody
      · cases hbody
      · rename_i b p hk
        split at hbody
        · cases hbody
        · cases hbody
          exact .moved hs _ rfl d b p (.inr ⟨k, p, cursorOf_ok_iff.mp hk⟩)
  | seek k n => exact moveCursor_result h
  | adv k n => exact moveCursor_result h
  | rem k =>
    simp only [exec, execRem] at h
    rcases command_cases _ s with ⟨hs, hc⟩ | ⟨hs, kind, -, hc⟩ | ⟨hs, u, r, hbody, hc⟩
    · rw [hc] at h
      cases h
      exact .ignored hs
    · rw [hc] at h
      cases h
      exact .fault hs kind
    · rw [hc] at h
      cases h
      split at hbody
      · cases hbody
      · cases hbody
        exact .result hs _ rfl
  | rdu8 k p | rdu16le k p | rdu16be k p | rdu32le k p | rdu32be k p | rdi8 k p | rdi16le k p
  | rdi16be k p | rdi32le k p | rdi32be k p | rdstr k p n => exact readBytes_result (fun _ => rfl) h
  | rdf32le k p | rdf32be k p =>
    refine readBytes_result (fun _ => ?_) h
    exact f32_wf _
  | rdf64le k p | rdf64be k p =>
    refine readBytes_result (fun _ => ?_) h
    exact f64_wf _ _
  | rdvfle k p | rdvfbe k p =>
    refine readBytes_result (fun _ => ?_) h
    exact vf32_wf _
  | rdspan k p n =>
    refine readCommand_result (fun o u r hb => ?_) h
    unfold spanBody at hb
    split at hb
    · cases hb
    · cases hb
      exact ⟨rfl, .inr ⟨_, rfl⟩⟩
  | matchb k p n pat => exact readBytes_result (fun _ => rfl) (withPayload_next h).1
  | lz4d k d => exact execLz4d_result h
  | ilv k bc w =>
    refine readCommand_result (fun o u r hb => ?_) h
    unfold ilvBody at hb
    split at hb
    · cases hb
    · split at hb
      · cases hb
      · split at hb
        · cases hb
        · cases hb
          exact ⟨rfl, .inl rfl⟩
  | ilv32 k c => exact words32_result (fun _ => rfl) h
  | ilv32i k c =>
    refine words32_result (fun w => ?_) h
    simp only [Res.wf, List.all_map, List.all_eq_true]
    intro x _
    have := zz_range x
    simp only [Function.comp, Bool.and_eq_true, decide_eq_true_eq]
    exact this
  | ilv32f k c =>
    refine words32_result (fun w => ?_) h
    simp only [Res.wf, List.all_map, List.all_eq_true]
    intro x _
    exact vf32_wf x
  | lz4seq l m => cases hi

end Sys2Proof.Machine
end

