-- ==== Sys2Proof/Laws/PerInstr.lean ====
section
/-! SUPPORT. One statement for every instruction: the form of its encoding. -/

namespace Sys2Proof.Laws.EncodeForm

open Sys2Proof

/-- The must-be-zero bits of the command word are zero in every encoded command (R81, R86), and only a
sequence is encoded as a token (R91). -/
def Statement (i : Instr) : Prop :=
  match encode i with
  | .packet p => reservedZero p.cw = true
  | .token b => decodeSeq b = i

/-- A command word made of an opcode byte and the fields of R81 has its must-be-zero bits zero. -/
theorem cwOf_reserved {opc : Nat} (h : opc < 256) (p : Bool) (k d : Fin 16) :
    reservedZero (cwOf opc p k d) = true := by
  have hk := k.isLt
  have hd := d.isLt
  simp only [reservedZero, bits, cwOf, BitVec.toNat_ofNat, Bool.and_eq_true, beq_iff_eq]
  cases p <;> simp only [Bool.toNat_true, Bool.toNat_false] <;> omega

theorem reset : Statement (.reset) := cwOf_reserved (by decide) _ _ _

theorem bload (d : Fin 16) (n : Word) (payload : List Byte) : Statement (.bload d n payload) := cwOf_reserved (by decide) _ _ _

theorem bfree (d : Fin 16) : Statement (.bfree d) := cwOf_reserved (by decide) _ _ _

theorem cbind (k : Fin 16) (d : Fin 16) : Statement (.cbind k d) := cwOf_reserved (by decide) _ _ _

theorem clone (k : Fin 16) (d : Fin 16) : Statement (.clone k d) := cwOf_reserved (by decide) _ _ _

theorem seek (k : Fin 16) (n : Word) : Statement (.seek k n) := cwOf_reserved (by decide) _ _ _

theorem adv (k : Fin 16) (n : Word) : Statement (.adv k n) := cwOf_reserved (by decide) _ _ _

theorem rem (k : Fin 16) : Statement (.rem k) := cwOf_reserved (by decide) _ _ _

theorem rdu8 (k : Fin 16) (peek : Bool) : Statement (.rdu8 k peek) := cwOf_reserved (by decide) _ _ _

theorem rdu16le (k : Fin 16) (peek : Bool) : Statement (.rdu16le k peek) := cwOf_reserved (by decide) _ _ _

theorem rdu16be (k : Fin 16) (peek : Bool) : Statement (.rdu16be k peek) := cwOf_reserved (by decide) _ _ _

theorem rdu32le (k : Fin 16) (peek : Bool) : Statement (.rdu32le k peek) := cwOf_reserved (by decide) _ _ _

theorem rdu32be (k : Fin 16) (peek : Bool) : Statement (.rdu32be k peek) := cwOf_reserved (by decide) _ _ _

theorem rdi8 (k : Fin 16) (peek : Bool) : Statement (.rdi8 k peek) := cwOf_reserved (by decide) _ _ _

theorem rdi16le (k : Fin 16) (peek : Bool) : Statement (.rdi16le k peek) := cwOf_reserved (by decide) _ _ _

theorem rdi16be (k : Fin 16) (peek : Bool) : Statement (.rdi16be k peek) := cwOf_reserved (by decide) _ _ _

theorem rdi32le (k : Fin 16) (peek : Bool) : Statement (.rdi32le k peek) := cwOf_reserved (by decide) _ _ _

theorem rdi32be (k : Fin 16) (peek : Bool) : Statement (.rdi32be k peek) := cwOf_reserved (by decide) _ _ _

theorem rdf32le (k : Fin 16) (peek : Bool) : Statement (.rdf32le k peek) := cwOf_reserved (by decide) _ _ _

theorem rdf32be (k : Fin 16) (peek : Bool) : Statement (.rdf32be k peek) := cwOf_reserved (by decide) _ _ _

theorem rdf64le (k : Fin 16) (peek : Bool) : Statement (.rdf64le k peek) := cwOf_reserved (by decide) _ _ _

theorem rdf64be (k : Fin 16) (peek : Bool) : Statement (.rdf64be k peek) := cwOf_reserved (by decide) _ _ _

theorem rdvfle (k : Fin 16) (peek : Bool) : Statement (.rdvfle k peek) := cwOf_reserved (by decide) _ _ _

theorem rdvfbe (k : Fin 16) (peek : Bool) : Statement (.rdvfbe k peek) := cwOf_reserved (by decide) _ _ _

theorem rdstr (k : Fin 16) (peek : Bool) (n : Word) : Statement (.rdstr k peek n) := cwOf_reserved (by decide) _ _ _

theorem rdspan (k : Fin 16) (peek : Bool) (n : Word) : Statement (.rdspan k peek n) := cwOf_reserved (by decide) _ _ _

theorem matchb (k : Fin 16) (peek : Bool) (n : Word) (pat : List Byte) : Statement (.matchb k peek n pat) := cwOf_reserved (by decide) _ _ _

theorem lz4d (k : Fin 16) (d : Fin 16) : Statement (.lz4d k d) := cwOf_reserved (by decide) _ _ _

theorem ilv (k : Fin 16) (byteCount : Word) (width : Word) : Statement (.ilv k byteCount width) := cwOf_reserved (by decide) _ _ _

theorem ilv32 (k : Fin 16) (count : Word) : Statement (.ilv32 k count) := cwOf_reserved (by decide) _ _ _

theorem ilv32i (k : Fin 16) (count : Word) : Statement (.ilv32i k count) := cwOf_reserved (by decide) _ _ _

theorem ilv32f (k : Fin 16) (count : Word) : Statement (.ilv32f k count) := cwOf_reserved (by decide) _ _ _

theorem lz4seq (l m : Fin 16) : Statement (.lz4seq l m) := by
  have hl := l.isLt
  have hm := m.isLt
  simp only [Statement, encode, decodeSeq, bits, BitVec.toNat_ofNat, Instr.lz4seq.injEq, Fin.ext_iff,
    Fin.val_ofNat]
  omega

end Sys2Proof.Laws.EncodeForm
end

