-- ==== Sys2Proof/Tests/Slice0.lean ====
section
/-! SUPPORT. Tests: ill-formed terms that WellFormed refuses, a word for every constructor written from
R81, R84 and R91, one-step tests from spec/95_test_vectors.md, and for every obligation with hypotheses a
witness that meets them. -/

namespace Sys2Proof.Tests

open Sys2Proof Sys2Proof.Machine

/-! ### Helpers -/

/-- An engine with NBUF = NCUR = 4, slot 0 holding `buf`, cursor 0 bound to it at `p`. -/
def demo (buf : List Byte) (p : Int) : State :=
  { resetWith 4 4 with
    slots := [.alloc buf, .free, .free, .free]
    cursors := [.bound 0 p, .unbound, .unbound, .unbound] }

/-- The same engine, Faulted. -/
def halted : State := { demo [] 0 with status := .faulted .illegalCommand }

/-- The state an outcome leads to; an empty engine where it stops. -/
def after : Host.Outcome State Fault Refusal → State
  | .next t => t
  | _ => resetWith 0 0

/-- The result of an instruction at a state. -/
def result (i : Instr) (s : State) : Res := (after (exec i s)).res

/-- The result of an instruction at a state, and where it leaves cursor 0. -/
def run (i : Instr) (s : State) : Res × Option Cursor :=
  ((after (exec i s)).res, (after (exec i s)).cursors[0]?)

/-- The delivered patterns of an instruction's floats. -/
def patterns (i : Instr) (s : State) : List Nat := (after (exec i s)).delivered.map BitVec.toNat

/-- STATUS, cursor 0 and slot 1 after an instruction. -/
def ending (i : Instr) (s : State) : Status × Option Cursor × Option Slot :=
  ((after (exec i s)).status, (after (exec i s)).cursors[0]?, (after (exec i s)).slots[1]?)

/-- The reason a packet is rejected by an engine with NBUF = NCUR = 4. -/
def reason (cw a0 a1 : Word) (pl : List Byte) : Option Illegal :=
  match decode 4 4 ⟨cw, a0, a1, pl⟩ with
  | .ok _ => none
  | .error e => some e

/-- The buffer of the integer vectors (95_test_vectors.md 2.3). -/
def ints : List Byte := [0x80, 0x01, 0xFF, 0x7F, 0xFE, 0xFF, 0xFF, 0xFF]

/-- The buffer of the double vectors (95_test_vectors.md 2.4). -/
def doubles : List Byte := [0x18, 0x2D, 0x44, 0x54, 0xFB, 0x21, 0x09, 0x40]

/-- The buffer of the byte vectors (95_test_vectors.md 2.5). -/
def text : List Byte := [0x3C, 0x72, 0x6F]

/-- The buffer of the word vectors (95_test_vectors.md 2.8). -/
def planes : List Byte := [0x00, 0x00, 0x7F, 0x00, 0x00, 0x00, 0x00, 0x00, 0x00, 0x02, 0x03, 0x01, 0xEE]

/-- Vector L-V2: an overlapping match. -/
def overlapping : List Byte := headerBytes 7 8 0 0 0 0 ++ [0x31, 0x41, 0x42, 0x43, 0x01, 0x00, 0x00]

/-! ### WellFormed refuses -/

theorem test_wf_cursor_range : (Instr.rdu8 4 false).wf 4 4 = false := by decide
theorem test_wf_slot_range : (Instr.bfree 4).wf 4 16 = false := by decide
theorem test_wf_clone_destination : (Instr.clone 0 4).wf 16 4 = false := by decide
theorem test_wf_cbind_slot : (Instr.cbind 0 4).wf 4 16 = false := by decide
theorem test_wf_bload_payload : (Instr.bload 0 2 [0x3C]).wf 4 4 = false := by decide
theorem test_wf_match_payload : (Instr.matchb 0 false 1 [0x3C, 0x72]).wf 4 4 = false := by decide

/-! ### Decoding: a word for every constructor, written from R81, R84, R91 -/

theorem test_decode_reset : decode 4 4 ⟨0x00000001, 0, 0, []⟩ = .ok .reset := by rfl
theorem test_decode_bload : decode 4 4 ⟨0x00000002, 1, 0, [0xAB]⟩ = .ok (.bload 0 1 [0xAB]) := by rfl
theorem test_decode_bfree : decode 4 4 ⟨0x00020003, 0, 0, []⟩ = .ok (.bfree 2) := by rfl
theorem test_decode_cbind : decode 4 4 ⟨0x00013004, 0, 0, []⟩ = .ok (.cbind 3 1) := by rfl
theorem test_decode_clone : decode 4 4 ⟨0x00021005, 0, 0, []⟩ = .ok (.clone 1 2) := by rfl
theorem test_decode_seek : decode 4 4 ⟨0x00001006, 14, 0, []⟩ = .ok (.seek 1 14) := by rfl
theorem test_decode_adv : decode 4 4 ⟨0x00000007, 0xFFFFFFFF, 0, []⟩ = .ok (.adv 0 0xFFFFFFFF) := by rfl
theorem test_decode_rem : decode 4 4 ⟨0x00002008, 0, 0, []⟩ = .ok (.rem 2) := by rfl
theorem test_decode_rdu8 : decode 4 4 ⟨0x00001010, 0, 0, []⟩ = .ok (.rdu8 1 false) := by rfl
theorem test_decode_rdu16le : decode 4 4 ⟨0x00001111, 0, 0, []⟩ = .ok (.rdu16le 1 true) := by rfl
theorem test_decode_rdu16be : decode 4 4 ⟨0x00002012, 0, 0, []⟩ = .ok (.rdu16be 2 false) := by rfl
theorem test_decode_rdu32le : decode 4 4 ⟨0x00001113, 0, 0, []⟩ = .ok (.rdu32le 1 true) := by rfl
theorem test_decode_rdu32be : decode 4 4 ⟨0x00003014, 0, 0, []⟩ = .ok (.rdu32be 3 false) := by rfl
theorem test_decode_rdi8 : decode 4 4 ⟨0x00000118, 0, 0, []⟩ = .ok (.rdi8 0 true) := by rfl
theorem test_decode_rdi16le : decode 4 4 ⟨0x00001019, 0, 0, []⟩ = .ok (.rdi16le 1 false) := by rfl
theorem test_decode_rdi16be : decode 4 4 ⟨0x0000211A, 0, 0, []⟩ = .ok (.rdi16be 2 true) := by rfl
theorem test_decode_rdi32le : decode 4 4 ⟨0x0000301B, 0, 0, []⟩ = .ok (.rdi32le 3 false) := by rfl
theorem test_decode_rdi32be : decode 4 4 ⟨0x0000011C, 0, 0, []⟩ = .ok (.rdi32be 0 true) := by rfl
theorem test_decode_rdf32le : decode 4 4 ⟨0x00001020, 0, 0, []⟩ = .ok (.rdf32le 1 false) := by rfl
theorem test_decode_rdf32be : decode 4 4 ⟨0x00002121, 0, 0, []⟩ = .ok (.rdf32be 2 true) := by rfl
theorem test_decode_rdf64le : decode 4 4 ⟨0x00003022, 0, 0, []⟩ = .ok (.rdf64le 3 false) := by rfl
theorem test_decode_rdf64be : decode 4 4 ⟨0x00000123, 0, 0, []⟩ = .ok (.rdf64be 0 true) := by rfl
theorem test_decode_rdvfle : decode 4 4 ⟨0x00001024, 0, 0, []⟩ = .ok (.rdvfle 1 false) := by rfl
theorem test_decode_rdvfbe : decode 4 4 ⟨0x00002125, 0, 0, []⟩ = .ok (.rdvfbe 2 true) := by rfl
theorem test_decode_rdstr : decode 4 4 ⟨0x00003030, 5, 0, []⟩ = .ok (.rdstr 3 false 5) := by rfl
theorem test_decode_rdspan : decode 4 4 ⟨0x00000131, 5, 0, []⟩ = .ok (.rdspan 0 true 5) := by rfl
theorem test_decode_match :
    decode 4 4 ⟨0x00000132, 2, 0, [0x3C, 0x72]⟩ = .ok (.matchb 0 true 2 [0x3C, 0x72]) := by rfl
theorem test_decode_lz4d : decode 4 4 ⟨0x00010040, 0, 0, []⟩ = .ok (.lz4d 0 1) := by rfl
theorem test_decode_ilv : decode 4 4 ⟨0x00000050, 6, 2, []⟩ = .ok (.ilv 0 6 2) := by rfl
theorem test_decode_ilv32 : decode 4 4 ⟨0x00001051, 3, 0, []⟩ = .ok (.ilv32 1 3) := by rfl
theorem test_decode_ilv32i : decode 4 4 ⟨0x00002052, 3, 0, []⟩ = .ok (.ilv32i 2 3) := by rfl
theorem test_decode_ilv32f : decode 4 4 ⟨0x00000053, 3, 0, []⟩ = .ok (.ilv32f 0 3) := by rfl
theorem test_decode_lz4seq : decodeSeq 0x31 = .lz4seq 3 1 := by rfl

/-- The illegal packets of 95_test_vectors.md 2.1, a witness for each disjunct of
`IllegalEncodingsExactly`, the selects at the boundary NCUR = NBUF = 4 (R87). -/
theorem test_illegal_packets :
    reason 0x00000000 0 0 [] = some .unassignedOpcode ∧ reason 0x00000009 0 0 [] = some .unassignedOpcode ∧
    reason 0x00000054 0 0 [] = some .unassignedOpcode ∧ reason 0x00010140 0 0 [] = some .peekNotAllowed ∧
    reason 0x00000106 4 0 [] = some .peekNotAllowed ∧ reason 0x00000210 0 0 [] = some .reservedBits ∧
    reason 0x00100010 0 0 [] = some .reservedBits ∧ reason 0x00010010 0 0 [] = some .unusedField ∧
    reason 0x00000010 1 0 [] = some .unusedField ∧ reason 0x00000051 1 1 [] = some .unusedField ∧
    reason 0x00001001 0 0 [] = some .unusedField ∧ reason 0x00004010 0 0 [] = some .selectRange ∧
    reason 0x00040040 0 0 [] = some .selectRange ∧ reason 0x00040005 0 0 [] = some .selectRange := by decide

/-- A legal BLOAD whose payload is short is no illegal encoding (R83, U14). -/
theorem test_short_payload : reason 0x00000002 31 0 [] = some .payloadLength := by decide

/-- The default engine has 16 cursors and slots: select 15 is in range (R7). -/
theorem test_decodeTableWord :
    decodeTableWord 96 0x0000000200000006000FF050 = none ∧
    decodeTableWord 96 0x00000002000000060000F050 = some (.ilv 15 6 2) ∧
    decodeTableWord 8 0xF0 = some (.lz4seq 15 0) := by decide

/-- An instruction word placed where the step fetches runs as the next step. -/
theorem test_withFetchWord :
    (after (step (State.reset.withFetchWord 32 0x00000010))).status = .faulted .illegalCommand ∧
    (after (step (State.reset.withFetchWord 8 0xF0))).slots[1]? =
      some (.alloc (List.replicate 15 0)) := by decide +kernel

/-! ### One step each -/

theorem test_reset : after (exec .reset halted) = resetWith 4 4 := by decide +kernel
theorem test_bload :
    ending (.bload 1 2 [0xAB, 0xCD]) (demo [] 0) = (.ok, some (.bound 0 0), some (.alloc [0xAB, 0xCD])) := by
  decide +kernel
theorem test_bload_occupied : (ending (.bload 0 1 [0xAB]) (demo [] 0)).1 = .faulted .illegalCommand := by
  decide +kernel
theorem test_bfree : ending (.bfree 0) (demo text 1) = (.ok, some .unbound, some .free) := by decide +kernel
theorem test_cbind_rebinds : run (.cbind 0 0) (demo text 2) = (.unit, some (.bound 0 0)) := by decide +kernel
theorem test_clone : (after (exec (.clone 0 1) (demo text 2))).cursors[1]? = some (.bound 0 2) := by
  decide +kernel
theorem test_seek_beyond : run (.seek 0 9) (demo text 0) = (.unit, some (.bound 0 9)) := by decide +kernel
theorem test_adv_signed :
    run (.adv 0 0xFFFFFFFF) (demo text 0) = (.unit, some (.bound 0 (-1))) ∧
    run (.adv 0 0x80000000) (demo text 0) = (.unit, some (.bound 0 (-2147483648))) := by decide +kernel
theorem test_rem : run (.rem 0) (demo [1, 2, 3, 4] 9) = (.int (-5), some (.bound 0 9)) := by decide +kernel
theorem test_rdu8 : run (.rdu8 0 false) (demo ints 0) = (.int 128, some (.bound 0 1)) := by decide +kernel
theorem test_rdi8 : run (.rdi8 0 true) (demo ints 0) = (.int (-128), some (.bound 0 0)) := by decide +kernel
theorem test_rdu16le : run (.rdu16le 0 false) (demo ints 0) = (.int 384, some (.bound 0 2)) := by
  decide +kernel
theorem test_rdu16be : run (.rdu16be 0 false) (demo ints 0) = (.int 32769, some (.bound 0 2)) := by
  decide +kernel
theorem test_rdi16le : run (.rdi16le 0 false) (demo ints 4) = (.int (-2), some (.bound 0 6)) := by
  decide +kernel
theorem test_rdi16be : run (.rdi16be 0 false) (demo ints 0) = (.int (-32767), some (.bound 0 2)) := by
  decide +kernel
theorem test_rdu32le : run (.rdu32le 0 false) (demo ints 0) = (.int 2147418496, some (.bound 0 4)) := by
  decide +kernel
theorem test_rdu32be : run (.rdu32be 0 false) (demo ints 0) = (.int 2147614591, some (.bound 0 4)) := by
  decide +kernel
theorem test_rdi32le : run (.rdi32le 0 false) (demo ints 4) = (.int (-2), some (.bound 0 8)) := by
  decide +kernel
theorem test_rdi32be : run (.rdi32be 0 false) (demo ints 4) = (.int (-16777217), some (.bound 0 8)) := by
  decide +kernel
theorem test_rdf32le :
    patterns (.rdf32le 0 false) (demo [0xDB, 0x0F, 0x49, 0x40] 0) = [0x400921FB60000000] := by decide +kernel
theorem test_rdf32be_denormal :
    result (.rdf32be 0 false) (demo [0x00, 0x00, 0x80, 0x3F] 0) = .float .posZero := by decide +kernel
theorem test_rdf64le : patterns (.rdf64le 0 false) (demo doubles 0) = [0x400921FB54442D18] := by
  decide +kernel
theorem test_rdf64be : patterns (.rdf64be 0 false) (demo doubles 0) = [0x182D4454FB210940] := by
  decide +kernel
theorem test_rdf64be_nan :
    result (.rdf64be 0 false) (demo [0x7F, 0xF0, 0, 0, 0, 0, 0, 1] 0) = .float .nan := by decide +kernel
theorem test_rdvfle : patterns (.rdvfle 0 false) (demo [0, 0, 0, 0x7F] 0) = [0x3FF0000000000000] := by
  decide +kernel
theorem test_rdvfbe : result (.rdvfbe 0 false) (demo [0x7F, 0, 0, 1] 0) = .float (.fin (-1)) := by
  decide +kernel
theorem test_rdstr : run (.rdstr 0 false 3) (demo text 0) = (.bytes text, some (.bound 0 3)) := by
  decide +kernel
theorem test_rdspan : run (.rdspan 0 false 2) (demo text 1) = (.span 0 1 2, some (.bound 0 3)) := by
  decide +kernel
theorem test_match_advances :
    run (.matchb 0 false 2 [0x3C, 0x73]) (demo text 0) = (.bool false, some (.bound 0 2)) := by decide +kernel
theorem test_match_past_end :
    ending (.matchb 0 false 4 [0x3C, 0x72, 0x6F, 0x00]) (demo text 0) =
      (.faulted .bufferUnderrun, some (.bound 0 0), some .free) := by decide +kernel
/-- Vector L-V2 and the second instance of S3: the same output with and without the empty last sequence. -/
theorem test_lz4d_overlap :
    ending (.lz4d 0 1) (demo overlapping 0) =
      (.ok, some (.bound 0 19), some (.alloc [0x41, 0x42, 0x43, 0x43, 0x43, 0x43, 0x43, 0x43])) ∧
    ending (.lz4d 0 1) (demo (headerBytes 6 8 0 0 0 0 ++ [0x31, 0x41, 0x42, 0x43, 0x01, 0x00]) 0) =
      (.ok, some (.bound 0 18), some (.alloc [0x41, 0x42, 0x43, 0x43, 0x43, 0x43, 0x43, 0x43])) := by
  decide +kernel
/-- Vector L-E7: the offset overshoots the block end. -/
theorem test_lz4d_overshoot :
    ending (.lz4d 0 1) (demo (headerBytes 3 5 0 0 0 0 ++ [0x10, 0x41, 0x01, 0x00, 0x77]) 0) =
      (.faulted .malformedStream, some (.bound 0 0), some .free) := by decide +kernel
theorem test_ilv :
    run (.ilv 0 6 2) (demo [0x11, 0x22, 0x33, 0x44, 0x55, 0x66] 0) =
      (.elems [[0x11, 0x44], [0x22, 0x55], [0x33, 0x66]], some (.bound 0 0)) := by decide +kernel
theorem test_ilv_geometry_first :
    (ending (.ilv 0 7 2) (demo [0x11, 0x22, 0x33, 0x44, 0x55, 0x66] 0)).1 = .faulted .invalidGeometry := by
  decide +kernel
theorem test_ilv32 : run (.ilv32 0 3) (demo planes 0) = (.words [2, 3, 0x7F000001], some (.bound 0 12)) := by
  decide +kernel
/-- 4·count = 2^32 is not wrapped to 0. -/
theorem test_ilv32_no_wrap : (ending (.ilv32 0 0x40000000) (demo planes 0)).1 = .faulted .bufferUnderrun := by
  decide +kernel
theorem test_ilv32i : result (.ilv32i 0 3) (demo planes 0) = .ints [1, -2, -1065353217] := by decide +kernel
theorem test_ilv32f :
    result (.ilv32f 0 3) (demo [0x7F, 0x80, 0x83, 0, 0, 0x90, 0, 0, 0, 0, 1, 0] 0) =
      .floats [.fin 1, .fin (-2), .fin 25] := by decide +kernel
/-- Delivery of a zero-exponent double: half its fraction, a tie to even (95_test_vectors.md 2.4). -/
theorem test_deliver_halved :
    deliver 0 (f64 0x80000000 3) = 0x8000000000000002 ∧ deliver 0 (f64 0 1) = 0 ∧
    deliver 0 (f64 0x000FFFFF 0xFFFFFFFF) = 0x0008000000000000 := by decide +kernel
/-- The sequence of L-V2 in progress, entered at its first token. -/
theorem test_lz4seq :
    ((after (exec (.lz4seq 3 1)
      { demo overlapping 0 with lz4 := some (lz4Entry 0 1 0 7 8 12) })).lz4.map (·.out)) =
      some [0x41, 0x42, 0x43, 0x43, 0x43, 0x43, 0x43, 0x43] := by decide +kernel

/-! ### Witnesses: the hypotheses of each obligation are met together -/

theorem demo_ready (buf : List Byte) (p : Int) : Ready (demo buf p) 0 0 p buf := ⟨rfl, rfl, rfl⟩

theorem demo_inv : EngineInv (demo text 1) := by
  refine ⟨by decide, by decide, by decide, fun h => absurd rfl h, rfl, rfl, ?_⟩
  intro c h
  cases h

/-- The block of L-V2 in progress at its first token. -/
def block : Lz4 := lz4Entry 0 1 0 7 8 12

/-- The engine with that block in progress. -/
def busy : State := { demo overlapping 0 with lz4 := some block }

theorem witness_DecodeOfEncode :
    (Instr.clone 3 3).wf 4 4 = true ∧ (Instr.matchb 3 true 2 [0x3C, 0x72]).wf 4 4 = true := by decide

theorem witness_EncodeOfDecode : decode 4 4 ⟨0x00000050, 6, 2, []⟩ = .ok (.ilv 0 6 2) := rfl

/-- A packet issued to an idle engine. -/
def asked (p : Packet) : State := { demo text 0 with inbox := [.packet p, .reset] }

theorem witness_StepRunsDecodedPacket :
    (asked ⟨0x00000010, 0, 0, []⟩).lz4 = none ∧
    (asked ⟨0x00000010, 0, 0, []⟩).inbox = .packet ⟨0x00000010, 0, 0, []⟩ :: [.reset] ∧
    decode (asked ⟨0x00000010, 0, 0, []⟩).slots.length (asked ⟨0x00000010, 0, 0, []⟩).cursors.length
      ⟨0x00000010, 0, 0, []⟩ = .ok (.rdu8 0 false) := ⟨rfl, rfl, rfl⟩

theorem witness_StepRunsNextSequence :
    busy.lz4 = some block ∧ block.ip < block.blockEnd ∧
    busy.byteOf block.src block.ip = some (BitVec.ofNat 8 (16 * (3 : Fin 16).val + (1 : Fin 16).val)) := by
  decide

theorem witness_IllegalPacketRaises :
    (asked ⟨0x00000009, 0, 0, []⟩).lz4 = none ∧ (asked ⟨0x00000009, 0, 0, []⟩).status = .ok ∧
    (asked ⟨0x00000009, 0, 0, []⟩).inbox = .packet ⟨0x00000009, 0, 0, []⟩ :: [.reset] ∧
    decode (asked ⟨0x00000009, 0, 0, []⟩).slots.length (asked ⟨0x00000009, 0, 0, []⟩).cursors.length
      ⟨0x00000009, 0, 0, []⟩ = .error .unassignedOpcode ∧ Illegal.unassignedOpcode ≠ .payloadLength :=
  ⟨rfl, rfl, rfl, rfl, by decide⟩

theorem witness_ExternalResetAndIdle :
    ({ halted with inbox := [.reset] } : State).lz4 = none ∧
    ({ halted with inbox := [.reset] } : State).inbox = .reset :: [] ∧
    halted.lz4 = none ∧ halted.inbox = [] := ⟨rfl, rfl, rfl, rfl⟩

theorem witness_FaultedIgnoresAllButReset :
    halted.status ≠ .ok ∧ Instr.rdu8 0 false ≠ .reset ∧ isSequence (.rdu8 0 false) = false ∧
    ({ halted with inbox := [.packet ⟨0x00001001, 0, 0, []⟩] } : State).lz4 = none ∧
    ({ halted with inbox := [.packet ⟨0x00001001, 0, 0, []⟩] } : State).inbox =
      .packet ⟨0x00001001, 0, 0, []⟩ :: [] ∧
    decode halted.slots.length halted.cursors.length ⟨0x00001001, 0, 0, []⟩ ≠ .ok .reset := by
  refine ⟨by decide, by decide, rfl, rfl, rfl, fun h => ?_⟩
  have : Except.error Illegal.unusedField = Except.ok Instr.reset := h
  cases this

theorem witness_FaultsArePrecise :
    isSequence (.rdu8 0 false) = false ∧ (demo [] 0).status = .ok ∧
    exec (.rdu8 0 false) (demo [] 0) = .next (faultedWith (demo [] 0) .bufferUnderrun) ∧
    (faultedWith (demo [] 0) .bufferUnderrun).status = .faulted .bufferUnderrun := ⟨rfl, rfl, rfl, rfl⟩

/-- Vector L-E8: offset 0. -/
theorem witness_FaultKindsByCommand :
    (demo (headerBytes 5 6 0 0 0 0 ++ [0x10, 0x41, 0, 0, 0]) 0).status = .ok ∧
    (after (exec (.lz4d 0 1) (demo (headerBytes 5 6 0 0 0 0 ++ [0x10, 0x41, 0, 0, 0]) 0))).status =
      .faulted .malformedStream ∧
    (after (exec (.ilv 0 4 6) (demo text 0))).status = .faulted .invalidGeometry := by decide +kernel

theorem witness_CommandsAlwaysEnd :
    isSequence (.bload 1 1 [0xAB]) = false ∧ (Instr.bload 1 1 [0xAB]).payloadOk = true ∧
    busy.lz4 = some block := by decide

theorem witness_BlockStateIsEphemeral :
    (demo text 0).lz4 = none ∧ exec (.rem 0) (demo text 0) = .next (withResult (demo text 0) (.int 3)) :=
  ⟨rfl, rfl⟩

theorem witness_SessionCommandsTakeEffect :
    (demo text 1).status = .ok ∧ ([0xAB] : List Byte).length = (1 : Word).toNat ∧
    (demo text 1).slots[(1 : Fin 16).val]? = some .free ∧
    (demo text 1).slots[(0 : Fin 16).val]? = some (.alloc text) ∧
    (demo text 1).cursors[0]? = some (.bound 0 1) ∧ (demo text 1).cursors[1]? = some .unbound ∧
    (3 : Fin 16).val < (demo text 1).cursors.length := by decide

theorem witness_WrongSlotStateIsIllegal :
    (demo text 0).status = .ok ∧ (demo text 0).slots[(0 : Fin 16).val]? = some (.alloc text) ∧
    ([] : List Byte).length = (0 : Word).toNat ∧ (demo text 0).slots[(1 : Fin 16).val]? = some .free := by
  decide

theorem witness_UnboundCursorIsIllegal :
    readsCursor (.clone 1 0) = some 1 ∧ (Instr.clone 1 0).payloadOk = true ∧ (demo text 0).status = .ok ∧
    (demo text 0).cursors[(1 : Fin 16).val]? = some .unbound := by decide

theorem witness_WrongPayloadIsRefused :
    ([0x3C] : List Byte).length ≠ (2 : Word).toNat ∧ (demo text 0).status = .ok ∧ halted.status ≠ .ok := by
  decide

theorem witness_PositionCommandsTakeEffect :
    (demo text (-1)).status = .ok ∧ (demo text (-1)).cursors[(0 : Fin 16).val]? = some (.bound 0 (-1)) ∧
    Ready (demo text 9) 0 0 9 text := ⟨rfl, rfl, demo_ready _ _⟩

theorem witness_UnsignedReadsDeliver :
    Ready (demo ints (4 : Nat)) 0 0 (4 : Nat) ints ∧ ints[4]? = some 0xFE ∧ ints[4 + 1]? = some 0xFF ∧
    ints[4 + 2]? = some 0xFF ∧ ints[4 + 3]? = some 0xFF := ⟨demo_ready _ _, rfl, rfl, rfl, rfl⟩

theorem witness_SignedReadsDeliver :
    Ready (demo ints (0 : Nat)) 0 0 (0 : Nat) ints ∧ ints[0]? = some 0x80 ∧ ints[0 + 1]? = some 0x01 ∧
    ints[0 + 2]? = some 0xFF ∧ ints[0 + 3]? = some 0x7F := ⟨demo_ready _ _, rfl, rfl, rfl, rfl⟩

theorem witness_FloatReadsDeliver :
    Ready (demo doubles (0 : Nat)) 0 0 (0 : Nat) doubles ∧
    (∀ i, i < 4 → doubles[0 + i]? = some (doubles.getD i 0)) ∧
    (∀ i, i < 8 → doubles[0 + i]? = some (doubles.getD i 0)) := ⟨demo_ready _ _, by decide, by decide⟩

theorem witness_ByteReadsDeliver :
    Ready (demo text (3 : Nat)) 0 0 (3 : Nat) text ∧ 3 + (0 : Word).toNat ≤ text.length ∧
    Ready (demo text (1 : Nat)) 0 0 (1 : Nat) text ∧ 1 + (2 : Word).toNat ≤ text.length ∧
    ([0x3C, 0x72] : List Byte).length = (2 : Word).toNat :=
  ⟨demo_ready _ _, by decide, demo_ready _ _, by decide, rfl⟩

/-- Both ways out of the slot: an empty span before it, and one byte past its end. -/
theorem witness_ReadsOutsideTheSlotUnderrun :
    readsCursor (.rdstr 0 false 0) = some 0 ∧ readWidth (.rdstr 0 false 0) = some 0 ∧
    (Instr.rdstr 0 false 0).payloadOk = true ∧ Ready (demo text (-1)) 0 0 (-1) text ∧ (-1 : Int) < 0 ∧
    readWidth (.rdu8 0 false) = some 1 ∧ Ready (demo text 3) 0 0 3 text ∧
    (text.length : Int) < 3 + (1 : Nat) :=
  ⟨rfl, rfl, rfl, demo_ready _ _, by decide, rfl, demo_ready _ _, by decide⟩

theorem witness_PeekLaws :
    pseudoPeek (.rdu8 0 false) = some (.rdu8 0 true) ∧ (demo text 0).status = .ok ∧
    exec (.rdu8 0 false) (demo text 0) = .next (after (exec (.rdu8 0 false) (demo text 0))) ∧
    (after (exec (.rdu8 0 false) (demo text 0))).status = .ok := ⟨rfl, rfl, rfl, rfl⟩

theorem witness_ReadCommandsFrame :
    readsCursor (.rdu8 0 false) = some 0 ∧ readWidth (.rdu8 0 false) ≠ none ∧
    exec (.rdu8 0 false) (demo text 0) = .next (after (exec (.rdu8 0 false) (demo text 0))) ∧
    (after (exec (.rdu8 0 false) (demo text 0))).status = .ok ∧
    readsCursor (.ilv32 0 0) = some 0 ∧
    exec (.ilv32 0 0) (demo text 0) = .next (after (exec (.ilv32 0 0) (demo text 0))) ∧
    (after (exec (.ilv32 0 0) (demo text 0))).status = .ok :=
  ⟨rfl, by decide, rfl, rfl, rfl, rfl, rfl⟩

theorem witness_AllocatedSlotsAreImmutable :
    EngineInv (demo text 1) ∧ (demo text 1).slots[0]? = some (.alloc text) ∧
    exec (.rdu8 0 false) (demo text 1) = .next (after (exec (.rdu8 0 false) (demo text 1))) ∧
    exec (.bfree 0) (demo text 1) = .next (after (exec (.bfree 0) (demo text 1))) :=
  ⟨demo_inv, rfl, rfl, rfl⟩

/-- The five clauses: RDSPAN with and without peek, LZ4D, an instruction that leaves the slot ALLOC, BFREE,
RESET. -/
theorem witness_SpansDenoteUntilFreed :
    (Ready (demo text (1 : Nat)) 0 (0 : Fin 16).val (1 : Nat) text ∧
      (∀ peek, exec (.rdspan 0 peek 2) (demo text (1 : Nat)) =
        .next (after (exec (.rdspan 0 peek 2) (demo text (1 : Nat)))) ∧
        (after (exec (.rdspan 0 peek 2) (demo text (1 : Nat)))).status = .ok)) ∧
    ((demo overlapping 0).status = .ok ∧
      exec (.lz4d 0 1) (demo overlapping 0) = .next (after (exec (.lz4d 0 1) (demo overlapping 0))) ∧
      (after (exec (.lz4d 0 1) (demo overlapping 0))).status = .ok) ∧
    (EngineInv (demo text 1) ∧ (demo text 1).slots[0]? = some (.alloc text) ∧
      exec (.rdu8 0 false) (demo text 1) = .next (after (exec (.rdu8 0 false) (demo text 1))) ∧
      (after (exec (.rdu8 0 false) (demo text 1))).slots[0]? = some (.alloc text)) ∧
    (exec (.bfree 0) (demo text 1) = .next (after (exec (.bfree 0) (demo text 1))) ∧
      (after (exec (.bfree 0) (demo text 1))).status = .ok) ∧
    exec .reset (demo text 1) = .next (after (exec .reset (demo text 1))) :=
  ⟨⟨demo_ready _ _, fun peek => by cases peek <;> exact ⟨rfl, rfl⟩⟩, ⟨rfl, by rfl, by decide +kernel⟩,
    ⟨demo_inv, rfl, rfl, rfl⟩, ⟨rfl, rfl⟩, rfl⟩

theorem witness_NarrowAndWideReadsAgree :
    (demo ints 0).status = .ok ∧
    exec (.rdu16le 0 true) (demo ints 0) = .next (after (exec (.rdu16le 0 true) (demo ints 0))) ∧
    exec (.rdu32le 0 false) (after (exec (.rdu16le 0 true) (demo ints 0))) =
      .next (after (exec (.rdu32le 0 false) (after (exec (.rdu16le 0 true) (demo ints 0))))) ∧
    (after (exec (.rdu16le 0 true) (demo ints 0))).res = .int 384 ∧
    (after (exec (.rdu32le 0 false) (after (exec (.rdu16le 0 true) (demo ints 0))))).res =
      .int 2147418496 := ⟨rfl, rfl, rfl, rfl, rfl⟩

/-- Exponent field 0, and not 0 with either sign. -/
theorem witness_StandardFloatValue :
    (0x807FFFFF : Word).toNat / 2 ^ 23 % 2 ^ 8 = 0 ∧ (0x7F800000 : Word).toNat / 2 ^ 23 % 2 ^ 8 ≠ 0 ∧
    (0x80800000 : Word).toNat / 2 ^ 23 % 2 ^ 8 ≠ 0 := by decide

/-- Exponent field 0, and not 0 with either sign. -/
theorem witness_VendorFloatValue :
    (0x00FFFFFF : Word).toNat / 2 ^ 24 = 0 ∧ (0x01000000 : Word).toNat / 2 ^ 24 ≠ 0 ∧
    (0xFF000001 : Word).toNat / 2 ^ 24 ≠ 0 := by decide

/-- Each of the five cases, at the boundary exponents 0, 1, 2046, 2047. -/
theorem witness_StandardDoubleValue :
    ((0x80000000 : Word).toNat / 2 ^ 20 % 2 ^ 11 = 0 ∧
      (0x80000000 : Word).toNat % 2 ^ 20 * 2 ^ 32 + (0 : Word).toNat = 0) ∧
    ((0x80000000 : Word).toNat / 2 ^ 20 % 2 ^ 11 = 0 ∧
      (0x80000000 : Word).toNat % 2 ^ 20 * 2 ^ 32 + (3 : Word).toNat ≠ 0) ∧
    ((0x7FF00000 : Word).toNat / 2 ^ 20 % 2 ^ 11 = 2047 ∧
      (0x7FF00000 : Word).toNat % 2 ^ 20 * 2 ^ 32 + (0 : Word).toNat = 0) ∧
    ((0x7FF00000 : Word).toNat / 2 ^ 20 % 2 ^ 11 = 2047 ∧
      (0x7FF00000 : Word).toNat % 2 ^ 20 * 2 ^ 32 + (1 : Word).toNat ≠ 0) ∧
    (0x00100000 : Word).toNat / 2 ^ 20 % 2 ^ 11 = 1 ∧ (0x7FEFFFFF : Word).toNat / 2 ^ 20 % 2 ^ 11 = 2046 := by
  decide

theorem witness_NormalDoublesDeliverExactly :
    1 ≤ (0x00100000 : Word).toNat / 2 ^ 20 % 2 ^ 11 ∧ (0x00100000 : Word).toNat / 2 ^ 20 % 2 ^ 11 ≤ 2046 ∧
    1 ≤ (0xFFEFFFFF : Word).toNat / 2 ^ 20 % 2 ^ 11 ∧ (0xFFEFFFFF : Word).toNat / 2 ^ 20 % 2 ^ 11 ≤ 2046 := by
  decide

theorem witness_DenormalDoublesDeliverHalved : (0x800FFFFF : Word).toNat / 2 ^ 20 % 2 ^ 11 = 0 := by decide

theorem witness_NanIsOneValueWithFreeBits :
    (0x7FF00000 : Word).toNat / 2 ^ 20 % 2 ^ 11 = 2047 ∧
    (0x7FF00000 : Word).toNat % 2 ^ 20 * 2 ^ 32 + (1 : Word).toNat ≠ 0 ∧
    (0xFFFFFFFF : Word).toNat / 2 ^ 20 % 2 ^ 11 = 2047 ∧
    (0xFFFFFFFF : Word).toNat % 2 ^ 20 * 2 ^ 32 + (0xFFFFFFFF : Word).toNat ≠ 0 := by decide

theorem witness_LengthExtensionRule : (254 : Byte) ≠ 255 ∧ (0 : Byte) ≠ 255 := by decide

/-- The two ends of the range of offsets. -/
theorem witness_MatchCopyRepeats :
    0 < 1 ∧ 1 ≤ ([0x41, 0x42, 0x43] : List Byte).length ∧ 3 ≤ ([0x41, 0x42, 0x43] : List Byte).length := by
  decide

/-- Vector L-V3, after two bytes and before one. -/
theorem witness_RawBlockDelivers :
    ([1, 2, 3, 4] : List Byte).length < 2 ^ 32 ∧
    Ready (demo ([0xAA, 0xBB] ++ headerBytes 0 ([1, 2, 3, 4] : List Byte).length 0xDE 0xAD 0xBE 0xEF ++
      [1, 2, 3, 4] ++ [0xCC]) ([0xAA, 0xBB] : List Byte).length) 0 0 ([0xAA, 0xBB] : List Byte).length
      ([0xAA, 0xBB] ++ headerBytes 0 ([1, 2, 3, 4] : List Byte).length 0xDE 0xAD 0xBE 0xEF ++ [1, 2, 3, 4] ++
        [0xCC]) ∧
    (demo text 0).slots[(1 : Fin 16).val]? = some .free := ⟨by decide, demo_ready _ _, rfl⟩

/-- The sequence of vector L-V2. -/
def repeatC : Sequence := ⟨[0x41, 0x42, 0x43], 1, 5⟩

/-- Its output. -/
def abcs : List Byte := [0x41, 0x42, 0x43, 0x43, 0x43, 0x43, 0x43, 0x43]

theorem repeatC_legal : repeatC.Legal 3 := ⟨by decide, by decide, by decide, by decide⟩

theorem repeatC_extends : MatchExtends [0x41, 0x42, 0x43] 1 5 abcs := ⟨rfl, by decide, by decide⟩

theorem repeatC_bytes :
    blockBytes [repeatC] (.literals [] 0) = [0x31, 0x41, 0x42, 0x43, 0x01, 0x00, 0x00] ∧
    blockBytes [repeatC] .afterMatch = [0x31, 0x41, 0x42, 0x43, 0x01, 0x00] := ⟨by rfl, by rfl⟩

/-- A buffer that holds one block of that sequence, with the output length given. -/
def repeatBlock (tail : BlockTail) (dlen : Nat) : List Byte :=
  [] ++ headerBytes (blockBytes [repeatC] tail).length dlen 0 0 0 0 ++ blockBytes [repeatC] tail ++ []

/-- Both ways a block ends: vector L-V2 and the second instance of S3. -/
theorem witness_CompressedBlockDelivers :
    (∀ tail ∈ [BlockTail.literals [] 0, BlockTail.afterMatch],
      Expands [] [repeatC] tail.lits abcs ∧ 0 < (blockBytes [repeatC] tail).length ∧
      (blockBytes [repeatC] tail).length < 2 ^ 32 ∧
      Ready (demo (repeatBlock tail abcs.length) ([] : List Byte).length) 0 0 ([] : List Byte).length
        (repeatBlock tail abcs.length)) ∧
    abcs.length < 2 ^ 32 ∧ (demo overlapping 0).slots[(1 : Fin 16).val]? = some .free := by
  refine ⟨?_, by decide, rfl⟩
  intro tail h
  simp only [List.mem_cons, List.not_mem_nil, or_false] at h
  rcases h with rfl | rfl <;>
    exact ⟨⟨repeatC_legal, abcs, repeatC_extends, rfl⟩, by decide, by decide, demo_ready _ _⟩

theorem witness_AcceptedBlocksAreExact :
    Ready (demo overlapping 0) 0 0 0 overlapping ∧
    (exec (.lz4d 0 1) (demo overlapping 0) = .next (after (exec (.lz4d 0 1) (demo overlapping 0)))) ∧
    (after (exec (.lz4d 0 1) (demo overlapping 0))).status = .ok :=
  ⟨demo_ready _ _, by rfl, by decide +kernel⟩

/-- Each way a header can be short: before the slot, one byte of it missing (L-E1), and a block one byte
longer than what is left, raw and compressed (L-E3, L-E2). -/
theorem witness_BlockHeaderUnderruns :
    (demo text 0).slots[(1 : Fin 16).val]? = some .free ∧ Ready (demo overlapping (-1)) 0 0 (-1) overlapping ∧
    (-1 : Int) < 0 ∧
    (((headerBytes 6 5 0 0 0 0).take 11).length : Int) < 0 + 12 ∧
    ((headerBytes 0 5 0 0 0 0 ++ [1, 2, 3, 4]).length : Int) <
      0 + 12 + (le (memRead (headerBytes 0 5 0 0 0 0 ++ [1, 2, 3, 4]) 4 4) : Nat) ∧
    ((headerBytes 3 5 0 0 0 0 ++ [0x50, 0x48]).length : Int) <
      0 + 12 + (le (memRead (headerBytes 3 5 0 0 0 0 ++ [0x50, 0x48]) 0 4) : Nat) :=
  ⟨rfl, demo_ready _ _, by decide, by decide, by decide, by decide⟩

theorem witness_SequenceWithMatchContinues :
    busy.lz4 = some block ∧ busy.bufAt block.src = some overlapping ∧
    overlapping.drop block.ip = repeatC.bytes ++ [0x00] ∧
    (3 : Fin 16).val = lengthNibble repeatC.lits.length ∧ (1 : Fin 16).val = lengthNibble (repeatC.ml - 4) ∧
    block.ip + repeatC.bytes.length < block.blockEnd ∧ repeatC.Legal (block.out ++ repeatC.lits).length ∧
    MatchExtends (block.out ++ repeatC.lits) repeatC.off repeatC.ml abcs ∧
    abcs.length ≤ block.dlen.toNat :=
  ⟨rfl, rfl, by rfl, by decide, by decide, by decide, repeatC_legal, repeatC_extends, by decide⟩

/-- The last token of that block. -/
def finalToken : Lz4 := { block with ip := 18, out := abcs }

theorem witness_LastSequenceCompletes :
    ({ busy with lz4 := some finalToken } : State).lz4 = some finalToken ∧
    ({ busy with lz4 := some finalToken } : State).bufAt finalToken.src = some overlapping ∧
    overlapping.drop finalToken.ip = lastBytes [] 0 ++ [] ∧ (0 : Fin 16).val = lengthNibble ([] : List Byte).length ∧
    finalToken.ip + (lastBytes [] 0).length = finalToken.blockEnd ∧
    (finalToken.out ++ []).length = finalToken.dlen.toNat := ⟨rfl, rfl, by rfl, by decide, by decide, by decide⟩

/-- Slot 0 holding a header and a payload. -/
def framed (clen dlen : Word) (payload : List Byte) : List Byte :=
  headerBytes clen.toNat dlen.toNat 0 0 0 0 ++ payload

/-- The engine with LZ4D c0, s1 at the first token of that payload. -/
def entered (clen dlen : Word) (payload : List Byte) : State :=
  { demo (framed clen dlen payload) 0 with lz4 := some (lz4Entry 0 1 0 clen dlen 12) }

theorem entered_block (clen dlen : Word) (payload : List Byte) :
    (entered clen dlen payload).lz4 = some (lz4Entry 0 1 0 clen dlen 12) ∧
    (entered clen dlen payload).bufAt (lz4Entry 0 1 0 clen dlen 12).src =
      some (framed clen dlen payload) := ⟨rfl, rfl⟩

/-- The second instance of S3: the match ends the block. -/
theorem witness_SequenceWithMatchCompletes :
    (framed 6 8 [0x31, 0x41, 0x42, 0x43, 0x01, 0x00]).drop (lz4Entry 0 1 0 6 8 12).ip =
      repeatC.bytes ++ [] ∧
    (3 : Fin 16).val = lengthNibble repeatC.lits.length ∧ (1 : Fin 16).val = lengthNibble (repeatC.ml - 4) ∧
    (lz4Entry 0 1 0 6 8 12).ip + repeatC.bytes.length = (lz4Entry 0 1 0 6 8 12).blockEnd ∧
    repeatC.Legal ((lz4Entry 0 1 0 6 8 12).out ++ repeatC.lits).length ∧
    MatchExtends ((lz4Entry 0 1 0 6 8 12).out ++ repeatC.lits) repeatC.off repeatC.ml abcs ∧
    abcs.length = (lz4Entry 0 1 0 6 8 12).dlen.toNat :=
  ⟨by rfl, by decide, by decide, by decide, repeatC_legal, repeatC_extends, by decide⟩

/-- The clauses on the literal run, each where it meets the next: an extension that runs off the buffer
(L-E17), a run one byte beyond the block, a run one byte beyond the output (L-E6). -/
theorem witness_SequenceFaults_literals :
    ((15 : Fin 16).val = 15 ∧ (framed 2 300 [0xF0, 0xFF]).drop (12 + 1) = List.replicate 1 255) ∧
    ((5 : Fin 16).val = lengthNibble 5 ∧
      (framed 5 5 [0x50, 0x48, 0x65, 0x6C, 0x6C, 0x6F]).drop (12 + 1) =
        lengthExtension 5 ++ [0x48, 0x65, 0x6C, 0x6C, 0x6F] ∧
      (lz4Entry 0 1 0 5 5 12).blockEnd < 12 + 1 + (lengthExtension 5).length + 5) ∧
    ((framed 6 4 [0x50, 0x48, 0x65, 0x6C, 0x6C, 0x6F]).drop (12 + 1) =
        lengthExtension 5 ++ [0x48, 0x65, 0x6C, 0x6C, 0x6F] ∧
      12 + 1 + (lengthExtension 5).length + 5 ≤ (lz4Entry 0 1 0 6 4 12).blockEnd ∧
      (lz4Entry 0 1 0 6 4 12).dlen.toNat < (lz4Entry 0 1 0 6 4 12).op + 5) := by decide

/-- The clauses on the match: the offset's second byte missing (L-E7b), an extension that runs off the
buffer (L-E18), offset 0 (L-E8), an offset one beyond the output (L-E9), a match one byte beyond `dlen`
(L-E10). -/
theorem witness_SequenceFaults_match :
    ((1 : Fin 16).val = lengthNibble 1 ∧ (0 : Fin 16).val = lengthNibble 0 ∧
      (framed 3 5 [0x10, 0x41, 0x01]).drop (12 + 1) = lengthExtension 1 ++ [0x41, 0x01] ∧
      12 + 1 + (lengthExtension 1).length + 1 < (lz4Entry 0 1 0 3 5 12).blockEnd ∧
      (lz4Entry 0 1 0 3 5 12).op + 1 ≤ (lz4Entry 0 1 0 3 5 12).dlen.toNat ∧
      (framed 3 5 [0x10, 0x41, 0x01]).length < 12 + 1 + (lengthExtension 1).length + 1 + 2) ∧
    ((15 : Fin 16).val = 15 ∧
      (framed 5 300 [0x1F, 0x41, 0x01, 0x00, 0xFF]).drop (12 + 1) =
        lengthExtension 1 ++ [0x41, 0x01, 0x00, 0xFF] ∧
      ([0x41, 0x01, 0x00, 0xFF] : List Byte).drop 1 = 0x01 :: 0x00 :: List.replicate 1 255 ∧
      12 + 1 + (lengthExtension 1).length + 1 < (lz4Entry 0 1 0 5 300 12).blockEnd ∧
      (lz4Entry 0 1 0 5 300 12).op + 1 ≤ (lz4Entry 0 1 0 5 300 12).dlen.toNat) ∧
    (∀ o : Byte, ([0x41, o, 0x00, 0x00] : List Byte).drop 1 = o :: 0x00 :: (lengthExtension 0 ++ [0x00])) ∧
    (0 : Byte).toNat + 256 * (0 : Byte).toNat = 0 ∧
    (lz4Entry 0 1 0 5 6 12).op + 1 < (2 : Byte).toNat + 256 * (0 : Byte).toNat ∧
    (lz4Entry 0 1 0 5 4 12).dlen.toNat < (lz4Entry 0 1 0 5 4 12).op + 1 + 0 + 4 := by
  refine ⟨by decide, by decide, fun o => rfl, by decide, by decide, by decide⟩

/-- One literal, then its fourfold repetition: the sequence of L-E7 and L-E14. -/
def repeatA : Sequence := ⟨[0x41], 1, 4⟩

theorem repeatA_legal : repeatA.Legal 1 := ⟨by decide, by decide, by decide, by decide⟩

/-- The LZ4.SEQ clauses: a match one byte beyond the block end (L-E7), a match that ends there with one byte
too few, a last run that does (L-E5). -/
theorem witness_BlockEndChecks_sequence :
    ((framed 3 5 [0x10, 0x41, 0x01, 0x00, 0x77]).drop 12 = repeatA.bytes ++ [0x77] ∧
      (1 : Fin 16).val = lengthNibble repeatA.lits.length ∧ (0 : Fin 16).val = lengthNibble (repeatA.ml - 4) ∧
      repeatA.Legal ((lz4Entry 0 1 0 3 5 12).out ++ repeatA.lits).length ∧
      12 + repeatA.runLength < (lz4Entry 0 1 0 3 5 12).blockEnd ∧
      (lz4Entry 0 1 0 3 5 12).blockEnd < 12 + repeatA.bytes.length) ∧
    ((framed 4 6 [0x10, 0x41, 0x01, 0x00]).drop 12 = repeatA.bytes ++ [] ∧
      12 + repeatA.runLength < (lz4Entry 0 1 0 4 6 12).blockEnd ∧
      12 + repeatA.bytes.length = (lz4Entry 0 1 0 4 6 12).blockEnd ∧
      (lz4Entry 0 1 0 4 6 12).op + repeatA.lits.length + repeatA.ml ≠ (lz4Entry 0 1 0 4 6 12).dlen.toNat) ∧
    ((framed 6 6 [0x50, 0x48, 0x65, 0x6C, 0x6C, 0x6F]).drop 12 =
        lastBytes [0x48, 0x65, 0x6C, 0x6C, 0x6F] 0 ++ [] ∧
      (5 : Fin 16).val = lengthNibble ([0x48, 0x65, 0x6C, 0x6C, 0x6F] : List Byte).length ∧
      12 + (lastBytes [0x48, 0x65, 0x6C, 0x6C, 0x6F] 0).length = (lz4Entry 0 1 0 6 6 12).blockEnd ∧
      (lz4Entry 0 1 0 6 6 12).op + 5 ≠ (lz4Entry 0 1 0 6 6 12).dlen.toNat) :=
  ⟨⟨by rfl, by decide, by decide, repeatA_legal, by decide, by decide⟩,
    ⟨by rfl, by decide, by decide, by decide⟩, ⟨by rfl, by decide, by decide, by decide⟩⟩

/-- The LZ4D clause: eight bytes produced, one more and one less declared. -/
theorem witness_BlockEndChecks_command :
    ∀ dlen ∈ [7, 9], dlen < 2 ^ 32 ∧ dlen ≠ abcs.length ∧
      Expands [] [repeatC] BlockTail.afterMatch.lits abcs ∧
      0 < (blockBytes [repeatC] .afterMatch).length ∧ (blockBytes [repeatC] .afterMatch).length < 2 ^ 32 ∧
      Ready (demo (repeatBlock .afterMatch dlen) ([] : List Byte).length) 0 0 ([] : List Byte).length
        (repeatBlock .afterMatch dlen) ∧
      (demo (repeatBlock .afterMatch dlen) 0).slots[(1 : Fin 16).val]? = some .free := by
  intro dlen h
  simp only [List.mem_cons, List.not_mem_nil, or_false] at h
  rcases h with rfl | rfl <;>
    exact ⟨by decide, by decide, ⟨repeatC_legal, abcs, repeatC_extends, rfl⟩, by decide, by decide,
      demo_ready _ _, rfl⟩

theorem witness_SequenceGrainAgrees :
    (demo overlapping 0).status = .ok ∧ lz4Start 0 1 (demo overlapping 0) = .ok busy := ⟨rfl, by rfl⟩

theorem witness_SequenceOutsideBlockStops : State.reset.lz4 = none := rfl

theorem witness_InterleaveDelivers :
    Ready (demo text (1 : Nat)) 0 0 (1 : Nat) text ∧ (2 : Word).toNat ≠ 0 ∧
    (2 : Word).toNat % (2 : Word).toNat = 0 ∧ 1 + (2 : Word).toNat ≤ text.length :=
  ⟨demo_ready _ _, by decide, by decide, by decide⟩

theorem witness_InterleaveFaultOrder :
    Ready (demo text (-1)) 0 0 (-1) text ∧ (0 : Word).toNat = 0 ∧ (7 : Word).toNat % (2 : Word).toNat ≠ 0 ∧
    (4 : Word).toNat % (2 : Word).toNat = 0 ∧ (text.length : Int) < 0 + (4 : Word).toNat ∧ (-1 : Int) < 0 :=
  ⟨demo_ready _ _, by decide, by decide, by decide, by decide, by decide⟩

/-- Both clauses at their common boundary: 12 bytes from position 1, and from position 2. -/
theorem witness_WordInterleavesDeliver :
    Ready (demo planes 1) 0 0 1 planes ∧ (0 : Int) ≤ 1 ∧ (1 : Int) + 4 * (3 : Word).toNat ≤ planes.length ∧
    Ready (demo planes 2) 0 0 2 planes ∧ (planes.length : Int) < 2 + 4 * (3 : Word).toNat ∧
    Ready (demo planes (-1)) 0 0 (-1) planes ∧ (-1 : Int) < 0 :=
  ⟨demo_ready _ _, by decide, by decide, demo_ready _ _, by decide, demo_ready _ _, by decide⟩

theorem witness_WordsAreBigEndianElements :
    2 < 3 ∧ 3 ≤ 3 ∧ (12 : Word).toNat = 4 * (3 : Word).toNat ∧ (demo planes 0).status = .ok ∧
    exec (.ilv 0 12 4) (demo planes 0) = .next (after (exec (.ilv 0 12 4) (demo planes 0))) ∧
    exec (.ilv32 0 3) (demo planes 0) = .next (after (exec (.ilv32 0 3) (demo planes 0))) ∧
    (after (exec (.ilv 0 12 4) (demo planes 0))).res = .elems [[0, 0, 0, 2], [0, 0, 0, 3], [0x7F, 0, 0, 1]] ∧
    (after (exec (.ilv32 0 3) (demo planes 0))).res = .words [2, 3, 0x7F000001] :=
  ⟨by decide, by decide, rfl, rfl, by rfl, by rfl, by decide +kernel, by decide +kernel⟩

theorem witness_ZigzagIsABijection :
    (0xFFFFFFFE : Word).toNat % 2 = 0 ∧ (0xFFFFFFFF : Word).toNat % 2 = 1 ∧ zz 0xFFFFFFFF = -2147483648 := by
  decide

theorem witness_StepKeepsInvariant : EngineInv (demo text 1) ∧ step (demo text 1) = .next (demo text 1) :=
  ⟨demo_inv, rfl⟩

end Sys2Proof.Tests
end

section
/-! The byte orders of R11: how `be` reads a concatenation, and that reversing the bytes swaps the
readings (R151). -/

namespace Sys2Proof.Machine

/-- In the BE reading the front bytes are the more significant ones. -/
theorem be_append (xs ys : List Byte) : be (xs ++ ys) = be xs * 256 ^ ys.length + be ys := by
  induction xs with
  | nil => simp [be]
  | cons x xs ih =>
    simp only [List.cons_append, be, List.length_append, ih, pow_add]
    ring

/-- Settles O30, by induction on the bytes: the first byte is the least significant one of both
readings. -/
theorem reversalSwapsByteOrder : Obligations.ReversalSwapsByteOrder := by
  intro b
  induction b with
  | nil => rfl
  | cons x xs ih =>
    calc le (x :: xs) = x.toNat + 256 * be xs.reverse := by rw [le, ih]
      _ = be (xs.reverse ++ [x]) := by
        rw [be_append]
        simp only [be, List.length_singleton, List.length_nil]
        ring
      _ = be (x :: xs).reverse := by rw [List.reverse_cons]

end Sys2Proof.Machine
end

section
/-! What a step can do, said once: with a block in progress it is `lz4Next`; with none it is one of the
ways of `IdleStep`. -/

namespace Sys2Proof.Machine

/-- A packet decodes to a command of the host, never to an LZ4 sequence. -/
theorem isSequence_of_decode {nbuf ncur : Nat} {p : Packet} {i : Instr} (h : decode nbuf ncur p = .ok i) :
    isSequence i = false := by
  obtain ⟨-, form, hrow, -⟩ := decode_ok_iff.mp h
  cases i with
  | lz4seq l m => exact absurd hrow opcodeRow_not_sequence
  | _ => rfl

/-- A rejected packet is ignored in the faulted state or takes IllegalCommand (R87, R269). -/
theorem rejectPacket_next {e : Illegal} {s t : State} (h : rejectPacket e s = .next t) :
    (s.status ≠ .ok ∧ t = s) ∨ (s.status = .ok ∧ t = takeFault .illegalCommand s) := by
  unfold rejectPacket at h
  split at h
  · rename_i hs
    cases h
    exact .inl ⟨by simp [hs], rfl⟩
  · rename_i hs
    split at h
    · cases h
    · cases h
      exact .inr ⟨hs, rfl⟩

/-- Everything a step can lead to with no block in progress. -/
inductive IdleStep (s : State) : State → Prop
  /-- no input (R278) -/
  | noInput : IdleStep s s
  /-- the external reset (R300) -/
  | externalReset (rest : List HostInput) : IdleStep s (resetEngine { s with inbox := rest })
  /-- a packet the decoder accepts (R120) -/
  | command (rest : List HostInput) (i : Instr) (t : State)
      (result : CommandResult i { s with inbox := rest } t) : IdleStep s t
  /-- a packet the decoder rejects, in the faulted state (R269) -/
  | ignored (h : s.status ≠ .ok) (rest : List HostInput) : IdleStep s { s with inbox := rest }
  /-- a packet the decoder rejects as an illegal encoding (R87) -/
  | illegal (h : s.status = .ok) (rest : List HostInput) :
      IdleStep s (takeFault .illegalCommand { s with inbox := rest })

/-- The inversion lemma of `step` between commands. -/
theorem step_idle {s t : State} (hl : s.lz4 = none) (h : step s = .next t) : IdleStep s t := by
  unfold step at h
  cases hin : s.inbox with
  | nil =>
    have hf : fetch s = .idle := by simp [fetch, hl, hin]
    rw [hf] at h
    cases h
    exact .noInput
  | cons x rest =>
    cases x with
    | reset =>
      have hf : fetch s = .externalReset { s with inbox := rest } := by simp [fetch, hl, hin]
      rw [hf] at h
      cases h
      exact .externalReset rest
    | packet p =>
      have hf : fetch s = fetchPacket p { s with inbox := rest } := by simp [fetch, hl, hin]
      rw [hf, fetchPacket] at h
      cases hd : decode s.slots.length s.cursors.length p with
      | ok i =>
        rw [hd] at h
        exact .command rest i t (exec_result (isSequence_of_decode hd) h)
      | error e =>
        rw [hd] at h
        obtain ⟨hs, rfl⟩ | ⟨hs, rfl⟩ := rejectPacket_next h
        · exact .ignored (s := s) hs rest
        · exact .illegal (s := s) hs rest

/-- A field of four bits is its own `Fin 16`. -/
theorem ofNat_nibble {n hi lo : Nat} (h : hi + 1 - lo = 4) :
    (Fin.ofNat 16 (bits n hi lo)).val = bits n hi lo := by
  simp [bits, h]

/-- A token executes the sequence of its two nibbles (R91). -/
theorem exec_decodeSeq {s : State} {c : Lz4} (hl : s.lz4 = some c) (b : Byte) :
    exec (decodeSeq b) s = .next (lz4Sequence (bits b.toNat 7 4) (bits b.toNat 3 0) c s) := by
  simp only [decodeSeq, exec, execLz4seq, hl]
  rw [ofNat_nibble rfl, ofNat_nibble rfl]

/-- With a block in progress the step fetches and executes its next sequence, or ends it (R204). -/
theorem step_block {s : State} {c : Lz4} (hl : s.lz4 = some c) : step s = .next (lz4Next c s) := by
  unfold step fetch lz4Next
  rw [hl]
  by_cases hd : c.ip < c.blockEnd
  · cases ht : lz4Token c s with
    | none => simp [hd, ht]
    | some b => simp [hd, ht, exec_decodeSeq hl]
  · simp [hd]

end Sys2Proof.Machine
end

section
/-! The part of the invariant that speaks of slots and cursors (R7, R22, R24), and that every operation on
them keeps it. -/

namespace Sys2Proof.Machine

/-- The first three clauses of `EngineInv`: what every state in the middle of a command meets as well. -/
structure BindingInv (s : State) : Prop where
  memory : Memory.wf s.slots = true
  cursorCount : Config.ncurMin ≤ s.cursors.length ∧ s.cursors.length ≤ Config.ncurMax
  cursors : ∀ c ∈ s.cursors, Cursor.wf s.slots c = true

theorem EngineInv.bindings {s : State} (h : EngineInv s) : BindingInv s :=
  ⟨h.memory, h.cursorCount, h.cursors⟩

/-- A binding is sound exactly when it names an ALLOC slot. -/
theorem Cursor.wf_bound_iff {slots : List Slot} {b : Nat} {p : Int} :
    Cursor.wf slots (.bound b p) = true ↔ ∃ buf, slots[b]? = some (.alloc buf) := by
  rw [Cursor.wf]
  cases slots[b]? with
  | none => simp
  | some x => cases x <;> simp [Slot.isAlloc]

/-- Content of a u32 length fits a slot (R22). -/
theorem Slot.wf_alloc {out : List Byte} (h : out.length < 2 ^ 32) : Slot.wf (.alloc out) = true := by
  have hmax : out.length ≤ Config.maxLen := by
    unfold Config.maxLen
    omega
  simpa [Slot.wf] using hmax

/-- Filling a slot leaves every sound cursor sound. -/
theorem Cursor.wf_set_alloc {slots : List Slot} {c : Cursor} (d : Nat) (out : List Byte)
    (h : Cursor.wf slots c = true) : Cursor.wf (slots.set d (.alloc out)) c = true := by
  cases c with
  | unbound => rfl
  | bound b p =>
    rw [Cursor.wf_bound_iff] at h ⊢
    obtain ⟨buf, hb⟩ := h
    obtain ⟨hlt, -⟩ := List.getElem?_eq_some_iff.mp hb
    by_cases hd : d = b
    · exact ⟨out, by rw [hd, List.getElem?_set_self hlt]⟩
    · exact ⟨buf, by rw [List.getElem?_set_ne hd, hb]⟩

/-- BFREE unbinds exactly the cursors that freeing the slot would leave unsound (R123). -/
theorem Cursor.wf_set_free {slots : List Slot} {c : Cursor} (d : Nat) (h : Cursor.wf slots c = true) :
    Cursor.wf (slots.set d .free) (unbindFrom d c) = true := by
  cases c with
  | unbound => rfl
  | bound b p =>
    rw [unbindFrom]
    by_cases hd : b = d
    · rw [if_pos hd]
      rfl
    · rw [if_neg hd, Cursor.wf_bound_iff, List.getElem?_set_ne (Ne.symm hd)]
      exact Cursor.wf_bound_iff.mp h

theorem BindingInv.setSlot_alloc {s : State} (h : BindingInv s) (d : Nat) {out : List Byte}
    (hout : out.length < 2 ^ 32) : BindingInv (s.setSlot d (.alloc out)) where
  memory := setSlot_memory_wf h.memory (Slot.wf_alloc hout)
  cursorCount := h.cursorCount
  cursors c hc := Cursor.wf_set_alloc d out (h.cursors c hc)

theorem BindingInv.freeSlot {s : State} (h : BindingInv s) (d : Nat) : BindingInv (freeSlot d s) where
  memory := freeSlot_memory_wf h.memory
  cursorCount := by simpa using h.cursorCount
  cursors c hc := by
    obtain ⟨c', hc', rfl⟩ := List.mem_map.mp hc
    exact Cursor.wf_set_free d (h.cursors c' hc')

theorem BindingInv.setCursor {s : State} (h : BindingInv s) (k : Nat) {c : Cursor}
    (hc : Cursor.wf s.slots c = true) : BindingInv (s.setCursor k c) where
  memory := h.memory
  cursorCount := by simpa using h.cursorCount
  cursors c' hc' := by
    obtain hmem | rfl := List.mem_or_eq_of_mem_set hc'
    · exact h.cursors c' hmem
    · exact hc

theorem BindingInv.resetEngine {s : State} (h : BindingInv s) : BindingInv (resetEngine s) where
  memory := resetEngine_memory_wf h.memory
  cursorCount := by simpa using h.cursorCount
  cursors c hc := by
    obtain ⟨-, -, rfl⟩ := List.mem_map.mp hc
    rfl

/-- The slot a bound cursor names is ALLOC (R24). -/
theorem BindingInv.wf_of_bound {s : State} (h : BindingInv s) {j b : Nat} {q : Int}
    (hj : s.cursors[j]? = some (.bound b q)) (p : Int) : Cursor.wf s.slots (.bound b p) = true :=
  Cursor.wf_bound_iff.mpr (Cursor.wf_bound_iff.mp (h.cursors _ (List.mem_of_getElem? hj)))

end Sys2Proof.Machine
end

section
/-! The invariant of the engine: it holds after reset, each way a command or a sequence can end keeps it,
and so does every step. -/

namespace Sys2Proof.Machine

/-- Between commands, outside the faulted state, the invariant is that of slots, cursors and RES. -/
theorem EngineInv.of_idle {s : State} (h : BindingInv s) (hs : s.status = .ok) (hl : s.lz4 = none)
    (hr : s.res.wf = true) (hd : s.delivered.length = s.res.floatList.length) : EngineInv s where
  memory := h.memory
  cursorCount := h.cursorCount
  cursors := h.cursors
  faulted hne := absurd hs hne
  result := hr
  delivery := hd
  block c hc := by simp [hl] at hc

/-- Reset meets the invariant for every legal NBUF and NCUR (R7, R36). -/
theorem resetWith_inv {nbuf ncur : Nat} (hb : Config.nbufMin ≤ nbuf ∧ nbuf ≤ Config.nbufMax)
    (hc : Config.ncurMin ≤ ncur ∧ ncur ≤ Config.ncurMax) : EngineInv (resetWith nbuf ncur) := by
  refine .of_idle ⟨?_, by simpa [resetWith] using hc, fun c h => ?_⟩ rfl rfl rfl rfl
  · rw [Memory.wf_iff]
    refine ⟨by simpa [resetWith] using hb.1, by simpa [resetWith] using hb.2, fun x hx => ?_⟩
    cases List.eq_of_mem_replicate hx
    rfl
  · cases List.eq_of_mem_replicate h
    rfl

/-- Settles O59: the defaults of R7 are legal sizes. -/
theorem resetMeetsInvariant : Obligations.ResetMeetsInvariant :=
  ⟨rfl, resetWith_inv (by decide) (by decide)⟩

/-- Taking a fault keeps the invariant: RES and the block are gone with the fault (R268). -/
theorem EngineInv.takeFault {s : State} (h : EngineInv s) (kind : FaultKind) :
    EngineInv (takeFault kind s) where
  memory := h.memory
  cursorCount := h.cursorCount
  cursors := h.cursors
  faulted _ := ⟨rfl, rfl⟩
  result := rfl
  delivery := rfl
  block c hc := by simp at hc

theorem EngineInv.resetEngine {s : State} (h : EngineInv s) : EngineInv (resetEngine s) :=
  .of_idle h.bindings.resetEngine rfl rfl rfl rfl

/-- Completing a command keeps the invariant, one pattern being delivered for each float (R167). -/
theorem complete_inv {s : State} (h : BindingInv s) (hs : s.status = .ok) (hl : s.lz4 = none) {r : Res}
    (hr : r.wf = true) : EngineInv (complete r s) :=
  .of_idle ⟨h.memory, h.cursorCount, h.cursors⟩ hs hl hr (deliverAll_length _ _)

/-- What the host still has to issue is no part of the invariant (R34). -/
theorem EngineInv.setInbox {s : State} (h : EngineInv s) (rest : List HostInput) :
    EngineInv { s with inbox := rest } where
  memory := h.memory
  cursorCount := h.cursorCount
  cursors := h.cursors
  faulted := h.faulted
  result := h.result
  delivery := h.delivery
  block c hc :=
    have w := h.block c hc
    ⟨w.source, w.due, w.output, w.destination, w.cursor, w.fuel⟩

/-- The completion of LZ4D keeps the invariant: the destination becomes ALLOC, and the cursor stays on the
source, which is ALLOC (R213). -/
theorem lz4Commit_inv {s : State} (h : BindingInv s) (hs : s.status = .ok) {k d : Fin 16} {b : Nat}
    {p : Int} {out buf : List Byte} (hout : out.length < 2 ^ 32) (hb : s.slots[b]? = some (.alloc buf)) :
    EngineInv (lz4Commit k d b p out s) := by
  have h0 : BindingInv { s with lz4 := none } := ⟨h.memory, h.cursorCount, h.cursors⟩
  have hwf : Cursor.wf s.slots (.bound b p) = true := Cursor.wf_bound_iff.mpr ⟨buf, hb⟩
  have h1 := (h0.setSlot_alloc d.val hout).setCursor k.val (Cursor.wf_set_alloc d.val out hwf)
  exact complete_inv h1 hs rfl rfl

/-- Every command of the host keeps the invariant. -/
theorem CommandResult.keeps_inv {i : Instr} {s t : State} (hl : s.lz4 = none) (h : EngineInv s)
    (hr : CommandResult i s t) : EngineInv t := by
  cases hr with
  | ignored _ => exact h
  | fault _ kind => exact h.takeFault kind
  | reset _ => exact h.resetEngine
  | loaded hs d n pl _ _ hlen =>
    exact complete_inv (h.bindings.setSlot_alloc d.val (hlen ▸ n.isLt)) hs hl rfl
  | freed hs d _ => exact complete_inv (h.bindings.freeSlot d.val) hs hl rfl
  | result hs r hwf => exact complete_inv h.bindings hs hl hwf
  | moved hs r hwf k b p bind =>
    have hc : Cursor.wf s.slots (.bound b p) = true := by
      obtain hslot | ⟨j, q, hj⟩ := bind
      · exact Cursor.wf_bound_iff.mpr hslot
      · exact h.bindings.wf_of_bound hj p
    exact complete_inv (h.bindings.setCursor k.val hc) hs hl hwf
  | block hs k d _ b p out buf hlen _ hslot => exact lz4Commit_inv h.bindings hs hlen hslot

/-- A block that goes on is sound: its operands are the same, and `ip` has only moved forward (R204). -/
theorem Lz4.Wf.advance {s : State} {c c' : Lz4} (w : Lz4.Wf s c) (same : SameBlock c c')
    (ahead : c.ip < c'.ip) (due : c'.ip < c'.blockEnd) (output : c'.op ≤ c'.dlen.toNat) :
    Lz4.Wf { s with lz4 := some c' } c' where
  source := by
    rw [same.src, same.blockEnd]
    exact w.source
  due := due
  output := output
  destination := by
    rw [same.d]
    exact w.destination
  cursor := by
    rw [same.k, same.src]
    exact w.cursor
  fuel := by
    have := w.fuel
    rw [same.blockEnd, same.clen]
    omega

/-- Every sequence of a block in progress keeps the invariant; the engine is not Faulted while there is
one (R268). -/
theorem SeqResult.keeps_inv {c : Lz4} {s t : State} (hl : s.lz4 = some c) (h : EngineInv s)
    (hr : SeqResult c s t) : EngineInv t := by
  have w := h.block c hl
  have hs : s.status = .ok := by
    by_contra hne
    exact absurd (h.faulted hne).2 (by simp [hl])
  cases hr with
  | fault kind => exact h.takeFault kind
  | more c' same ahead due output =>
    exact {
      memory := h.memory
      cursorCount := h.cursorCount
      cursors := h.cursors
      faulted := fun hne => absurd hs hne
      result := h.result
      delivery := h.delivery
      block := fun x hx => by
        cases hx
        exact w.advance same ahead due output }
  | done out hlen =>
    obtain ⟨buf, hbuf, -⟩ := w.source
    exact lz4Commit_inv h.bindings hs (hlen ▸ c.dlen.isLt) (bufAt_eq_some_iff.mp hbuf)

/-- Every step between commands keeps the invariant. -/
theorem IdleStep.keeps_inv {s t : State} (hl : s.lz4 = none) (h : EngineInv s) (hr : IdleStep s t) :
    EngineInv t := by
  cases hr with
  | noInput => exact h
  | externalReset rest => exact (h.setInbox rest).resetEngine
  | command rest i _ result => exact result.keeps_inv (s := { s with inbox := rest }) hl (h.setInbox rest)
  | ignored _ rest => exact h.setInbox rest
  | illegal _ rest => exact (h.setInbox rest).takeFault .illegalCommand

/-- Settles O58: a step is one sequence of the block in progress, or a step between commands. -/
theorem stepKeepsInvariant : Obligations.StepKeepsInvariant := by
  intro s t h hstep
  cases hl : s.lz4 with
  | none => exact (step_idle hl hstep).keeps_inv hl h
  | some c =>
    rw [step_block hl] at hstep
    cases hstep
    exact (lz4Next_result c s).keeps_inv hl h

end Sys2Proof.Machine
end

section
/-! Reset and the step between commands: what the engine takes from the host (R20, R27, R120) and the values
after reset (R36, R300). -/

namespace Sys2Proof.Machine

/-- With no block in progress and no input there is nothing to do (R27). -/
theorem fetch_noInput {s : State} (hl : s.lz4 = none) (hin : s.inbox = []) : fetch s = .idle := by
  simp [fetch, hl, hin]

/-- A pulse of the external reset is taken like a packet (R300). -/
theorem fetch_externalReset {s : State} {rest : List HostInput} (hl : s.lz4 = none)
    (hin : s.inbox = .reset :: rest) : fetch s = .externalReset { s with inbox := rest } := by
  simp [fetch, hl, hin]

/-- A legal packet at the head of the inbox gives its instruction (R120 step 2). -/
theorem fetch_packet_of_decode {s : State} {p : Packet} {rest : List HostInput} {i : Instr}
    (hl : s.lz4 = none) (hin : s.inbox = .packet p :: rest)
    (hd : decode s.slots.length s.cursors.length p = .ok i) :
    fetch s = .instr i { s with inbox := rest } := by
  simp [fetch, fetchPacket, hl, hin, hd]

/-- Settles O5: the fetch finds the instruction, and the step executes what the fetch finds. -/
theorem stepRunsDecodedPacket : Obligations.StepRunsDecodedPacket := by
  intro s p rest i hl hin hd
  rw [step, fetch_packet_of_decode hl hin hd]

/-- What RESET and the external reset leave is the reset state of an engine of the same size, up to the
model's own two fields (R36; logs 3 and 5). -/
theorem resetEngine_eq_resetWith (s : State) :
    resetEngine s =
      { resetWith s.slots.length s.cursors.length with inbox := s.inbox, draws := s.draws } := by
  simp [resetEngine, resetWith]

/-- Settles O8: a pulse of the external reset executes `resetEngine`, and an idle engine holds its state. -/
theorem externalResetAndIdle : Obligations.ExternalResetAndIdle := by
  refine ⟨fun s rest hl hin => ?_, fun s hl hin => ?_⟩
  · rw [step, fetch_externalReset hl hin]
    exact congrArg _ (resetEngine_eq_resetWith _)
  · rw [step, fetch_noInput hl hin]

/-- Settles O14: RESET executes `resetEngine` without looking at STATUS (R270). -/
theorem resetGivesResetState : Obligations.ResetGivesResetState := fun s =>
  congrArg _ (resetEngine_eq_resetWith s)

/-- Settles O15, from the two lists of the reset state being constant. -/
theorem resetValues : Obligations.ResetValues := by
  intro nbuf ncur
  refine ⟨⟨?_, fun x hx => ?_⟩, ⟨?_, fun x hx => ?_⟩, rfl, rfl, rfl⟩
  · exact List.length_replicate
  · exact List.eq_of_mem_replicate hx
  · exact List.length_replicate
  · exact List.eq_of_mem_replicate hx

/-- A command of the host that meets no block in progress leaves none, LZ4D included (R31). -/
theorem CommandResult.keeps_noBlock {i : Instr} {s t : State} (hl : s.lz4 = none)
    (hr : CommandResult i s t) : t.lz4 = none := by
  cases hr with
  | ignored _ => exact hl
  | fault _ _ => rfl
  | reset _ => rfl
  | loaded => exact hl
  | freed => exact hl
  | result => exact hl
  | moved => exact hl
  | block => rfl

/-- Settles O13: a sequence stops outside a block, and every command of the host ends without one. -/
theorem blockStateIsEphemeral : Obligations.BlockStateIsEphemeral := by
  intro i s t hl h
  cases hi : isSequence i with
  | false => exact (exec_result hi h).keeps_noBlock hl
  | true =>
    cases i with
    | lz4seq l m => simp [exec, execLz4seq, hl] at h
    | _ => cases hi

end Sys2Proof.Machine
end

section
/-! A command whose cursor is UNBOUND: step 3 of R120 raises IllegalCommand before its body runs (R264). The
commands that only read the slot of their cursor are all `readCommand`, with a body that at most moves that
cursor. -/

namespace Sys2Proof.Machine

/-- A raise of the body outside the faulted state is taken (R268). -/
theorem command_of_error {body : State → Except FaultKind (State × Res)} {s : State} {kind : FaultKind}
    (hs : s.status = .ok) (hb : body s = .error kind) : command body s = .next (takeFault kind s) := by
  rw [command_of_ok hs, hb]

/-- A result of the body outside the faulted state completes the command (R120 step 5). -/
theorem command_of_result {body : State → Except FaultKind (State × Res)} {s t : State} {r : Res}
    (hs : s.status = .ok) (hb : body s = .ok (t, r)) : command body s = .next (complete r t) := by
  rw [command_of_ok hs, hb]

theorem cursorOf_of_unbound {s : State} {k : Fin 16} (hu : s.cursors[k.val]? = some .unbound) :
    cursorOf s k = .error .illegalCommand := by
  simp [cursorOf, hu]

theorem openCursor_of_unbound {s : State} {k : Fin 16} (hu : s.cursors[k.val]? = some .unbound) :
    openCursor s k = .error .illegalCommand := by
  simp [openCursor, cursorOf_of_unbound hu]

theorem readCommand_of_unbound {k : Fin 16} {peek : Bool}
    {body : Opened → State → Except FaultKind (State × Res)} {s : State} (hs : s.status = .ok)
    (hu : s.cursors[k.val]? = some .unbound) :
    readCommand k peek body s = .next (takeFault .illegalCommand s) :=
  command_of_error hs (by rw [openCursor_of_unbound hu])

theorem moveCursor_of_unbound {k : Fin 16} {f : Int → Int} {s : State} (hs : s.status = .ok)
    (hu : s.cursors[k.val]? = some .unbound) :
    moveCursor k f s = .next (takeFault .illegalCommand s) :=
  command_of_error hs (by rw [cursorOf_of_unbound hu])

theorem execClone_of_unbound {k d : Fin 16} {s : State} (hs : s.status = .ok)
    (hu : s.cursors[k.val]? = some .unbound) :
    execClone k d s = .next (takeFault .illegalCommand s) :=
  command_of_error hs (by rw [cursorOf_of_unbound hu])

theorem execRem_of_unbound {k : Fin 16} {s : State} (hs : s.status = .ok)
    (hu : s.cursors[k.val]? = some .unbound) :
    execRem k s = .next (takeFault .illegalCommand s) :=
  command_of_error hs (by rw [openCursor_of_unbound hu])

theorem execLz4d_of_unbound {k d : Fin 16} {s : State} (hs : s.status = .ok)
    (hu : s.cursors[k.val]? = some .unbound) :
    execLz4d k d s = .next (takeFault .illegalCommand s) := by
  simp [execLz4d, lz4Start, hs, openCursor_of_unbound hu]

/-- All that a body does to the state is at most to write the position of cursor k. -/
def MovesOnly (k : Fin 16) (body : Opened → State → Except FaultKind (State × Res)) : Prop :=
  ∀ o s t r, body o s = .ok (t, r) → t = s ∨ ∃ q, t = s.setCursor k.val (.bound o.bnd q)

theorem fetchBody_movesOnly (k : Fin 16) (n : Nat) (f : List Byte → Res) :
    MovesOnly k (fetchBody k n f) := by
  intro o s t r h
  unfold fetchBody at h
  split at h
  · cases h
  · rename_i hx
    obtain ⟨-, hx⟩ := fetchBytes_ok_iff.mp hx
    cases hx
    cases h
    exact .inr ⟨_, rfl⟩

theorem spanBody_movesOnly (k : Fin 16) (n : Nat) : MovesOnly k (spanBody k n) := by
  intro o s t r h
  unfold spanBody at h
  split at h
  · cases h
  · cases h
    exact .inr ⟨_, rfl⟩

theorem ilvBody_movesOnly (k : Fin 16) (byteCount width : Nat) :
    MovesOnly k (ilvBody byteCount width) := by
  intro o s t r h
  unfold ilvBody at h
  split at h
  · cases h
  · split at h
    · cases h
    · split at h
      · cases h
      · cases h
        exact .inl rfl

theorem words32Body_movesOnly (k : Fin 16) (count : Nat) (f : List Word → Res) :
    MovesOnly k (words32Body k count f) := by
  intro o s t r h
  unfold words32Body at h
  split at h
  · cases h
  · split at h
    · cases h
    · cases h
      exact .inr ⟨_, rfl⟩

/-- The commands that only read the slot of their cursor: the reads (R58) and the interleaves (R240 to
R247). -/
def isSlotRead : Instr → Bool
  | .ilv _ _ _ | .ilv32 _ _ | .ilv32i _ _ | .ilv32f _ _ => true
  | i => (readWidth i).isSome

theorem isSlotRead_of_readWidth {i : Instr} (h : readWidth i ≠ none) : isSlotRead i = true := by
  unfold isSlotRead
  split
  case h_5 => exact Option.isSome_iff_ne_none.mpr h
  all_goals rfl

/-- What such a command executes: `readCommand` on its cursor, with a body that at most moves it. -/
theorem exec_slotRead {i : Instr} {k : Fin 16} (hk : readsCursor i = some k) (hr : isSlotRead i = true) :
    ∃ peek body, MovesOnly k body ∧
      ∀ s, i.payloadOk = true → exec i s = readCommand k peek body s := by
  cases i with
  | reset | bload | bfree | cbind | lz4seq => cases hk
  | clone | seek | adv | rem | lz4d => cases hr
  | rdu8 _ p | rdu16le _ p | rdu16be _ p | rdu32le _ p | rdu32be _ p | rdi8 _ p | rdi16le _ p
  | rdi16be _ p | rdi32le _ p | rdi32be _ p | rdf32le _ p | rdf32be _ p | rdf64le _ p | rdf64be _ p
  | rdvfle _ p | rdvfbe _ p | rdstr _ p _ =>
    cases hk
    exact ⟨p, _, fetchBody_movesOnly k _ _, fun _ _ => rfl⟩
  | rdspan _ p n =>
    cases hk
    exact ⟨p, _, spanBody_movesOnly k _, fun _ _ => rfl⟩
  | matchb _ p n pat =>
    cases hk
    exact ⟨p, _, fetchBody_movesOnly k _ _, fun _ hp => withPayload_exact (beq_iff_eq.mp hp)⟩
  | ilv _ n w =>
    cases hk
    exact ⟨false, _, ilvBody_movesOnly k _ _, fun _ _ => rfl⟩
  | ilv32 _ n | ilv32i _ n | ilv32f _ n =>
    cases hk
    exact ⟨false, _, words32Body_movesOnly k _ _, fun _ _ => rfl⟩

/-- Settles O18, command by command: each looks its cursor up before anything else. -/
theorem unboundCursorIsIllegal : Obligations.UnboundCursorIsIllegal := by
  intro i s k hk hp hs hu
  rw [← takeFault_eq_faultedWith]
  cases i with
  | reset | bload | bfree | cbind | lz4seq => cases hk
  | clone =>
    cases hk
    exact execClone_of_unbound hs hu
  | seek | adv =>
    cases hk
    exact moveCursor_of_unbound hs hu
  | rem =>
    cases hk
    exact execRem_of_unbound hs hu
  | lz4d =>
    cases hk
    exact execLz4d_of_unbound hs hu
  | _ =>
    obtain ⟨peek, body, -, hexec⟩ := exec_slotRead hk rfl
    rw [hexec s hp, readCommand_of_unbound hs hu]

end Sys2Proof.Machine
end

section
/-! The frame of the reads and the interleaves (R26, R51, R52): one that completes writes RES and the
position of its own cursor. -/

namespace Sys2Proof.Machine

/-- A command that answers outside the faulted state has the payload it states (R83). -/
theorem payloadOk_of_next {i : Instr} {s t : State} (hs : s.status = .ok) (h : exec i s = .next t) :
    i.payloadOk = true := by
  cases i with
  | bload | matchb => exact beq_iff_eq.mpr ((withPayload_next h).2 hs)
  | _ => rfl

/-- Only RESET leads out of the faulted state (R269, R270). -/
theorem CommandResult.status_ok {i : Instr} {s t : State} (hr : CommandResult i s t) (hi : i ≠ .reset)
    (ht : t.status = .ok) : s.status = .ok := by
  cases hr with
  | ignored _ => exact ht
  | reset h => exact absurd h hi
  | fault h _ => exact h
  | loaded h => exact h
  | freed h => exact h
  | result h => exact h
  | moved h => exact h
  | block h => exact h

/-- Everything a read command can complete to: its cursor was bound and still is, to the same slot, and
nothing but its position and RES is written. -/
theorem readCommand_completes {k : Fin 16} {peek : Bool}
    {body : Opened → State → Except FaultKind (State × Res)} {s t : State} (hb : MovesOnly k body)
    (hs : s.status = .ok) (h : readCommand k peek body s = .next t) (ht : t.status = .ok) :
    ∃ b p q r, s.cursors[k.val]? = some (.bound b p) ∧
      t = complete r (s.setCursor k.val (.bound b q)) := by
  unfold readCommand at h
  obtain ⟨hne, -⟩ | ⟨-, kind, -, hc⟩ | ⟨-, u, r, hbody, hc⟩ := command_cases _ s
  · exact absurd hs hne
  · rw [hc] at h
    cases h
    cases ht
  · rw [hc] at h
    cases h
    split at hbody
    · cases hbody
    · rename_i o ho
      obtain ⟨hcur, -⟩ := openCursor_ok_iff.mp ho
      split at hbody
      · cases hbody
      · rename_i v r' hv
        obtain ⟨q, rfl⟩ : ∃ q, v = s.setCursor k.val (.bound o.bnd q) := by
          obtain rfl | hmoved := hb o s v r' hv
          · exact ⟨o.pos, (setCursor_self hcur).symm⟩
          · exact hmoved
        cases hbody
        cases peek with
        | false => exact ⟨_, _, q, _, hcur, rfl⟩
        | true => exact ⟨_, _, o.pos, r, hcur, by simp [State.setCursor, List.set_set]⟩

/-- Everything a read or an interleave can complete to. -/
theorem exec_slotRead_completes {i : Instr} {s t : State} {k : Fin 16} (hk : readsCursor i = some k)
    (hr : isSlotRead i = true) (h : exec i s = .next t) (ht : t.status = .ok) :
    s.status = .ok ∧ ∃ b p q r, s.cursors[k.val]? = some (.bound b p) ∧
      t = complete r (s.setCursor k.val (.bound b q)) := by
  have hseq : isSequence i = false := by
    cases i with
    | lz4seq => cases hk
    | _ => rfl
  have hreset : i ≠ .reset := by
    rintro rfl
    cases hk
  have hs : s.status = .ok := (exec_result hseq h).status_ok hreset ht
  obtain ⟨peek, body, hb, hexec⟩ := exec_slotRead hk hr
  rw [hexec s (payloadOk_of_next hs h)] at h
  exact ⟨hs, readCommand_completes hb hs h ht⟩

/-- Settles O27, from the form of the state after a read or an interleave. -/
theorem readCommandsFrame : Obligations.ReadCommandsFrame := by
  intro i s t k hk hread h ht
  have hr : isSlotRead i = true := by
    obtain hwidth | ⟨n, c, rfl⟩ | ⟨n, rfl⟩ | ⟨n, rfl⟩ | ⟨n, rfl⟩ := hread
    case inl => exact isSlotRead_of_readWidth hwidth
    all_goals rfl
  obtain ⟨hs, b, p, q, _, hcur, rfl⟩ := exec_slotRead_completes hk hr h ht
  obtain ⟨hlt, -⟩ := List.getElem?_eq_some_iff.mp hcur
  refine ⟨fun j a => rfl, rfl, by simp, fun j hj => ?_, ⟨b, p, q, hcur, ?_⟩, rfl, rfl, hs⟩
  · exact List.getElem?_set_ne (Ne.symm hj)
  · exact List.getElem?_set_self hlt

end Sys2Proof.Machine
end

section
/-! SEEK, ADV and REM (R126 to R128). -/

namespace Sys2Proof.Machine

/-- A move of a bound cursor, whatever the position, inside the buffer or not (R126, R127). -/
theorem moveCursor_of_bound {k : Fin 16} {f : Int → Int} {s : State} {b : Nat} {p : Int}
    (hs : s.status = .ok) (hcur : s.cursors[k.val]? = some (.bound b p)) :
    moveCursor k f s = .next (withResult (s.setCursor k.val (.bound b (f p))) .unit) := by
  rw [← complete_eq_withResult rfl]
  exact command_of_result hs (by rw [cursorOf_ok_iff (x := (b, p)) |>.mpr hcur])

theorem execRem_of_ready {s : State} {k : Fin 16} {b : Nat} {p : Int} {buf : List Byte}
    (h : Ready s k b p buf) : execRem k s = .next (withResult s (.int (buf.length - p))) := by
  rw [← complete_eq_withResult rfl]
  exact command_of_result h.ok (by rw [h.openCursor])

/-- Settles O20: SEEK and ADV are moves of the cursor, and ADV alone reads A0 as signed. -/
theorem positionCommandsTakeEffect : Obligations.PositionCommandsTakeEffect :=
  ⟨fun _ _ _ _ _ hs hcur => ⟨moveCursor_of_bound hs hcur, moveCursor_of_bound hs hcur⟩,
   fun _ _ _ _ _ h => execRem_of_ready h⟩

end Sys2Proof.Machine
end

section
/-! Reads of bytes that are known one by one, and the six float reads (R55, R167 to R175). -/

namespace Sys2Proof.Machine

/-- A span whose bytes are all there lies in the buffer. -/
theorem span_le_of_bytes {buf : List Byte} {a n : Nat} {x : Nat → Byte} (hn : 0 < n)
    (hx : ∀ i, i < n → buf[a + i]? = some (x i)) : a + n ≤ buf.length := by
  obtain ⟨hlt, -⟩ := List.getElem?_eq_some_iff.mp (hx (n - 1) (by omega))
  omega

/-- The bytes of a span, listed in order (R13). -/
theorem memRead_eq_map {buf : List Byte} {a n : Nat} {x : Nat → Byte}
    (hx : ∀ i, i < n → buf[a + i]? = some (x i)) : memRead buf a n = (List.range n).map x := by
  apply List.ext_getElem?
  intro i
  by_cases hi : i < n
  · rw [memRead_getElem? hi, hx i hi]
    simp [hi]
  · simp [memRead, hi]

/-- The state after a read of n bytes by cursor k, before RES is written: without peek the position has
advanced by n, with peek nothing has changed (R62, R129). -/
def afterRead (k : Fin 16) (peek : Bool) (b p n : Nat) (s : State) : State :=
  { s with cursors := if peek then s.cursors else s.cursors.set k.val (.bound b (p + n : Nat)) }

/-- A read in the situation it works in, its bytes known one by one. -/
theorem readBytes_of_bytes {k : Fin 16} {peek : Bool} {n : Nat} {f : List Byte → Res} {s : State}
    {b p : Nat} {buf : List Byte} {x : Nat → Byte} (h : Ready s k b p buf) (hn : 0 < n)
    (hx : ∀ i, i < n → buf[p + i]? = some (x i)) :
    readBytes k peek n f s =
      .next (complete (f ((List.range n).map x)) (afterRead k peek b p n s)) := by
  have hspan : (p : Int) + n ≤ buf.length := by exact_mod_cast span_le_of_bytes hn hx
  rw [readBytes_of_ready h (by omega) hspan, Int.toNat_natCast, memRead_eq_map hx]
  cases peek with
  | false => rfl
  | true =>
    rw [if_pos rfl, setCursor_self h.cursor]
    rfl

/-- Writing RES with one float: its pattern is delivered, and a NaN takes one draw (R167, R168). -/
theorem complete_float (f : FVal) (s : State) :
    complete (.float f) s =
      { s with
        res := .float f
        delivered := [deliver s.draws f]
        draws := if f = .nan then s.draws + 1 else s.draws } := by
  cases f with
  | nan => rfl
  | _ => rfl

/-- A read of n bytes that delivers a float made of them. -/
theorem readFloat_of_bytes {k : Fin 16} {peek : Bool} {n : Nat} {g : List Byte → FVal} {s : State}
    {b p : Nat} {buf : List Byte} {x : Nat → Byte} (h : Ready s k b p buf) (hn : 0 < n)
    (hx : ∀ i, i < n → buf[p + i]? = some (x i)) {v : FVal} (hv : g ((List.range n).map x) = v) :
    readBytes k peek n (fun bs => .float (g bs)) s =
      .next { s with
        cursors := if peek then s.cursors else s.cursors.set k.val (.bound b (p + n : Nat))
        res := .float v
        delivered := [deliver s.draws v]
        draws := if v = .nan then s.draws + 1 else s.draws } := by
  subst hv
  rw [readBytes_of_bytes h hn hx, complete_float]
  rfl

/-- The word of four bytes in little-endian order, written out (R11, R98). -/
theorem leWord_four (a b c d : Byte) :
    leWord [a, b, c, d] =
      BitVec.ofNat 32 (a.toNat + 2 ^ 8 * b.toNat + 2 ^ 16 * c.toNat + 2 ^ 24 * d.toNat) := by
  simp only [leWord, le]
  congr 1
  omega

/-- The word of four bytes in big-endian order, written out (R11, R98). -/
theorem beWord_four (a b c d : Byte) :
    beWord [a, b, c, d] =
      BitVec.ofNat 32 (2 ^ 24 * a.toNat + 2 ^ 16 * b.toNat + 2 ^ 8 * c.toNat + d.toNat) := by
  simp only [beWord, be, List.length_cons, List.length_nil]
  congr 1
  omega

/-- Settles O23: each of the six is a read of four or eight bytes, and the words it makes of them are those
of R55. -/
theorem floatReadsDeliver : Obligations.FloatReadsDeliver := by
  intro s k b p buf peek x h after leAt beAt
  refine ⟨fun hx => ⟨?_, ?_, ?_, ?_⟩, fun hx => ⟨?_, ?_⟩⟩
  · exact readFloat_of_bytes h (by decide) hx (congrArg f32 (leWord_four _ _ _ _))
  · exact readFloat_of_bytes h (by decide) hx (congrArg f32 (beWord_four _ _ _ _))
  · exact readFloat_of_bytes h (by decide) hx (congrArg vf32 (leWord_four _ _ _ _))
  · exact readFloat_of_bytes h (by decide) hx (congrArg vf32 (beWord_four _ _ _ _))
  · exact readFloat_of_bytes h (by decide) hx
      (congrArg₂ f64 (leWord_four _ _ _ _) (leWord_four _ _ _ _))
  · exact readFloat_of_bytes h (by decide) hx
      (congrArg₂ f64 (beWord_four _ _ _ _) (beWord_four _ _ _ _))

end Sys2Proof.Machine
end

section
/-! An ALLOC slot is immutable (R52): a command or a sequence writes a slot only where it is FREE, apart from
RESET and BFREE, which free it. -/

namespace Sys2Proof.Machine

/-- The bytes of a slot are those of its content, so equal slots have equal bytes (R50). -/
theorem byteOf_eq_of_slot {s t : State} {j : Nat} (h : t.slots[j]? = s.slots[j]?) (a : Nat) :
    t.byteOf j a = s.byteOf j a := by
  simp only [State.byteOf, State.bufAt, h]

/-- A write to a FREE slot leaves every ALLOC slot. -/
theorem alloc_of_set_free {slots : List Slot} {d j : Nat} {buf : List Byte} (x : Slot)
    (hd : slots[d]? = some .free) (hj : slots[j]? = some (.alloc buf)) :
    (slots.set d x)[j]? = some (.alloc buf) := by
  have hne : d ≠ j := by
    rintro rfl
    rw [hd] at hj
    cases hj
  rw [List.getElem?_set_ne hne, hj]

/-- Each slot after a reset is FREE (R121, R300). -/
theorem resetEngine_slot (s : State) (j : Nat) :
    (resetEngine s).slots[j]? = s.slots[j]?.map fun _ => .free := List.getElem?_map

/-- What becomes of an ALLOC slot: it is as before, or FREE because the instruction freed it. -/
def KeptOrFreed (i : Instr) (j : Nat) (buf : List Byte) (t : State) : Prop :=
  t.slots[j]? = some (.alloc buf) ∨
    (t.slots[j]? = some .free ∧ (i = .reset ∨ ∃ d : Fin 16, d.val = j ∧ i = .bfree d))

/-- The commands of the host: BLOAD and LZ4D fill a FREE slot, RESET and BFREE free one, no other
writes any. -/
theorem CommandResult.keptOrFreed {i : Instr} {s t : State} {j : Nat} {buf : List Byte}
    (hj : s.slots[j]? = some (.alloc buf)) (hr : CommandResult i s t) : KeptOrFreed i j buf t := by
  cases hr with
  | ignored | fault | result | moved => exact .inl hj
  | reset hi => exact .inr ⟨by rw [resetEngine_slot, hj, Option.map_some], .inl hi⟩
  | loaded _ _ _ _ _ free => exact .inl (alloc_of_set_free _ free hj)
  | freed _ d hi =>
    by_cases hd : d.val = j
    · obtain ⟨hlt, -⟩ := List.getElem?_eq_some_iff.mp hj
      exact .inr ⟨by simp [hd, hlt], .inr ⟨d, hd, hi⟩⟩
    · exact .inl ((List.getElem?_set_ne hd).trans hj)
  | block _ _ _ _ _ _ _ _ _ free => exact .inl (alloc_of_set_free _ free hj)

/-- A sequence of a block in progress writes a slot only at the block's completion, and that one is FREE. -/
theorem SeqResult.keeps_alloc {c : Lz4} {s t : State} {j : Nat} {buf : List Byte} (w : Lz4.Wf s c)
    (hj : s.slots[j]? = some (.alloc buf)) (hr : SeqResult c s t) : t.slots[j]? = some (.alloc buf) := by
  cases hr with
  | fault | more => exact hj
  | done => exact alloc_of_set_free _ w.destination hj

theorem exec_keptOrFreed {i : Instr} {s t : State} {j : Nat} {buf : List Byte} (hinv : EngineInv s)
    (hj : s.slots[j]? = some (.alloc buf)) (h : exec i s = .next t) : KeptOrFreed i j buf t := by
  cases hi : isSequence i with
  | false => exact (exec_result hi h).keptOrFreed hj
  | true =>
    cases i with
    | lz4seq l m =>
      simp only [exec, execLz4seq] at h
      split at h
      · cases h
      · rename_i c hc
        cases h
        exact .inl ((lz4Sequence_result l.val m.val c s).keeps_alloc (hinv.block c hc) hj)
    | _ => cases hi

/-- Settles O28: a slot whose content is kept has every byte of it kept. -/
theorem allocatedSlotsAreImmutable : Obligations.AllocatedSlotsAreImmutable := by
  intro i s t j buf hinv hj h
  obtain kept | freed := exec_keptOrFreed hinv hj h
  · exact .inl ⟨kept, byteOf_eq_of_slot (kept.trans hj.symm)⟩
  · exact .inr freed

end Sys2Proof.Machine
end

section
/-! Reads at a span that does not lie in the slot (R61, R261). -/

namespace Sys2Proof.Machine

/-- The span check is RDSPAN's only test (R191). -/
theorem execRdspan_past_end {k : Fin 16} {peek : Bool} {n : Word} {s : State} {b : Nat} {p : Int}
    {buf : List Byte} (h : Ready s k b p buf) (hout : p < 0 ∨ (buf.length : Int) < p + n.toNat) :
    execRdspan k peek n s = .next (takeFault .bufferUnderrun s) := by
  have hneed : need ⟨b, p, buf⟩ n.toNat = .error .bufferUnderrun := if_pos hout
  rw [execRdspan, readCommand_of_ready h]
  simp only [spanBody, zext32, hneed]

/-- Settles O25, command by command: every one begins with the span check of its width. -/
theorem readsOutsideTheSlotUnderrun : Obligations.ReadsOutsideTheSlotUnderrun := by
  intro i s k n b p buf hk hn hp h hout
  rw [← takeFault_eq_faultedWith]
  cases i with
  | reset | bload | bfree | cbind | lz4seq => cases hk
  | clone | seek | adv | rem | lz4d | ilv | ilv32 | ilv32i | ilv32f => cases hn
  | rdspan =>
    cases hk
    cases hn
    exact execRdspan_past_end h hout
  | matchb =>
    cases hk
    cases hn
    exact (withPayload_exact (beq_iff_eq.mp hp)).trans (readBytes_past_end h hout)
  | _ =>
    cases hk
    cases hn
    exact readBytes_past_end h hout

end Sys2Proof.Machine
end

section
/-! How LZ4D can complete, said without its other outcomes (R203, R213). -/

namespace Sys2Proof.Machine

/-- With no block in progress the loop has nothing to do (R204). -/
theorem lz4Loop_of_noBlock {s : State} (hl : s.lz4 = none) (n : Nat) : lz4Loop n s = s := by
  cases n with
  | zero => rfl
  | succ n => simp [lz4Loop, hl]

/-- Everything `lz4Start` can answer: the destination was FREE, and the raw path has completed or the block
is entered, with at least one payload byte (R200 to R203). -/
theorem lz4Start_ok {k d : Fin 16} {s t : State} (h : lz4Start k d s = .ok t) :
    s.slots[d.val]? = some .free ∧
      ((∃ b p out, t = lz4Commit k d b p out s) ∨
        ∃ b clen dlen p, clen ≠ 0 ∧ t = { s with lz4 := some (lz4Entry k d b clen dlen p) }) := by
  unfold lz4Start at h
  split at h
  · cases h
  · split at h
    · cases h
    · rename_i hfree
      refine ⟨needFree_ok_iff.mp hfree, ?_⟩
      split at h
      · cases h
      · dsimp only at h
        split at h
        · split at h
          · cases h
          · cases h
            exact .inl ⟨_, _, _, rfl⟩
        · rename_i hclen
          split at h
          · cases h
          · cases h
            exact .inr ⟨_, _, _, _, hclen, rfl⟩

/-- The loop from the entry of a block, with one sequence allowed for each payload byte (R218). -/
theorem lz4Loop_entry {k d : Fin 16} {b p : Nat} {clen dlen : Word} {s : State} (hc : clen ≠ 0) :
    (∃ kind, lz4Loop clen.toNat { s with lz4 := some (lz4Entry k d b clen dlen p) } = takeFault kind s) ∨
      ∃ q out, lz4Loop clen.toNat { s with lz4 := some (lz4Entry k d b clen dlen p) } =
        lz4Commit k d b q out s := by
  have hpos : 0 < clen.toNat := Nat.pos_of_ne_zero fun h0 => hc (BitVec.eq_of_toNat_eq h0)
  obtain hfault | ⟨out, -, hout⟩ :=
    lz4Loop_result (c := lz4Entry k d b clen dlen p) (s := s) (Nat.lt_succ_self _) hpos
  · exact .inl hfault
  · exact .inr ⟨_, out, hout⟩

/-- An LZ4D that is not ignored and takes no fault has filled its destination, which was FREE (R213). -/
theorem execLz4d_completes {k d : Fin 16} {s t : State} (hs : s.status = .ok)
    (h : execLz4d k d s = .next t) (ht : t.status = .ok) :
    s.slots[d.val]? = some .free ∧ ∃ b p out, t = lz4Commit k d b p out s := by
  simp only [execLz4d, hs] at h
  split at h
  · cases h
    cases ht
  · rename_i u hu
    cases h
    obtain ⟨hfree, ⟨b, p, out, rfl⟩ | ⟨b, clen, dlen, p, hc, rfl⟩⟩ := lz4Start_ok hu
    · exact ⟨hfree, b, p, out, lz4Loop_of_noBlock rfl _⟩
    · obtain ⟨kind, hfault⟩ | ⟨q, out, hout⟩ := lz4Loop_entry (s := s) hc
      · cases (congrArg State.status hfault).symm.trans ht
      · exact ⟨hfree, b, q, out, hout⟩

end Sys2Proof.Machine
end

section
/-! What a descriptor denotes to the host (R191, R306; log 10). -/

namespace Sys2Proof.Machine

/-- A descriptor denotes what its slot holds, so equal slots give equal bytes. -/
theorem spanBytes_eq_of_slot {s t : State} {j : Nat} (h : t.slots[j]? = s.slots[j]?) (a n : Nat) :
    t.spanBytes j a n = s.spanBytes j a n := by
  simp only [State.spanBytes, State.bufAt, h]

/-- A descriptor of a slot that is not ALLOC denotes nothing (R306). -/
theorem spanBytes_of_notAlloc {s : State} {j : Nat} (h : s.bufAt j = none) (a n : Nat) :
    s.spanBytes j a n = none := by
  simp only [State.spanBytes, h]

/-- A descriptor whose span lies in its ALLOC slot denotes the bytes there (R191). -/
theorem spanBytes_of_alloc {s : State} {j a n : Nat} {buf : List Byte}
    (hj : s.slots[j]? = some (.alloc buf)) (hn : a + n ≤ buf.length) :
    s.spanBytes j a n = some (memRead buf a n) := by
  simp only [State.spanBytes, bufAt_eq_some_iff.mpr hj, if_pos hn]

/-- Of two writes to one cursor the later stays. -/
theorem setCursor_setCursor (k : Nat) (c c' : Cursor) (s : State) :
    (s.setCursor k c).setCursor k c' = s.setCursor k c' := by
  simp only [State.setCursor, List.set_set]

/-- RDSPAN at a span that lies in the slot: the descriptor and no copy (R191). -/
theorem execRdspan_of_ready {k : Fin 16} {peek : Bool} {n : Word} {s : State} {b p : Nat}
    {buf : List Byte} (h : Ready s k b p buf) (hn : p + n.toNat ≤ buf.length) :
    execRdspan k peek n s =
      .next (withResult (afterRead k peek b p n.toNat s) (.span b p n.toNat)) := by
  have hneed : need ⟨b, p, buf⟩ n.toNat = .ok () :=
    need_ok_iff.mpr ⟨Int.natCast_nonneg p, Int.ofNat_le.mpr hn⟩
  rw [execRdspan, readCommand_of_ready h]
  simp only [spanBody, zext32, hneed, Int.toNat_natCast, complete_eq_withResult (r := .span b p n.toNat) rfl]
  cases peek with
  | false => rfl
  | true =>
    rw [if_pos rfl, setCursor_setCursor, setCursor_self h.cursor]
    rfl

/-- A successful RDSPAN had its span in the slot (R61). -/
theorem span_le_of_execRdspan {k : Fin 16} {peek : Bool} {n : Word} {s t : State} {b p : Nat}
    {buf : List Byte} (h : Ready s k b p buf) (hx : execRdspan k peek n s = .next t)
    (ht : t.status = .ok) : p + n.toNat ≤ buf.length := by
  by_contra hout
  rw [execRdspan_past_end h (.inr (by omega))] at hx
  cases hx
  cases ht

/-- The descriptor LZ4D delivers is the whole of its destination slot (R213). -/
theorem lz4Commit_denotes {k d : Fin 16} {b : Nat} {p : Int} {out : List Byte} {s : State}
    (hd : s.slots[d.val]? = some .free) :
    (lz4Commit k d b p out s).slots[d.val]? = some (.alloc out) ∧
      (lz4Commit k d b p out s).resBytes = some out := by
  obtain ⟨hlt, -⟩ := List.getElem?_eq_some_iff.mp hd
  have hslot : (lz4Commit k d b p out s).slots[d.val]? = some (.alloc out) := List.getElem?_set_self hlt
  have hspan := spanBytes_of_alloc hslot (a := 0) (n := out.length) (by omega)
  refine ⟨hslot, hspan.trans ?_⟩
  simp [memRead]

/-- A BFREE that is not ignored and takes no fault has freed its slot (R123). -/
theorem execBfree_completes {d : Fin 16} {s t : State} (h : execBfree d s = .next t)
    (ht : t.status = .ok) : t.slots[d.val]? = some .free := by
  unfold execBfree at h
  obtain ⟨hne, hc⟩ | ⟨-, kind, -, hc⟩ | ⟨-, u, r, hbody, hc⟩ := command_cases _ s
  · rw [hc] at h
    cases h
    exact absurd ht hne
  · rw [hc] at h
    cases h
    cases ht
  · rw [hc] at h
    cases h
    split at hbody
    · cases hbody
    · rename_i halloc
      obtain ⟨buf, hbuf⟩ := needAlloc_ok_iff.mp halloc
      obtain ⟨hlt, -⟩ := List.getElem?_eq_some_iff.mp hbuf
      cases hbody
      exact List.getElem?_set_self hlt

theorem bufAt_of_free {s : State} {j : Nat} (h : s.slots[j]? = some .free) : s.bufAt j = none := by
  simp only [State.bufAt, h]

/-- After a reset no slot is ALLOC (R121, R300). -/
theorem bufAt_resetEngine (s : State) (j : Nat) : (resetEngine s).bufAt j = none := by
  rw [State.bufAt, resetEngine_slot]
  cases s.slots[j]? with
  | none => rfl
  | some _ => rfl

/-- Settles O29, clause by clause: the two results denote bytes of ALLOC slots, ALLOC slots are immutable
(R52), and a freed slot holds nothing to denote. -/
theorem spansDenoteUntilFreed : Obligations.SpansDenoteUntilFreed := by
  refine ⟨?rdspan, ?lz4d, ?immutable, ?bfree, ?reset⟩
  case rdspan =>
    intro s t k d p buf peek n h hx ht
    have hn := span_le_of_execRdspan h hx ht
    cases hx.symm.trans (execRdspan_of_ready h hn)
    have hspan := spanBytes_of_alloc (s := s) h.slot hn
    exact ⟨_, hspan, hspan, memRead_length hn, fun i hi => memRead_getElem? hi⟩
  case lz4d =>
    intro s t k d hs hx ht
    obtain ⟨hfree, b, p, out, rfl⟩ := execLz4d_completes hs hx ht
    exact ⟨out, lz4Commit_denotes hfree⟩
  case immutable =>
    intro i s t d a n buf buf' hinv hd hx hd'
    obtain kept | ⟨freed, -⟩ := exec_keptOrFreed hinv hd hx
    · exact spanBytes_eq_of_slot (kept.trans hd.symm) a n
    · cases hd'.symm.trans freed
  case bfree =>
    intro s t d a n hx ht
    exact spanBytes_of_notAlloc (bufAt_of_free (execBfree_completes hx ht)) a n
  case reset =>
    intro s t d a n hx
    cases hx
    exact spanBytes_of_notAlloc (bufAt_resetEngine s d) a n

end Sys2Proof.Machine
end

section
/-! A narrow and a wide read at the same position (R53, R56). -/

namespace Sys2Proof.Machine

/-- In the LE reading the first n bytes are the low ones (R11). -/
theorem le_take (n : Nat) (bs : List Byte) : le (bs.take n) = le bs % 256 ^ n := by
  induction n generalizing bs with
  | zero => simp [le, Nat.mod_one]
  | succ n ih =>
    cases bs with
    | nil => simp [le]
    | cons b bs =>
      have hlow : (b.toNat + 256 * le bs) % 256 = b.toNat := by omega
      have hhigh : (b.toNat + 256 * le bs) / 256 = le bs := by omega
      rw [List.take_succ_cons, le, le, ih, pow_succ', Nat.mod_mul, hlow, hhigh]

/-- A read of fewer bytes at the same address gives the first bytes of the wider one (R56). -/
theorem take_memRead {buf : List Byte} {a m n : Nat} (h : m ≤ n) :
    (memRead buf a n).take m = memRead buf a m := by
  rw [memRead, memRead, List.take_take, Nat.min_eq_left h]

/-- A read command that finds no ALLOC slot behind its cursor takes the fault (R264). -/
theorem readCommand_of_notOpen {k : Fin 16} {peek : Bool}
    {body : Opened → State → Except FaultKind (State × Res)} {s : State} {e : FaultKind}
    (hs : s.status = .ok) (ho : openCursor s k = .error e) :
    readCommand k peek body s = .next (takeFault e s) :=
  command_of_error hs (by rw [ho])

/-- Everything a read of n bytes that writes RES can have done: its cursor was bound to an ALLOC slot that
holds the span, and it completed (R120, R268). -/
theorem readBytes_completes {k : Fin 16} {peek : Bool} {n : Nat} {f : List Byte → Res} {s t : State}
    (hs : s.status = .ok) (h : readBytes k peek n f s = .next t) (ht : t.res ≠ .none) :
    ∃ b p buf, Ready s k b p buf ∧
      t = complete (f (memRead buf p.toNat n))
        (s.setCursor k.val (.bound b (if peek then p else p + n))) := by
  cases ho : openCursor s k with
  | error e =>
    cases h.symm.trans (readCommand_of_notOpen hs ho)
    exact absurd rfl ht
  | ok o =>
    obtain ⟨hcur, hslot⟩ := openCursor_ok_iff.mp ho
    have hready : Ready s k o.bnd o.pos o.buf := ⟨hs, hcur, hslot⟩
    by_cases hin : 0 ≤ o.pos ∧ o.pos + n ≤ o.buf.length
    · cases h.symm.trans (readBytes_of_ready hready hin.1 hin.2)
      exact ⟨_, _, _, hready, rfl⟩
    · cases h.symm.trans (readBytes_past_end hready (by omega))
      exact absurd rfl ht

/-- The binding and the content a read works on are the state's own. -/
theorem Ready.unique {s : State} {k : Fin 16} {b b' : Nat} {p p' : Int} {buf buf' : List Byte}
    (h : Ready s k b p buf) (h' : Ready s k b' p' buf') : b = b' ∧ p = p' ∧ buf = buf' := by
  cases h.cursor.symm.trans h'.cursor
  cases h.slot.symm.trans h'.slot
  exact ⟨rfl, rfl, rfl⟩

/-- A completed peek leaves cursor k ready at the same bytes (R129). -/
theorem Ready.complete_peek {s : State} {k : Fin 16} {b : Nat} {p : Int} {buf : List Byte}
    (h : Ready s k b p buf) (r : Res) : Ready (complete r (s.setCursor k.val (.bound b p))) k b p buf := by
  rw [setCursor_self h.cursor]
  exact ⟨h.ok, h.cursor, h.slot⟩

/-- Settles O31: both reads are of the same bytes, and the two-byte value is the low half of the other. -/
theorem narrowAndWideReadsAgree : Obligations.NarrowAndWideReadsAgree := by
  intro s t u k v w hs hnarrow hwide hv hw
  obtain ⟨b, p, buf, hready, rfl⟩ := readBytes_completes hs hnarrow (by simp [hv])
  have hpeeked := hready.complete_peek (.int (le (memRead buf p.toNat 2)))
  obtain ⟨b', p', buf', hready', rfl⟩ := readBytes_completes hpeeked.ok hwide (by simp [hw])
  obtain ⟨rfl, rfl, rfl⟩ := hpeeked.unique hready'
  cases hv
  cases hw
  rw [← take_memRead (show 2 ≤ 4 by decide), le_take]
  exact Int.natCast_mod _ (256 ^ 2)

end Sys2Proof.Machine
end

section
/-! The match copy, byte by byte (R67, R211, R216). -/

namespace Sys2Proof.Machine

/-- One byte of a match copied, then the rest of the match: the byte is the one `off` before the end. -/
theorem MatchExtends.of_snoc {out mid : List Byte} {off n : Nat} {x : Byte} (hoff : 0 < off)
    (hle : off ≤ out.length) (hx : out[out.length - off]? = some x)
    (h : MatchExtends (out ++ [x]) off n mid) : MatchExtends out off (n + 1) mid := by
  have kept : ∀ i, i < out.length → mid[i]? = out[i]? := fun i hi => by
    rw [h.keeps i (by simp; omega), List.getElem?_append_left hi]
  refine ⟨?_, kept, fun i hi => ?_⟩
  · rw [h.length, List.length_append, List.length_singleton]
    omega
  · cases i with
    | zero =>
      calc mid[out.length]? = some x := by rw [h.keeps _ (by simp), List.getElem?_concat_length]
        _ = mid[out.length - off]? := by rw [kept _ (by omega), hx]
    | succ i =>
      have := h.repeats i (by omega)
      rw [List.length_append, List.length_singleton] at this
      rwa [Nat.add_comm i 1, ← Nat.add_assoc]

/-- Settles O41, by induction on the length of the match: after a byte is copied the distance is still
`off`, and there is one byte more to copy from. -/
theorem matchCopyRepeats : Obligations.MatchCopyRepeats := by
  intro out off ml hoff hle
  induction ml generalizing out with
  | zero => exact ⟨out, rfl, rfl, fun _ _ => rfl, fun _ ht => absurd ht (Nat.not_lt_zero _)⟩
  | succ ml ih =>
    obtain ⟨x, hx⟩ : ∃ x, out[out.length - off]? = some x :=
      ⟨_, List.getElem?_eq_getElem (by omega)⟩
    obtain ⟨mid, hcopy, hext⟩ := ih (out ++ [x]) (by simp; omega)
    have hnext : (out ++ [x]).length - off = out.length - off + 1 := by
      rw [List.length_append, List.length_singleton]
      omega
    rw [hnext] at hcopy
    exact ⟨mid, by rw [copyMatch, hx]; exact hcopy, hext.of_snoc hoff hle hx⟩

end Sys2Proof.Machine
end

section
/-! Packets and their fields (R81): a command word whose must-be-zero bits are zero is made of its opcode,
peek bit and selects, and nothing else. -/

namespace Sys2Proof

/-- The packet with the given fields at their places (R80, R81). -/
def packetOf (f : Fields) : Packet := ⟨cwOf f.opc f.p f.k f.d, f.a0, f.a1, f.payload⟩

theorem cwOf_toNat {opc : Nat} (h : opc < 256) (p : Bool) (k d : Fin 16) :
    (cwOf opc p k d).toNat = opc + 256 * p.toNat + 4096 * k.val + 65536 * d.val := by
  have := p.toNat_le
  rw [cwOf, BitVec.toNat_ofNat, Nat.mod_eq_of_lt (by omega)]

/-- The fields of a packet, as quotients and remainders of its command word. -/
theorem fieldsOf_eq (pk : Packet) :
    fieldsOf pk =
      { opc := pk.cw.toNat % 256
        p := pk.cw.toNat / 2 ^ 8 % 2 == 1
        k := Fin.ofNat 16 (pk.cw.toNat / 2 ^ 12 % 16)
        d := Fin.ofNat 16 (pk.cw.toNat / 2 ^ 16 % 16)
        a0 := pk.a0, a1 := pk.a1, payload := pk.payload } := by
  simp [fieldsOf, bits]

theorem reservedZero_iff (cw : Word) :
    reservedZero cw = true ↔ cw.toNat / 2 ^ 9 % 8 = 0 ∧ cw.toNat / 2 ^ 20 = 0 := by
  have := cw.isLt
  simp only [reservedZero, bits, Bool.and_eq_true, beq_iff_eq]
  omega

/-- Every field is read back from where it was put. -/
theorem fieldsOf_packetOf {f : Fields} (h : f.opc < 256) : fieldsOf (packetOf f) = f := by
  obtain ⟨opc, p, k, d, a0, a1, payload⟩ := f
  have hopc : opc < 256 := h
  have hcw : (packetOf ⟨opc, p, k, d, a0, a1, payload⟩).cw.toNat =
      opc + 256 * p.toNat + 4096 * k.val + 65536 * d.val := cwOf_toNat hopc p k d
  have hp := p.toNat_le
  have hbit : (opc + 256 * p.toNat + 4096 * k.val + 65536 * d.val) / 2 ^ 8 % 2 = p.toNat := by omega
  rw [fieldsOf_eq, hcw, hbit]
  simp only [Fields.mk.injEq, Fin.ext_iff, Fin.val_ofNat]
  refine ⟨by omega, ?_, by omega, by omega, rfl, rfl, rfl⟩
  cases p <;> rfl

/-- No bit of a command word lies outside its fields and the must-be-zero bits. -/
theorem packetOf_fieldsOf {pk : Packet} (h : reservedZero pk.cw = true) : packetOf (fieldsOf pk) = pk := by
  obtain ⟨hlow, hhigh⟩ := (reservedZero_iff _).mp h
  have hp : (pk.cw.toNat / 2 ^ 8 % 2 == 1).toNat = pk.cw.toNat / 2 ^ 8 % 2 := by
    cases hbit : pk.cw.toNat / 2 ^ 8 % 2 == 1 <;> simp at hbit ⊢ <;> omega
  have hcw : cwOf (fieldsOf pk).opc (fieldsOf pk).p (fieldsOf pk).k (fieldsOf pk).d = pk.cw := by
    apply BitVec.eq_of_toNat_eq
    rw [fieldsOf_eq, cwOf_toNat (Nat.mod_lt _ (by decide)), hp]
    simp only [Fin.val_ofNat]
    omega
  rw [packetOf, hcw]
  rfl

end Sys2Proof
end

section
/-! The opcode map of R84 read by columns: which opcodes are assigned, what each uses, which selects it
ranges over. -/

namespace Sys2Proof

/-- The opcodes that allow the peek bit (R84, R85). -/
def readOpcodes : List Nat :=
  [0x10, 0x11, 0x12, 0x13, 0x14, 0x18, 0x19, 0x1A, 0x1B, 0x1C, 0x20, 0x21, 0x22, 0x23, 0x24, 0x25, 0x30,
    0x31, 0x32]

/-- The opcodes that use `k` (R84). -/
def cursorOpcodes : List Nat := [0x04, 0x05, 0x06, 0x07, 0x08, 0x40, 0x50, 0x51, 0x52, 0x53] ++ readOpcodes

/-- The opcodes whose `d` is a slot (R84, R87). -/
def slotOpcodes : List Nat := [0x02, 0x03, 0x04, 0x40]

/-- The opcodes that use `A0` (R84). -/
def a0Opcodes : List Nat := [0x02, 0x06, 0x07, 0x30, 0x31, 0x32, 0x50, 0x51, 0x52, 0x53]

/-- The assigned opcodes (R84). -/
def assignedOpcodes : List Nat := [0x01, 0x02, 0x03] ++ cursorOpcodes

/-- What the row of an opcode says, column by column. -/
structure RowColumns (opc : Nat) (form : Form) : Prop where
  assigned : opc ∈ assignedOpcodes
  usesK : form.usesK = true ↔ opc ∈ cursorOpcodes
  usesD : form.usesD = true ↔ opc ∈ 0x05 :: slotOpcodes
  usesA0 : form.usesA0 = true ↔ opc ∈ a0Opcodes
  usesA1 : form.usesA1 = true ↔ opc = 0x50
  allowsP : form.allowsP = true ↔ opc ∈ readOpcodes

/-- The rows of the opcode map, one by one: opcode and columns are constants in each. -/
theorem opcodeRow_columns {f : Fields} {form : Form} {i : Instr} (h : opcodeRow f = some (form, i)) :
    RowColumns f.opc form := by
  unfold opcodeRow at h
  split at h
  all_goals cases h
  all_goals
    rename_i hopc
    rw [hopc]
    exact ⟨by decide, by decide, by decide, by decide, by decide, by decide⟩

/-- Over which selects an instruction ranges, from its opcode (R87). -/
theorem opcodeRow_selectsOk {f : Fields} {form : Form} {i : Instr} (h : opcodeRow f = some (form, i))
    (nbuf ncur : Nat) :
    i.selectsOk nbuf ncur = true ↔
      (f.opc ∈ cursorOpcodes → f.k.val < ncur) ∧ (f.opc ∈ slotOpcodes → f.d.val < nbuf) ∧
        (f.opc = 0x05 → f.d.val < ncur) := by
  unfold opcodeRow at h
  split at h
  all_goals cases h
  all_goals
    rename_i hopc
    simp [hopc, cursorOpcodes, readOpcodes, slotOpcodes, Instr.selectsOk]

/-- An opcode outside the table has no row. -/
theorem opcodeRow_eq_none_iff {f : Fields} : opcodeRow f = none ↔ f.opc ∉ assignedOpcodes := by
  constructor
  · intro h
    unfold opcodeRow at h
    split at h
    case h_33 =>
      simp_all [assignedOpcodes, cursorOpcodes, readOpcodes]
    all_goals cases h
  · intro h
    cases hrow : opcodeRow f with
    | none => rfl
    | some x => exact absurd (opcodeRow_columns hrow).assigned h

/-- An assigned opcode fits the byte of R81. -/
theorem opc_lt_of_row {f : Fields} {form : Form} {i : Instr} (h : opcodeRow f = some (form, i)) :
    f.opc < 256 := by
  have hall : ∀ n ∈ assignedOpcodes, n < 256 := by decide
  exact hall _ (opcodeRow_columns h).assigned

end Sys2Proof
end

section
/-! Decoder and encoder agree (R80 to R87, R91): an instruction and the fields of its only packet. -/

namespace Sys2Proof

/-- The fields `f` are those of the instruction `i` by the row `form` of R84: every test of R83, R85 and R86
passes. -/
structure FieldsOfInstr (f : Fields) (form : Form) (i : Instr) : Prop where
  row : opcodeRow f = some (form, i)
  peek : f.p = true → form.allowsP = true
  unused : unusedZero form f = true
  payload : payloadExact form f = true

/-- What `decode` accepts, in terms of the packet's fields. -/
theorem decode_ok_iff_fields {nbuf ncur : Nat} {p : Packet} {i : Instr} :
    decode nbuf ncur p = .ok i ↔
      reservedZero p.cw = true ∧ i.selectsOk nbuf ncur = true ∧
        ∃ form, FieldsOfInstr (fieldsOf p) form i := by
  rw [decode_ok_iff]
  constructor
  · rintro ⟨hz, form, hrow, hpeek, hunused, hsel, hpay⟩
    exact ⟨hz, hsel, form, hrow, hpeek, hunused, hpay⟩
  · rintro ⟨hz, hsel, form, hrow, hpeek, hunused, hpay⟩
    exact ⟨hz, form, hrow, hpeek, hunused, hsel, hpay⟩

/-- The encoder places fields that the opcode map reads as the instruction, the unused ones 0 (R84, R86). -/
theorem encode_command {i : Instr} (hi : Machine.isSequence i = false) (hp : i.payloadOk = true) :
    ∃ f form, encode i = .packet (packetOf f) ∧ FieldsOfInstr f form i := by
  cases i with
  | lz4seq => cases hi
  | reset => exact ⟨⟨0x01, false, 0, 0, 0, 0, []⟩, _, rfl, rfl, nofun, rfl, rfl⟩
  | bload d n pl => exact ⟨⟨0x02, false, 0, d, n, 0, pl⟩, _, rfl, rfl, nofun, rfl, hp⟩
  | bfree d => exact ⟨⟨0x03, false, 0, d, 0, 0, []⟩, _, rfl, rfl, nofun, rfl, rfl⟩
  | matchb k p n pat => exact ⟨⟨0x32, p, k, 0, n, 0, pat⟩, _, rfl, rfl, fun _ => rfl, rfl, hp⟩
  | cbind k d | clone k d | lz4d k d =>
    exact ⟨⟨_, false, k, d, 0, 0, []⟩, _, rfl, rfl, nofun, rfl, rfl⟩
  | rem k => exact ⟨⟨0x08, false, k, 0, 0, 0, []⟩, _, rfl, rfl, nofun, rfl, rfl⟩
  | seek k n | adv k n | ilv32 k n | ilv32i k n | ilv32f k n =>
    exact ⟨⟨_, false, k, 0, n, 0, []⟩, _, rfl, rfl, nofun, rfl, rfl⟩
  | ilv k bc w => exact ⟨⟨0x50, false, k, 0, bc, w, []⟩, _, rfl, rfl, nofun, rfl, rfl⟩
  | rdstr k p n | rdspan k p n =>
    exact ⟨⟨_, p, k, 0, n, 0, []⟩, _, rfl, rfl, fun _ => rfl, rfl, rfl⟩
  | rdu8 k p | rdu16le k p | rdu16be k p | rdu32le k p | rdu32be k p | rdi8 k p | rdi16le k p
  | rdi16be k p | rdi32le k p | rdi32be k p | rdf32le k p | rdf32be k p | rdf64le k p | rdf64be k p
  | rdvfle k p | rdvfbe k p =>
    exact ⟨⟨_, p, k, 0, 0, 0, []⟩, _, rfl, rfl, fun _ => rfl, rfl, rfl⟩

/-- The converse, row by row: the instruction holds the fields its row uses, and the tests leave no other value
than 0 for the rest. -/
theorem FieldsOfInstr.encode_eq {f : Fields} {form : Form} {i : Instr} (h : FieldsOfInstr f form i) :
    encode i = .packet (packetOf f) ∧ i.payloadOk = true := by
  obtain ⟨hrow, hpeek, hunused, hpay⟩ := h
  obtain ⟨opc, p, k, d, a0, a1, payload⟩ := f
  unfold opcodeRow at hrow
  split at hrow
  all_goals cases hrow
  all_goals simp_all [unusedZero, payloadExact, encode, packetOf, Instr.payloadOk]

/-- The token byte is its two nibbles (R91). -/
theorem encode_decodeSeq (b : Byte) : encode (decodeSeq b) = .token b := by
  have hb := b.isLt
  have hnibbles : 16 * (b.toNat / 16 % 16) + b.toNat % 16 = b.toNat := by omega
  simp [decodeSeq, encode, bits, hnibbles]

/-- Settles O1: the decoder reads back the fields the encoder placed. -/
theorem decodeOfEncode : Obligations.DecodeOfEncode := by
  intro nbuf ncur i hwf
  obtain ⟨hsel, hpay⟩ := Bool.and_eq_true_iff.mp hwf
  cases hi : Machine.isSequence i with
  | false =>
    obtain ⟨f, form, henc, hf⟩ := encode_command hi hpay
    have hopc := opc_lt_of_row hf.row
    rw [henc, decodeCode, decode_ok_iff_fields, fieldsOf_packetOf hopc]
    exact ⟨Laws.EncodeForm.cwOf_reserved hopc _ _ _, hsel, form, hf⟩
  | true =>
    cases i with
    | lz4seq l m => exact congrArg Except.ok (Laws.EncodeForm.lz4seq l m)
    | _ => cases hi

/-- Settles O2: the fields of a legal packet are those its instruction is encoded with, and they make up the
whole packet. -/
theorem encodeOfDecode : Obligations.EncodeOfDecode := by
  refine ⟨fun nbuf ncur p i h => ?_, encode_decodeSeq⟩
  obtain ⟨hz, hsel, form, hf⟩ := decode_ok_iff_fields.mp h
  obtain ⟨henc, hpay⟩ := hf.encode_eq
  rw [packetOf_fieldsOf hz] at henc
  exact ⟨Bool.and_eq_true_iff.mpr ⟨hsel, hpay⟩, henc⟩

end Sys2Proof
end

section
/-! Which packets are illegal encodings (R87). -/

namespace Sys2Proof

/-- A packet whose opcode has no row is an illegal encoding (R87). -/
theorem decode_illegal_of_noRow {nbuf ncur : Nat} {p : Packet} (h : opcodeRow (fieldsOf p) = none) :
    ∃ e, decode nbuf ncur p = .error e ∧ e ≠ .payloadLength := by
  unfold decode
  cases reservedZero p.cw <;> simp [h]

/-- Everything `decode` rejects a packet with an assigned opcode for, other than its payload's length alone
(R85 to R87). -/
theorem decode_illegal_iff {nbuf ncur : Nat} {p : Packet} {form : Form} {i : Instr}
    (h : opcodeRow (fieldsOf p) = some (form, i)) :
    (∃ e, decode nbuf ncur p = .error e ∧ e ≠ .payloadLength) ↔
      ¬ reservedZero p.cw = true ∨ ((fieldsOf p).p = true ∧ ¬ form.allowsP = true) ∨
        ¬ unusedZero form (fieldsOf p) = true ∨ ¬ i.selectsOk nbuf ncur = true := by
  unfold decode
  simp only [h]
  split_ifs <;> simp_all

theorem not_unusedZero_iff {form : Form} {f : Fields} :
    ¬ unusedZero form f = true ↔
      (f.k ≠ 0 ∧ ¬ form.usesK = true) ∨ (f.d ≠ 0 ∧ ¬ form.usesD = true) ∨
        (f.a0 ≠ 0 ∧ ¬ form.usesA0 = true) ∨ (f.a1 ≠ 0 ∧ ¬ form.usesA1 = true) := by
  simp only [unusedZero, Bool.and_eq_true, Bool.or_eq_true, beq_iff_eq]
  tauto

/-- The fields of a packet as the bits of its command word (R81). -/
theorem fieldsOf_bits (pk : Packet) :
    (fieldsOf pk).opc = pk.cw.toNat % 256 ∧
      ((fieldsOf pk).p = true ↔ pk.cw.toNat / 2 ^ 8 % 2 = 1) ∧
      (fieldsOf pk).k.val = pk.cw.toNat / 2 ^ 12 % 16 ∧
      (fieldsOf pk).d.val = pk.cw.toNat / 2 ^ 16 % 16 := by
  rw [fieldsOf_eq]
  simp

/-- Settles O3: with no row the opcode is unassigned; with one, each test of the decoder is a disjunct of
R87. -/
theorem illegalEncodingsExactly : Obligations.IllegalEncodingsExactly := by
  intro nbuf ncur p cw opc k d reads usesK usesSlot usesA0
  obtain ⟨hopc, hp, hk, hd⟩ := fieldsOf_bits p
  cases hrow : opcodeRow (fieldsOf p) with
  | none =>
    have hun := opcodeRow_eq_none_iff.mp hrow
    rw [hopc] at hun
    exact ⟨fun _ => .inl hun, fun _ => decode_illegal_of_noRow hrow⟩
  | some x =>
    obtain ⟨form, i⟩ := x
    obtain ⟨hassigned, hK, hD, hA0, hA1, hP⟩ := opcodeRow_columns hrow
    have hsel := opcodeRow_selectsOk hrow nbuf ncur
    rw [hopc] at hassigned hK hD hA0 hA1 hP hsel
    have hreserved : ¬ reservedZero p.cw = true ↔ cw / 2 ^ 9 % 8 ≠ 0 ∨ cw / 2 ^ 20 ≠ 0 := by
      rw [reservedZero_iff, not_and_or]
    have hunused : ¬ unusedZero form (fieldsOf p) = true ↔
        (k ≠ 0 ∧ opc ∉ usesK) ∨ (d ≠ 0 ∧ opc ∉ 0x05 :: usesSlot) ∨
          (p.a0 ≠ 0 ∧ opc ∉ usesA0) ∨ (p.a1 ≠ 0 ∧ opc ≠ 0x50) := by
      rw [not_unusedZero_iff, hK, hD, hA0, hA1, ne_eq, ne_eq (fieldsOf p).d, Fin.ext_iff, Fin.ext_iff, hk, hd]
      rfl
    have hselects : ¬ i.selectsOk nbuf ncur = true ↔
        (opc ∈ usesK ∧ ncur ≤ k) ∨ (opc ∈ usesSlot ∧ nbuf ≤ d) ∨ (opc = 0x05 ∧ ncur ≤ d) := by
      rw [hsel, hk, hd, not_and_or, not_and_or, Classical.not_imp, Classical.not_imp, Classical.not_imp,
        not_lt, not_lt, not_lt]
      rfl
    rw [decode_illegal_iff hrow, hreserved, hp, hP, hunused, hselects,
      or_iff_right (show ¬ opc ∉ [0x01, 0x02, 0x03] ++ usesK from not_not.mpr hassigned)]
    simp only [or_assoc]
    rfl

end Sys2Proof
end

section
/-! Command words written out from the spec (R81, R84, R91). -/

namespace Sys2Proof

/-- Settles O4: the decoder computes on each of the ten words. -/
theorem specWordsDecode : Obligations.SpecWordsDecode :=
  ⟨rfl, rfl, rfl, rfl, rfl, rfl, rfl, rfl, rfl, rfl⟩

end Sys2Proof
end

section
/-! What a step fetches beside a legal packet: the next token of a block in progress (R91, R316), and a packet
that is an illegal encoding (R87). -/

namespace Sys2Proof.Machine

/-- The token at `ip` is the next instruction of a block in progress. -/
theorem fetch_token {s : State} {c : Lz4} {b : Byte} (hl : s.lz4 = some c) (hip : c.ip < c.blockEnd)
    (hb : s.byteOf c.src c.ip = some b) : fetch s = .instr (decodeSeq b) s := by
  simp [fetch, hl, hip, lz4Token, hb]

/-- Settles O6: a token made of two nibbles decodes to the sequence of those nibbles. -/
theorem stepRunsNextSequence : Obligations.StepRunsNextSequence := by
  intro s c l m hl hip hb
  have hdec : decodeSeq (BitVec.ofNat 8 (16 * l.val + m.val)) = .lz4seq l m := Laws.EncodeForm.lz4seq l m
  rw [step, fetch_token hl hip hb, hdec]

/-- A packet at the head of the inbox that does not decode is rejected (R120 step 2). -/
theorem fetch_packet_of_reject {s : State} {p : Packet} {rest : List HostInput} {e : Illegal}
    (hl : s.lz4 = none) (hin : s.inbox = .packet p :: rest)
    (hd : decode s.slots.length s.cursors.length p = .error e) :
    fetch s = .rejected e { s with inbox := rest } := by
  simp [fetch, fetchPacket, hl, hin, hd]

/-- Outside the faulted state an illegal encoding takes IllegalCommand (R87). -/
theorem rejectPacket_illegal {e : Illegal} {s : State} (hs : s.status = .ok) (he : e ≠ .payloadLength) :
    rejectPacket e s = .next (takeFault .illegalCommand s) := by
  simp only [rejectPacket, hs, if_neg he]

/-- Settles O7: the packet is taken from the inbox, then rejected. -/
theorem illegalPacketRaises : Obligations.IllegalPacketRaises := by
  intro s p rest e hl hin hs hd he
  rw [step, fetch_packet_of_reject hl hin hd]
  exact rejectPacket_illegal (s := { s with inbox := rest }) hs he

end Sys2Proof.Machine
end

section
/-! The two stops of the model (logs 2 and 4): a payload of the wrong length, and a sequence outside a
block. -/

namespace Sys2Proof.Machine

/-- A payload of the wrong length is refused outside the faulted state, whatever the command (U14). -/
theorem withPayload_refused {n : Word} {payload : List Byte}
    {run : State → Host.Outcome State Fault Refusal} {s : State} (hs : s.status = .ok)
    (h : payload.length ≠ n.toNat) : withPayload n payload run s = .refused .payloadLength :=
  if_pos ⟨hs, h⟩

/-- In the faulted state the length of the payload is not looked at (R120 step 1). -/
theorem withPayload_of_faulted {n : Word} {payload : List Byte}
    {run : State → Host.Outcome State Fault Refusal} {s : State} (hs : s.status ≠ .ok) :
    withPayload n payload run s = run s :=
  if_neg fun h => hs h.1

/-- A read command in the faulted state has no effect (R269). -/
theorem readCommand_of_faulted {k : Fin 16} {peek : Bool}
    {body : Opened → State → Except FaultKind (State × Res)} {s : State} (hs : s.status ≠ .ok) :
    readCommand k peek body s = .next s := command_of_faulted hs

/-- Settles O19: both commands test their payload first, and are `command`s behind the test. -/
theorem wrongPayloadIsRefused : Obligations.WrongPayloadIsRefused := by
  intro s x k peek n pl hpl
  refine ⟨fun hs => ⟨?_, ?_⟩, fun hs => ⟨?_, ?_⟩⟩
  · exact withPayload_refused hs hpl
  · exact withPayload_refused hs hpl
  · exact (withPayload_of_faulted hs).trans (command_of_faulted hs)
  · exact (withPayload_of_faulted hs).trans (readCommand_of_faulted hs)

/-- Settles O52, by the definition of LZ4.SEQ. -/
theorem sequenceOutsideBlockStops : Obligations.SequenceOutsideBlockStops := by
  intro s l m hl
  simp only [exec, execLz4seq, hl]

end Sys2Proof.Machine
end

section
/-! The 32-bit float formats (R99 to R102, R161, R166): the value of three fields, and the fields of the two
words. -/

namespace Sys2Proof.Machine

/-- A zero exponent field is +0, whatever the sign (R161, R166). -/
theorem floatOfFields_zero (m : Nat) (neg : Bool) : floatOfFields 0 m neg = .posZero := rfl

/-- The value of the fields, with the powers of two as powers (R161, R166). -/
theorem floatOfFields_of_ne_zero {e : Nat} (he : e ≠ 0) (m : Nat) (neg : Bool) :
    floatOfFields e m neg = .fin (if neg then -((2 : Rat) ^ ((e : Int) - 127) * (1 + (m : Rat) / 2 ^ 23))
      else (2 : Rat) ^ ((e : Int) - 127) * (1 + (m : Rat) / 2 ^ 23)) := by
  have hcast : ((2 ^ 23 : Nat) : Rat) = 2 ^ 23 := by norm_cast
  rw [floatOfFields, if_neg he, applySign, pow2_eq_zpow, Rat.mkRat_eq_div, hcast]
  rfl

/-- VF32 with its fields as quotients and remainders of the word (R101). -/
theorem vf32_eq (w : Word) :
    vf32 w = floatOfFields (w.toNat / 2 ^ 24) (w.toNat / 2 % 2 ^ 23) (decide (w.toNat % 2 = 1)) := by
  have hexp : bits w.toNat 31 24 = w.toNat / 2 ^ 24 := Nat.mod_eq_of_lt (by have := w.isLt; omega)
  have hsign : bits w.toNat 0 0 = w.toNat % 2 := by simp [bits]
  rw [vf32, hexp, hsign]
  rfl

/-- F32 with its fields as quotients and remainders of the word (R99). -/
theorem f32_eq (w : Word) :
    f32 w = floatOfFields (w.toNat / 2 ^ 23 % 2 ^ 8) (w.toNat % 2 ^ 23) (decide (0x7FFFFFFF < w.toNat)) := by
  have hman : bits w.toNat 22 0 = w.toNat % 2 ^ 23 := by simp [bits]
  rw [f32, hman]
  rfl

/-- Settles O33: the two cases of the exponent field. -/
theorem vendorFloatValue : Obligations.VendorFloatValue := by
  intro w e m q
  refine ⟨fun he => ?_, fun he => ?_⟩
  · rw [vf32_eq, show w.toNat / 2 ^ 24 = 0 from he, floatOfFields_zero]
  · rw [vf32_eq, floatOfFields_of_ne_zero he]
    simp only [decide_eq_true_eq]
    rfl

/-- The three fields of a vendor word are its digits (R101). -/
theorem vendorWord_fields {e m s : Nat} (hm : m < 2 ^ 23) (hs : s < 2) :
    (2 ^ 24 * e + 2 * m + s) / 2 ^ 24 = e ∧ (2 ^ 24 * e + 2 * m + s) / 2 % 2 ^ 23 = m ∧
      (2 ^ 24 * e + 2 * m + s) % 2 = s := by
  omega

/-- Settles O35: the rotation carries each field of the standard word to its place in the vendor word, and
the value is a function of the fields. -/
theorem vendorIsRotatedStandard : Obligations.VendorIsRotatedStandard := by
  intro f v
  have hf := f.isLt
  have hv : v.toNat = 2 ^ 24 * (f.toNat / 2 ^ 23 % 2 ^ 8) + 2 * (f.toNat % 2 ^ 23) + f.toNat / 2 ^ 31 := by
    rw [BitVec.toNat_ofNat]
    omega
  have hs : f.toNat / 2 ^ 31 < 2 := by omega
  obtain ⟨hexp, hman, hsign⟩ := vendorWord_fields (e := f.toNat / 2 ^ 23 % 2 ^ 8)
    (Nat.mod_lt f.toNat (by decide)) hs
  rw [← hv] at hexp hman hsign
  have hneg : decide (v.toNat % 2 = 1) = decide (0x7FFFFFFF < f.toNat) := by
    rw [decide_eq_decide]
    omega
  exact ⟨hexp, hman, hsign, by rw [vf32_eq, f32_eq, hexp, hman, hneg]⟩

end Sys2Proof.Machine
end

section
/-! Length extensions (R92, R206, R210): the repeat loop on bytes of 255. -/

namespace Sys2Proof.Machine

/-- A byte of 255 is added and reading goes on. -/
theorem readExtension_cons_255 {bs : List Byte} {v n : Nat} (h : readExtension bs = .ok (v, n)) :
    readExtension (255 :: bs) = .ok (255 + v, n + 1) := by
  simp only [readExtension, if_true, h]

/-- Any other byte ends it. -/
theorem readExtension_cons_of_ne {e : Byte} (he : e ≠ 255) (bs : List Byte) :
    readExtension (e :: bs) = .ok (e.toNat, 1) := by
  simp only [readExtension, if_neg he]

/-- Bytes of 255 and an ending byte: each adds itself. -/
theorem readExtension_run (m : Nat) {e : Byte} (he : e ≠ 255) (rest : List Byte) :
    readExtension (List.replicate m 255 ++ e :: rest) = .ok (255 * m + e.toNat, m + 1) := by
  induction m with
  | zero => simpa using readExtension_cons_of_ne he rest
  | succ m ih =>
    rw [List.replicate_succ, List.cons_append, readExtension_cons_255 ih]
    congr 2
    omega

/-- Bytes of 255 up to the end of the buffer. -/
theorem readExtension_underrun (m : Nat) :
    readExtension (List.replicate m 255) = .error .bufferUnderrun := by
  induction m with
  | zero => rfl
  | succ m ih => simp only [List.replicate_succ, readExtension, if_true, ih]

/-- Settles O40, by induction on the number of bytes of 255. -/
theorem lengthExtensionRule : Obligations.LengthExtensionRule :=
  ⟨fun m _ rest he => readExtension_run m he rest, readExtension_underrun⟩

end Sys2Proof.Machine
end

section
/-! The interleaves (R240 to R249): the elements and the words of a run that lies in the slot, byte by byte,
and what each command does with them. -/

namespace Sys2Proof.Machine

/-- Where no element raises, `collect` is `map`. -/
theorem collect_eq_map {α β : Type} {f : α → Except FaultKind β} {g : α → β} {as : List α}
    (h : ∀ a ∈ as, f a = .ok (g a)) : collect f as = .ok (as.map g) :=
  collect_ok_iff.mpr (List.forall₂_map_right_iff.mpr (List.forall₂_same.mpr h))

/-- Byte a of a buffer, 0 where it does not exist. -/
def byteOrZero (buf : List Byte) (a : Nat) : Byte := buf.getD a 0

theorem byteOrZero_of_lt {buf : List Byte} {a : Nat} (h : a < buf.length) :
    buf[a]? = some (byteOrZero buf a) := by
  simp [byteOrZero, h]

theorem byteAt_eq {buf : List Byte} {a : Nat} (h : a < buf.length) :
    byteAt buf a = .ok (byteOrZero buf a) :=
  byteAt_ok_iff.mpr (byteOrZero_of_lt h)

/-- Byte j of element i lies in a run of `width` planes (R104). -/
theorem planeIndex_lt {p count width i j : Nat} (hi : i < count) (hj : j < width) :
    planeIndex p count i j < p + count * width := by
  have : j * count + count ≤ count * width := by
    calc j * count + count = count * (j + 1) := by ring
      _ ≤ count * width := Nat.mul_le_mul_left count hj
  unfold planeIndex
  omega

/-- Element i of the run at p (R240). -/
def planeElem (buf : List Byte) (p count width i : Nat) : List Byte :=
  (List.range width).map fun j => byteOrZero buf (planeIndex p count i j)

theorem ilvElem_eq {buf : List Byte} {p count width i : Nat} (hrun : p + count * width ≤ buf.length)
    (hi : i < count) : ilvElem buf p count width i = .ok (planeElem buf p count width i) :=
  collect_eq_map fun _ hj =>
    byteAt_eq ((planeIndex_lt hi (List.mem_range.mp hj)).trans_le hrun)

/-- The elements of a run that lies in the buffer. -/
theorem ilvElems_eq {buf : List Byte} {p count width : Nat} (hrun : p + count * width ≤ buf.length) :
    ilvElems buf p count width = .ok ((List.range count).map (planeElem buf p count width)) :=
  collect_eq_map fun _ hi => ilvElem_eq hrun (List.mem_range.mp hi)

theorem planeElem_getElem? {buf : List Byte} {p count width i j : Nat}
    (hrun : p + count * width ≤ buf.length) (hi : i < count) (hj : j < width) :
    (planeElem buf p count width i)[j]? = buf[p + j * count + i]? := by
  have hlt := (planeIndex_lt (p := p) hi hj).trans_le hrun
  rw [show p + j * count + i = planeIndex p count i j from rfl, byteOrZero_of_lt hlt]
  simp [planeElem, hj]

/-- ILV with a good geometry and its run in the slot (R240, R242). -/
theorem execIlv_of_ready {s : State} {k : Fin 16} {b p : Nat} {buf : List Byte} {bc w : Word}
    (h : Ready s k b p buf) (hw : w.toNat ≠ 0) (hmod : bc.toNat % w.toNat = 0)
    (hrun : p + bc.toNat ≤ buf.length) :
    execIlv k bc w s = .next (withResult s (.elems
      ((List.range (bc.toNat / w.toNat)).map (planeElem buf p (bc.toNat / w.toNat) w.toNat)))) := by
  have hneed : need ⟨b, p, buf⟩ bc.toNat = .ok () :=
    need_ok_iff.mpr ⟨Int.natCast_nonneg p, Int.ofNat_le.mpr hrun⟩
  have hcount : bc.toNat / w.toNat * w.toNat = bc.toNat := Nat.div_mul_cancel (Nat.dvd_of_mod_eq_zero hmod)
  have hgeom : ¬ (w.toNat = 0 ∨ bc.toNat % w.toNat ≠ 0) := not_or.mpr ⟨hw, not_not.mpr hmod⟩
  rw [execIlv, readCommand_of_ready h]
  simp only [ilvBody, zext32, if_neg hgeom, hneed, Int.toNat_natCast, ilvElems_eq (hcount.symm ▸ hrun)]
  exact congrArg _ (complete_eq_withResult rfl s)

/-- Settles O53: the elements are maps over the ranges of i and j. -/
theorem interleaveDelivers : Obligations.InterleaveDelivers := by
  intro s k b p buf bc w h hw hmod hrun
  have hcount : bc.toNat / w.toNat * w.toNat = bc.toNat := Nat.div_mul_cancel (Nat.dvd_of_mod_eq_zero hmod)
  refine ⟨_, execIlv_of_ready h hw hmod hrun, by simp, fun i hi => ?_⟩
  exact ⟨planeElem buf p (bc.toNat / w.toNat) w.toNat i, by simp [hi], by simp [planeElem],
    fun j hj => planeElem_getElem? (hcount.symm ▸ hrun) hi hj⟩

/-- The `mod byteCount` of R243 changes no index of the run (R248). -/
theorem wordPlaneIndex_eq {p count i j : Nat} (hi : i < count) (hj : j < 4) :
    wordPlaneIndex p count i j = planeIndex p count i j := by
  have := planeIndex_lt (p := 0) hi hj
  unfold planeIndex at this
  rw [wordPlaneIndex, planeIndex, Nat.mod_eq_of_lt (by omega)]
  omega

/-- Word i of the run at p, plane 0 most significant (R105). -/
def planeWordAt (buf : List Byte) (p count i : Nat) : Word :=
  wordOfPlanes (byteOrZero buf (planeIndex p count i 0)) (byteOrZero buf (planeIndex p count i 1))
    (byteOrZero buf (planeIndex p count i 2)) (byteOrZero buf (planeIndex p count i 3))

theorem planeWord_eq {buf : List Byte} {p count i : Nat} (hrun : p + count * 4 ≤ buf.length)
    (hi : i < count) : planeWord buf p count i = .ok (planeWordAt buf p count i) := by
  have hbyte : ∀ j, j < 4 →
      byteAt buf (planeIndex p count i j) = .ok (byteOrZero buf (planeIndex p count i j)) :=
    fun j hj => byteAt_eq ((planeIndex_lt hi hj).trans_le hrun)
  have hzero : p + i = planeIndex p count i 0 := by simp [planeIndex]
  rw [planeWord, hzero, wordPlaneIndex_eq hi (by decide), wordPlaneIndex_eq hi (by decide),
    wordPlaneIndex_eq hi (by decide), hbyte 0 (by decide), hbyte 1 (by decide), hbyte 2 (by decide),
    hbyte 3 (by decide)]
  rfl

/-- The words of a run that lies in the buffer (R243). -/
theorem planeWords_eq {buf : List Byte} {p count : Nat} (hrun : p + count * 4 ≤ buf.length) :
    planeWords buf p count = .ok ((List.range count).map (planeWordAt buf p count)) :=
  collect_eq_map fun _ hi => planeWord_eq hrun (List.mem_range.mp hi)

theorem wordOfPlanes_toNat (b0 b1 b2 b3 : Byte) :
    (wordOfPlanes b0 b1 b2 b3).toNat =
      2 ^ 24 * b0.toNat + 2 ^ 16 * b1.toNat + 2 ^ 8 * b2.toNat + b3.toNat := by
  have := b0.isLt
  have := b1.isLt
  have := b2.isLt
  have := b3.isLt
  rw [wordOfPlanes, BitVec.toNat_ofNat]
  omega

/-- The bytes word i is made of (R243). -/
theorem planeWordAt_bytes {buf : List Byte} {p count i : Nat} (hrun : p + count * 4 ≤ buf.length)
    (hi : i < count) :
    ∃ b0 b1 b2 b3 : Byte,
      buf[p + i]? = some b0 ∧ buf[p + count + i]? = some b1 ∧ buf[p + 2 * count + i]? = some b2 ∧
        buf[p + 3 * count + i]? = some b3 ∧
        (planeWordAt buf p count i).toNat =
          2 ^ 24 * b0.toNat + 2 ^ 16 * b1.toNat + 2 ^ 8 * b2.toNat + b3.toNat := by
  have hbyte : ∀ j, j < 4 → buf[planeIndex p count i j]? = some (byteOrZero buf (planeIndex p count i j)) :=
    fun j hj => byteOrZero_of_lt ((planeIndex_lt hi hj).trans_le hrun)
  have hzero : p + i = planeIndex p count i 0 := by simp [planeIndex]
  have hone : p + count + i = planeIndex p count i 1 := by simp [planeIndex]
  refine ⟨_, _, _, _, ?_, ?_, hbyte 2 (by decide), hbyte 3 (by decide), wordOfPlanes_toNat _ _ _ _⟩
  · rw [hzero, hbyte 0 (by decide)]
  · rw [hone, hbyte 1 (by decide)]

/-- A command of the ILV32 family whose run lies in the slot: it completes with what it makes of the words
and advances past them (R243). -/
theorem words32_of_ready {s : State} {k : Fin 16} {b : Nat} {p : Int} {buf : List Byte} {n : Nat}
    {f : List Word → Res} (h : Ready s k b p buf) (h0 : 0 ≤ p) (hrun : p + 4 * n ≤ buf.length) :
    readCommand k false (words32Body k n f) s =
      .next (complete (f ((List.range n).map (planeWordAt buf p.toNat n)))
        { s with cursors := s.cursors.set k.val (.bound b (p + 4 * n)) }) := by
  have hneed : need ⟨b, p, buf⟩ (4 * n) = .ok () := by
    rw [need_ok_iff]
    dsimp only
    omega
  rw [readCommand_of_ready h]
  simp only [words32Body, hneed, planeWords_eq (show p.toNat + n * 4 ≤ buf.length by omega), Nat.cast_mul]
  rfl

/-- A command of the ILV32 family whose run does not lie in the slot (R261). -/
theorem words32_past_end {s : State} {k : Fin 16} {b : Nat} {p : Int} {buf : List Byte} {n : Nat}
    {f : List Word → Res} (h : Ready s k b p buf) (hout : p < 0 ∨ (buf.length : Int) < p + 4 * n) :
    readCommand k false (words32Body k n f) s = .next (faultedWith s .bufferUnderrun) := by
  have hneed : need ⟨b, p, buf⟩ (4 * n) = .error .bufferUnderrun := if_pos (by dsimp only; omega)
  rw [readCommand_of_ready h]
  simp only [words32Body, hneed, takeFault_eq_faultedWith]

/-- Floats none of which is NaN are delivered without a draw (R168). -/
theorem deliverAll_of_no_nan {n : Nat} {fs : List FVal} (h : ∀ f ∈ fs, f ≠ .nan) :
    deliverAll n fs = (fs.map (deliver n), n) := by
  induction fs with
  | nil => rfl
  | cons f fs ih =>
    have hdraw : drawsOf f = 0 := by
      cases f with
      | nan => exact absurd rfl (h _ List.mem_cons_self)
      | _ => rfl
    rw [deliverAll, hdraw, Nat.add_zero, ih fun g hg => h g (List.mem_cons_of_mem f hg)]
    rfl

/-- Writing RES with the vendor floats of words: no NaN is among them (R166, R167). -/
theorem complete_vendorFloats (ws : List Word) (s : State) :
    complete (.floats (ws.map vf32)) s =
      { s with res := .floats (ws.map vf32), delivered := ws.map fun w => deliver s.draws (vf32 w) } := by
  have hno : ∀ f ∈ ws.map vf32, f ≠ .nan := by
    rintro f hf
    obtain ⟨w, -, rfl⟩ := List.mem_map.mp hf
    exact vf32_ne_nan w
  simp only [complete, Res.floatList, deliverAll_of_no_nan hno, List.map_map, Function.comp_def]

/-- Settles O55: the three commands differ only in what they make of the words. -/
theorem wordInterleavesDeliver : Obligations.WordInterleavesDeliver := by
  intro s k b p buf count h n
  constructor
  · intro h0 hrun moved
    have hspan : p.toNat + n * 4 ≤ buf.length := by omega
    refine ⟨(List.range n).map (planeWordAt buf p.toNat n), by simp, fun i hi => ?_, ?_, ?_, ?_⟩
    · obtain ⟨b0, b1, b2, b3, hbytes⟩ := planeWordAt_bytes hspan hi
      exact ⟨_, b0, b1, b2, b3, by simp [hi], hbytes⟩
    · exact (words32_of_ready h h0 hrun).trans (congrArg _ (complete_eq_withResult rfl moved))
    · exact (words32_of_ready h h0 hrun).trans (congrArg _ (complete_eq_withResult rfl moved))
    · exact (words32_of_ready h h0 hrun).trans (congrArg _ (complete_vendorFloats _ moved))
  · intro hout
    exact ⟨words32_past_end h hout, words32_past_end h hout, words32_past_end h hout⟩

end Sys2Proof.Machine
end

section
/-! Bytes at a place of a buffer, said by what the buffer holds from there on. -/

namespace Sys2Proof.Machine

/-- A read of what stands at a place (R13). -/
theorem memRead_of_drop {buf xs tail : List Byte} {a : Nat} (h : buf.drop a = xs ++ tail) :
    memRead buf a xs.length = xs := by
  rw [memRead, h, List.take_left]

/-- What stands behind it. -/
theorem drop_of_drop {buf xs tail : List Byte} {a : Nat} (h : buf.drop a = xs ++ tail) :
    buf.drop (a + xs.length) = tail := by
  rw [← List.drop_drop, h, List.drop_left]

/-- The first byte there. -/
theorem getElem?_of_drop {buf tail : List Byte} {a : Nat} {x : Byte} (h : buf.drop a = x :: tail) :
    buf[a]? = some x := by
  have := congrArg (·[0]?) h
  simpa [List.getElem?_drop] using this

/-- How long the buffer is at least, where something stands there. -/
theorem length_of_drop {buf xs : List Byte} {a : Nat} (h : buf.drop a = xs) (hpos : 0 < xs.length) :
    buf.length = a + xs.length := by
  subst h
  rw [List.length_drop] at hpos ⊢
  omega

end Sys2Proof.Machine
end

section
/-! The lengths of a sequence (R91, R92, R206, R210): the engine reads back what the format writes. -/

namespace Sys2Proof.Machine

theorem lengthNibble_lt (n : Nat) : lengthNibble n < 16 := by
  unfold lengthNibble
  omega

/-- The nibbles of a token are its two length fields (R91). -/
theorem bits_tokenByte (l m : Nat) :
    bits (tokenByte l m).toNat 7 4 = lengthNibble l ∧ bits (tokenByte l m).toNat 3 0 = lengthNibble m := by
  have := lengthNibble_lt l
  have := lengthNibble_lt m
  have htoken : (tokenByte l m).toNat = 16 * lengthNibble l + lengthNibble m := by
    rw [tokenByte, BitVec.toNat_ofNat]
    omega
  simp only [bits, htoken]
  omega

theorem lengthNibble_eq_fifteen_iff {n : Nat} : lengthNibble n = 15 ↔ 15 ≤ n := by
  unfold lengthNibble
  omega

/-- A short length is its own nibble and has no extension (R92). -/
theorem length_short {n : Nat} (h : n < 15) : lengthNibble n = n ∧ lengthExtension n = [] :=
  ⟨by unfold lengthNibble; omega, if_pos h⟩

/-- The extension of a long length adds what is beyond 15 (R92). -/
theorem readExtension_lengthExtension {n : Nat} (h : 15 ≤ n) (tail : List Byte) :
    readExtension (lengthExtension n ++ tail) = .ok (n - 15, (lengthExtension n).length) := by
  have hlast : (BitVec.ofNat 8 ((n - 15) % 255)).toNat = (n - 15) % 255 := by
    rw [BitVec.toNat_ofNat]
    omega
  have hne : (BitVec.ofNat 8 ((n - 15) % 255) : Byte) ≠ 255 := by
    intro heq
    have : (n - 15) % 255 = 255 := hlast.symm.trans (congrArg BitVec.toNat heq)
    omega
  rw [lengthExtension, if_neg (by omega), List.append_assoc, List.singleton_append,
    readExtension_run _ hne, hlast, List.length_append, List.length_replicate, List.length_singleton]
  congr 2
  omega

/-- R206 on a length of the format. -/
theorem seqLiteralLength_format {buf tail : List Byte} {c : Lz4} {n : Nat} (hlit : c.lit = lengthNibble n)
    (hdrop : buf.drop c.ip = lengthExtension n ++ tail) :
    seqLiteralLength buf c = .ok { c with lit := n, ip := c.ip + (lengthExtension n).length } := by
  unfold seqLiteralLength
  rw [hlit]
  by_cases h : 15 ≤ n
  · have hfull := lengthNibble_eq_fifteen_iff.mpr h
    rw [if_pos hfull, hdrop, readExtension_lengthExtension h]
    simp only [hfull, Nat.add_sub_cancel' h]
  · obtain ⟨hnibble, hext⟩ := length_short (not_le.mp h)
    rw [if_neg (by omega), hext, List.length_nil, Nat.add_zero, ← hnibble, ← hlit]

/-- R210 on a length of the format: the fixed minimum of 4 is not written (R94). -/
theorem seqMatchLength_format {buf tail : List Byte} {c : Lz4} {n : Nat} (hml : c.ml = lengthNibble n)
    (hdrop : buf.drop c.ip = lengthExtension n ++ tail) :
    seqMatchLength buf c = .ok { c with ml := n + 4, ip := c.ip + (lengthExtension n).length } := by
  unfold seqMatchLength
  rw [hml]
  by_cases h : 15 ≤ n
  · have hfull := lengthNibble_eq_fifteen_iff.mpr h
    rw [if_pos hfull, hdrop, readExtension_lengthExtension h]
    simp only [hfull, Nat.add_sub_cancel' h]
  · obtain ⟨hnibble, hext⟩ := length_short (not_le.mp h)
    rw [if_neg (by omega), hext, hnibble]
    rfl

end Sys2Proof.Machine
end

section
/-! A whole sequence of the format (R90, R205 to R211): the literal run, then the match. -/

namespace Sys2Proof.Machine

/-- The block in progress behind the token and the extension bytes of a literal length `n`, `m` being the low
nibble of the token. -/
def Lz4.afterLength (c : Lz4) (n m : Nat) : Lz4 :=
  { c with ip := c.ip + 1 + (lengthExtension n).length, lit := n, ml := m }

/-- The block in progress behind the token, the extension bytes and the literals of a sequence, `m` being the
low nibble of its token. -/
def Lz4.afterRun (c : Lz4) (lits : List Byte) (m : Nat) : Lz4 :=
  { c with
    ip := c.ip + (1 + (lengthExtension lits.length).length + lits.length)
    lit := lits.length, ml := m, out := c.out ++ lits }

/-- The block in progress behind the offset and the extension bytes of a match, its output being `mid`. -/
def Lz4.afterMatch (c : Lz4) (off ml : Nat) (mid : List Byte) : Lz4 :=
  { c with
    ip := c.ip + (2 + (lengthExtension (ml - 4)).length)
    ml := ml, off := BitVec.ofNat 16 off, start := (c.op : Int) - off, out := mid }

/-- A sequence up to its literals; then the match is due exactly when input remains (R205 to R208). -/
theorem seqBody_of_run {buf lits tail : List Byte} {t : Byte} {c : Lz4} {l m : Nat}
    (hl : l = lengthNibble lits.length)
    (hdrop : buf.drop c.ip = t :: (lengthExtension lits.length ++ (lits ++ tail)))
    (hip : (c.afterRun lits m).ip ≤ c.blockEnd) (hout : (c.out ++ lits).length ≤ c.dlen.toNat) :
    seqBody buf l m c =
      if (c.afterRun lits m).ip < c.blockEnd then seqMatch buf (c.afterRun lits m)
      else .ok (c.afterRun lits m) := by
  have htoken : buf.drop (c.ip + 1) = lengthExtension lits.length ++ (lits ++ tail) :=
    drop_of_drop (xs := [t]) hdrop
  have hip' : c.ip + (1 + (lengthExtension lits.length).length + lits.length) =
      c.ip + 1 + (lengthExtension lits.length).length + lits.length := by omega
  have hlength : seqLiteralLength buf (seqToken l m c) = .ok (c.afterLength lits.length m) :=
    seqLiteralLength_format (c := seqToken l m c) hl htoken
  have hcopy : seqLiterals buf (c.afterLength lits.length m) = .ok (c.afterRun lits m) := by
    rw [seqLiterals_copy (hip' ▸ hip) (List.length_append ▸ hout)]
    simp only [Lz4.afterLength, memRead_of_drop (drop_of_drop htoken), Lz4.afterRun, hip']
  simp only [seqBody, hlength, hcopy]
  rfl

/-- R209 on an offset of the format (R93). -/
theorem seqOffset_format {buf tail : List Byte} {c : Lz4} {off : Nat} (hoff : off < 65536)
    (hdrop : buf.drop c.ip = [BitVec.ofNat 8 off, BitVec.ofNat 8 (off / 256)] ++ tail) :
    seqOffset buf c =
      .ok { c with off := BitVec.ofNat 16 off, ip := c.ip + 2, start := (c.op : Int) - off } := by
  have hlen := length_of_drop hdrop (by simp)
  have hread : memRead buf c.ip 2 = [BitVec.ofNat 8 off, BitVec.ofNat 8 (off / 256)] := memRead_of_drop hdrop
  have hle : le (memRead buf c.ip 2) = off := by
    rw [hread]
    simp only [le, BitVec.toNat_ofNat]
    omega
  have hnat : (BitVec.ofNat 16 off).toNat = off := Nat.mod_eq_of_lt hoff
  rw [List.length_append] at hlen
  simp only [List.length_cons, List.length_nil] at hlen
  unfold seqOffset
  simp only [if_neg (show ¬ buf.length < c.ip + 2 by omega), hle, hnat]

/-- A match determines the output it leads to: each new byte is one further left (R211). -/
theorem MatchExtends.unique {out mid mid' : List Byte} {off ml : Nat} (hoff : 0 < off)
    (hle : off ≤ out.length) (h : MatchExtends out off ml mid) (h' : MatchExtends out off ml mid') :
    mid = mid' := by
  have hagree : ∀ i, i < out.length + ml → mid[i]? = mid'[i]? := by
    intro i
    induction i using Nat.strong_induction_on with
    | h i ih =>
      intro hi
      by_cases hold : i < out.length
      · rw [h.keeps i hold, h'.keeps i hold]
      · obtain ⟨t, rfl⟩ := Nat.exists_eq_add_of_le (not_lt.mp hold)
        have ht : t < ml := by omega
        rw [h.repeats t ht, h'.repeats t ht]
        exact ih _ (by omega) (by omega)
  apply List.ext_getElem?
  intro i
  by_cases hi : i < out.length + ml
  · exact hagree i hi
  · have := h.length
    have := h'.length
    rw [List.getElem?_eq_none (by omega), List.getElem?_eq_none (by omega)]

/-- The copy loop produces the output the match stands for. -/
theorem copyMatch_of_extends {out mid : List Byte} {off ml : Nat} (hoff : 0 < off)
    (hle : off ≤ out.length) (h : MatchExtends out off ml mid) :
    copyMatch out (out.length - off) ml = some mid := by
  obtain ⟨mid', hcopy, hext⟩ := matchCopyRepeats out off ml hoff hle
  rw [hcopy, h.unique hoff hle hext]

/-- The match part of a legal sequence (R209 to R211). -/
theorem seqMatch_format {buf tail mid : List Byte} {c : Lz4} {q : Sequence}
    (hml : c.ml = lengthNibble (q.ml - 4))
    (hdrop : buf.drop c.ip =
      [BitVec.ofNat 8 q.off, BitVec.ofNat 8 (q.off / 256)] ++ (lengthExtension (q.ml - 4) ++ tail))
    (hlegal : q.Legal c.out.length) (hext : MatchExtends c.out q.off q.ml mid)
    (hdlen : mid.length ≤ c.dlen.toNat) :
    seqMatch buf c = .ok (c.afterMatch q.off q.ml mid) := by
  obtain ⟨hpos, hle, hwidth, hmin⟩ := hlegal
  have hnat : (BitVec.ofNat 16 q.off).toNat = q.off := Nat.mod_eq_of_lt hwidth
  have hne : BitVec.ofNat 16 q.off ≠ 0 := fun h0 => by
    rw [h0] at hnat
    exact absurd hnat (by simp; omega)
  have hstart : ((c.op : Int) - q.off).toNat = c.out.length - q.off := by
    unfold Lz4.op
    omega
  have hlen := hext.length
  have hlength := seqMatchLength_format
    (c := { c with off := BitVec.ofNat 16 q.off, ip := c.ip + 2, start := (c.op : Int) - q.off })
    hml (drop_of_drop hdrop)
  unfold seqMatch
  rw [seqOffset_format hwidth hdrop]
  dsimp only
  rw [hlength, Nat.sub_add_cancel hmin]
  dsimp only
  rw [seqMatchCopy_copy (out := mid) hne (by simp only [Lz4.op]; omega) (by simp only [Lz4.op]; omega)
    (by rw [hstart]; exact copyMatch_of_extends hpos hle hext), Lz4.afterMatch, ← Nat.add_assoc]

/-- The block in progress behind a whole sequence with a match, its output being `mid`. -/
def Lz4.afterSequence (c : Lz4) (q : Sequence) (mid : List Byte) : Lz4 :=
  { c with
    ip := c.ip + q.bytes.length, lit := q.lits.length, ml := q.ml, off := BitVec.ofNat 16 q.off
    start := (c.op : Int) + q.lits.length - q.off, out := mid }

/-- The bytes of a sequence: the run, the offset, the extension of the match length (R90). -/
theorem Sequence.bytes_length (q : Sequence) :
    q.bytes.length = q.runLength + (2 + (lengthExtension (q.ml - 4)).length) := by
  simp only [Sequence.bytes, Sequence.runLength, List.length_cons, List.length_append, List.length_nil]
  omega

/-- A sequence is its run and then its match. -/
theorem afterRun_afterMatch (c : Lz4) (q : Sequence) (m : Nat) (mid : List Byte) :
    (c.afterRun q.lits m).afterMatch q.off q.ml mid = c.afterSequence q mid := by
  simp only [Lz4.afterMatch, Lz4.afterRun, Lz4.afterSequence, Lz4.op, List.length_append, Nat.cast_add,
    q.bytes_length, Sequence.runLength, Nat.add_assoc]

/-- Every legal sequence with a match, its literals ending before the block end (R205 to R211). -/
theorem seqBody_format {buf rest mid : List Byte} {c : Lz4} {q : Sequence} {l m : Nat}
    (hdrop : buf.drop c.ip = q.bytes ++ rest) (hl : l = lengthNibble q.lits.length)
    (hm : m = lengthNibble (q.ml - 4)) (hdue : c.ip + q.runLength < c.blockEnd)
    (hlegal : q.Legal (c.out ++ q.lits).length) (hext : MatchExtends (c.out ++ q.lits) q.off q.ml mid)
    (hdlen : mid.length ≤ c.dlen.toNat) :
    seqBody buf l m c = .ok (c.afterSequence q mid) := by
  have hparts : buf.drop c.ip = tokenByte q.lits.length (q.ml - 4) ::
      (lengthExtension q.lits.length ++ (q.lits ++
        ([BitVec.ofNat 8 q.off, BitVec.ofNat 8 (q.off / 256)] ++ (lengthExtension (q.ml - 4) ++ rest)))) := by
    rw [hdrop, Sequence.bytes]
    simp only [List.cons_append, List.append_assoc]
  have hmatch : buf.drop (c.afterRun q.lits m).ip =
      [BitVec.ofNat 8 q.off, BitVec.ofNat 8 (q.off / 256)] ++ (lengthExtension (q.ml - 4) ++ rest) := by
    have := drop_of_drop (drop_of_drop (drop_of_drop (xs := [_]) hparts))
    simpa only [Lz4.afterRun, List.length_singleton, Nat.add_assoc] using this
  have hrun : (c.out ++ q.lits).length ≤ c.dlen.toNat := by
    have := hext.length
    omega
  have hip : (c.afterRun q.lits m).ip < c.blockEnd := hdue
  rw [seqBody_of_run hl hparts hip.le hrun, if_pos hip,
    seqMatch_format (c := c.afterRun q.lits m) hm hmatch hlegal hext hdlen, afterRun_afterMatch]

theorem lastBytes_length (lits : List Byte) (n : Nat) :
    (lastBytes lits n).length = 1 + (lengthExtension lits.length).length + lits.length := by
  simp only [lastBytes, List.length_cons, List.length_append]
  omega

/-- The last sequence of a block, whatever the low nibble of its token (R95, R208). -/
theorem seqBody_last {buf lits rest : List Byte} {c : Lz4} {n l : Nat} (m : Nat)
    (hdrop : buf.drop c.ip = lastBytes lits n ++ rest) (hl : l = lengthNibble lits.length)
    (hend : c.ip + (lastBytes lits n).length = c.blockEnd)
    (hout : (c.out ++ lits).length ≤ c.dlen.toNat) :
    seqBody buf l m c = .ok (c.afterRun lits m) := by
  have hparts : buf.drop c.ip =
      tokenByte lits.length n :: (lengthExtension lits.length ++ (lits ++ rest)) := by
    rw [hdrop, lastBytes, List.cons_append, List.append_assoc]
  have hip : (c.afterRun lits m).ip = c.blockEnd := by
    rw [← hend, lastBytes_length]
    rfl
  rw [seqBody_of_run hl hparts hip.le hout, if_neg hip.not_lt]

end Sys2Proof.Machine
end

section
/-! LZ4.SEQ on a sequence of the format (R204 to R213): the block goes on, or it completes. -/

namespace Sys2Proof.Machine

/-- The completion of a block, written out (R213). -/
theorem lz4Commit_eq (k d : Fin 16) (src : Nat) (pnew : Int) (out : List Byte) (s : State) :
    lz4Commit k d src pnew out s = { s with
      slots := s.slots.set d.val (.alloc out)
      cursors := s.cursors.set k.val (.bound src pnew)
      res := .span d.val 0 out.length, delivered := [], lz4 := none } := rfl

theorem lz4Finish_of_exact {c : Lz4} {s : State} (hip : c.ip = c.blockEnd) (hop : c.op = c.dlen.toNat) :
    lz4Finish c s = lz4Commit c.k c.d c.src c.blockEnd c.out s := by
  rw [lz4Finish, blockEndCheck_ok_iff (u := ()).mpr ⟨hip, hop⟩]

/-- More of the block behind the sequence (R204). -/
theorem lz4Sequence_continues {l m : Nat} {c c' : Lz4} {s : State} {buf : List Byte}
    (hbuf : s.bufAt c.src = some buf) (hbody : seqBody buf l m c = .ok c') (hdue : c'.ip < c'.blockEnd) :
    lz4Sequence l m c s = { s with lz4 := some c' } := by
  simp only [lz4Sequence, hbuf, hbody, if_pos hdue]

/-- The sequence ends where the block and its output do (R212, R213). -/
theorem lz4Sequence_completes {l m : Nat} {c c' : Lz4} {s : State} {buf : List Byte}
    (hbuf : s.bufAt c.src = some buf) (hbody : seqBody buf l m c = .ok c') (hip : c'.ip = c'.blockEnd)
    (hop : c'.op = c'.dlen.toNat) :
    lz4Sequence l m c s = lz4Commit c'.k c'.d c'.src c'.blockEnd c'.out s := by
  simp only [lz4Sequence, hbuf, hbody, if_neg hip.not_lt, lz4Finish_of_exact hip hop]

theorem exec_lz4seq {l m : Fin 16} {c : Lz4} {s : State} (hl : s.lz4 = some c) :
    exec (.lz4seq l m) s = .next (lz4Sequence l.val m.val c s) := by
  simp only [exec, execLz4seq, hl]

/-- A sequence with a match, more of the block behind it. -/
theorem lz4Sequence_match_continues {s : State} {c : Lz4} {buf rest mid : List Byte} {q : Sequence}
    {l m : Nat} (hbuf : s.bufAt c.src = some buf) (hdrop : buf.drop c.ip = q.bytes ++ rest)
    (hl : l = lengthNibble q.lits.length) (hm : m = lengthNibble (q.ml - 4))
    (hip : c.ip + q.bytes.length < c.blockEnd) (hlegal : q.Legal (c.out ++ q.lits).length)
    (hext : MatchExtends (c.out ++ q.lits) q.off q.ml mid) (hdlen : mid.length ≤ c.dlen.toNat) :
    lz4Sequence l m c s = { s with lz4 := some (c.afterSequence q mid) } := by
  have hlen := q.bytes_length
  exact lz4Sequence_continues hbuf (seqBody_format hdrop hl hm (by omega) hlegal hext hdlen) hip

/-- A sequence with a match that ends the block (R95, R217). -/
theorem lz4Sequence_match_completes {s : State} {c : Lz4} {buf rest mid : List Byte} {q : Sequence}
    {l m : Nat} (hbuf : s.bufAt c.src = some buf) (hdrop : buf.drop c.ip = q.bytes ++ rest)
    (hl : l = lengthNibble q.lits.length) (hm : m = lengthNibble (q.ml - 4))
    (hip : c.ip + q.bytes.length = c.blockEnd) (hlegal : q.Legal (c.out ++ q.lits).length)
    (hext : MatchExtends (c.out ++ q.lits) q.off q.ml mid) (hdlen : mid.length = c.dlen.toNat) :
    lz4Sequence l m c s = lz4Commit c.k c.d c.src c.blockEnd mid s := by
  have hlen := q.bytes_length
  exact lz4Sequence_completes hbuf (seqBody_format hdrop hl hm (by omega) hlegal hext hdlen.le) hip hdlen

/-- The last sequence of a block (R95). -/
theorem lz4Sequence_last {s : State} {c : Lz4} {buf lits rest : List Byte} {n l : Nat} (m : Nat)
    (hbuf : s.bufAt c.src = some buf) (hdrop : buf.drop c.ip = lastBytes lits n ++ rest)
    (hl : l = lengthNibble lits.length) (hip : c.ip + (lastBytes lits n).length = c.blockEnd)
    (hdlen : (c.out ++ lits).length = c.dlen.toNat) :
    lz4Sequence l m c s = lz4Commit c.k c.d c.src c.blockEnd (c.out ++ lits) s := by
  have hend : (c.afterRun lits m).ip = c.blockEnd := by
    rw [← hip, lastBytes_length]
    rfl
  exact lz4Sequence_completes hbuf (seqBody_last m hdrop hl hip hdlen.le) hend hdlen

/-- Settles O46: the whole sequence is read back, and input remains. -/
theorem sequenceWithMatchContinues : Obligations.SequenceWithMatchContinues := by
  intro s c buf rest mid q l m hs hbuf hdrop hl hm hip hlegal hext hdlen
  rw [exec_lz4seq hs, lz4Sequence_match_continues hbuf hdrop hl hm hip hlegal hext hdlen]
  rfl

/-- Settles O47: the end checks pass behind the match. -/
theorem sequenceWithMatchCompletes : Obligations.SequenceWithMatchCompletes := by
  intro s c buf rest mid q l m hs hbuf hdrop hl hm hip hlegal hext hdlen
  rw [exec_lz4seq hs, lz4Sequence_match_completes hbuf hdrop hl hm hip hlegal hext hdlen, lz4Commit_eq, hdlen]

/-- Settles O48: behind the literals no input remains, so no match is due, and the end checks pass. -/
theorem lastSequenceCompletes : Obligations.LastSequenceCompletes := by
  intro s c buf lits rest n l m hs hbuf hdrop hl hip hdlen
  rw [exec_lz4seq hs, lz4Sequence_last m.val hbuf hdrop hl hip hdlen, lz4Commit_eq, hdlen]

end Sys2Proof.Machine
end

section
/-! The start of LZ4D (R88, R200 to R203): a header of the format, then the raw path or the entry of the
block. -/

namespace Sys2Proof.Machine

/-- The four bytes of a u32 in little-endian order, read back (R11, R54). -/
theorem leWord_bytes (n : Nat) :
    leWord [BitVec.ofNat 8 n, BitVec.ofNat 8 (n / 256), BitVec.ofNat 8 (n / 65536),
      BitVec.ofNat 8 (n / 16777216)] = BitVec.ofNat 32 n := by
  rw [leWord_four]
  apply BitVec.eq_of_toNat_eq
  simp only [BitVec.toNat_ofNat]
  omega

/-- What LZ4D reads of a header (R88). -/
theorem leWord_header {buf body : List Byte} {p clen dlen : Nat} {r0 r1 r2 r3 : Byte}
    (h : buf.drop p = headerBytes clen dlen r0 r1 r2 r3 ++ body) :
    leWord (memRead buf p 4) = BitVec.ofNat 32 clen ∧
      leWord (memRead buf (p + 4) 4) = BitVec.ofNat 32 dlen ∧
      buf.drop (p + 12) = body ∧ buf.length = p + 12 + body.length := by
  have hlen := length_of_drop h (by simp [headerBytes])
  have hclen : memRead buf p 4 = (headerBytes clen dlen r0 r1 r2 r3).take 4 := by
    simp [memRead, h, headerBytes]
  have hdlen : memRead buf (p + 4) 4 = ((headerBytes clen dlen r0 r1 r2 r3).drop 4).take 4 := by
    rw [memRead, ← List.drop_drop, h]
    simp [headerBytes]
  refine ⟨?_, ?_, drop_of_drop h, ?_⟩
  · rw [hclen]
    exact leWord_bytes clen
  · rw [hdlen]
    exact leWord_bytes dlen
  · rw [hlen, List.length_append, Nat.add_assoc]
    rfl

section
variable {s : State} {k d : Fin 16} {b p clen dlen : Nat} {buf body : List Byte} {r0 r1 r2 r3 : Byte}

/-- LZ4D on a header that lies in the slot, the destination being FREE: the two paths (R202, R203). -/
theorem lz4Start_of_ready (h : Ready s k b p buf) (hd : s.slots[d.val]? = some .free)
    (hdrop : buf.drop p = headerBytes clen dlen r0 r1 r2 r3 ++ body) (hdlen : dlen < 2 ^ 32) :
    (clen = 0 → dlen ≤ body.length →
      lz4Start k d s = .ok (lz4Commit k d b (p + 12 + dlen : Nat) (body.take dlen) s)) ∧
    (0 < clen → clen < 2 ^ 32 → clen ≤ body.length →
      lz4Start k d s = .ok { s with
        lz4 := some (lz4Entry k d b (BitVec.ofNat 32 clen) (BitVec.ofNat 32 dlen) (p + 12)) }) := by
  obtain ⟨hc, hl, hbody, hlen⟩ := leWord_header hdrop
  have hneed : need ⟨b, p, buf⟩ 12 = .ok () :=
    need_ok_iff.mpr ⟨Int.natCast_nonneg p, by dsimp only; omega⟩
  have hdnat : (BitVec.ofNat 32 dlen).toNat = dlen := Nat.mod_eq_of_lt hdlen
  unfold lz4Start
  simp only [h.openCursor, needFree_ok_iff (u := ()).mpr hd, hneed, Int.toNat_natCast, hc, hl, hdnat]
  constructor
  · rintro rfl hin
    rw [if_pos (show BitVec.ofNat 32 0 = 0 from rfl), if_neg (by omega), memRead, hbody]
  · intro hpos hclen hin
    have hcnat : (BitVec.ofNat 32 clen).toNat = clen := Nat.mod_eq_of_lt hclen
    have hne : BitVec.ofNat 32 clen ≠ 0 := fun h0 => by
      rw [h0] at hcnat
      exact hpos.ne hcnat
    rw [if_neg hne, hcnat, if_neg (by omega)]

/-- LZ4D is its start, and then the loop, with one sequence allowed for each byte of the block (R204). -/
theorem execLz4d_of_start {t : State} (hs : s.status = .ok) (h : lz4Start k d s = .ok t) :
    execLz4d k d s = .next (lz4Loop (lz4Fuel t) t) := by
  simp only [execLz4d, hs, h]

end

/-- The bytes of a buffer behind those in front of it. -/
theorem drop_behind (pre xs ys zs : List Byte) :
    (pre ++ xs ++ ys ++ zs).drop pre.length = xs ++ (ys ++ zs) := by
  rw [List.append_assoc, List.append_assoc, List.drop_left]

/-- Settles O42: the raw path completes at once. -/
theorem rawBlockDelivers : Obligations.RawBlockDelivers := by
  intro s k d b pre payload post r0 r1 r2 r3 hlen h hd
  have hstart := (lz4Start_of_ready h hd (drop_behind _ _ _ _) hlen).1 rfl (by simp)
  rw [List.take_left] at hstart
  exact (execLz4d_of_start h.ok hstart).trans (congrArg _ (lz4Loop_of_noBlock rfl _))

end Sys2Proof.Machine
end

section
/-! The loop of LZ4D on a whole block of the format (R95, R204, R217), by induction on its sequences. -/

namespace Sys2Proof.Machine

/-- No block is empty but the one without sequence and without tail. -/
theorem blockBytes_length_eq_zero {qs : List Sequence} {tail : BlockTail}
    (h : (blockBytes qs tail).length = 0) : qs = [] ∧ tail = .afterMatch := by
  cases qs with
  | cons q qs => simp [blockBytes, Sequence.bytes] at h
  | nil =>
    cases tail with
    | literals lits m => simp [blockBytes, BlockTail.bytes, lastBytes] at h
    | afterMatch => exact ⟨rfl, rfl⟩

theorem blockBytes_cons (q : Sequence) (qs : List Sequence) (tail : BlockTail) :
    blockBytes (q :: qs) tail = q.bytes ++ blockBytes qs tail := by
  simp [blockBytes]

/-- The output of a block only grows (R211). -/
theorem Expands.length_le {out lits final : List Byte} {qs : List Sequence}
    (h : Expands out qs lits final) : out.length ≤ final.length := by
  induction qs generalizing out with
  | nil => simp [show final = out ++ lits from h]
  | cons q qs ih =>
    obtain ⟨-, mid, hext, hrest⟩ := h
    have := hext.length
    have := ih hrest
    rw [List.length_append] at *
    omega

/-- The next sequence of a block in progress is that of the token at `ip` (R205). -/
theorem lz4Next_of_token {s : State} {c : Lz4} {buf tail : List Byte} {l m : Nat}
    (hbuf : s.bufAt c.src = some buf) (hdrop : buf.drop c.ip = tokenByte l m :: tail)
    (hdue : c.ip < c.blockEnd) :
    lz4Next c s = lz4Sequence (lengthNibble l) (lengthNibble m) c s := by
  have htoken : lz4Token c s = some (tokenByte l m) := by
    simp only [lz4Token, State.byteOf, hbuf, getElem?_of_drop hdrop]
  obtain ⟨hhigh, hlow⟩ := bits_tokenByte l m
  simp only [lz4Next, if_pos hdue, htoken, hhigh, hlow]

theorem lz4Loop_succ {n : Nat} {c : Lz4} {s : State} :
    lz4Loop (n + 1) { s with lz4 := some c } = lz4Loop n (lz4Next c { s with lz4 := some c }) := rfl

/-- A completed block ends the loop. -/
theorem lz4Loop_of_commit {n : Nat} {c : Lz4} {s : State} {k d : Fin 16} {src : Nat} {p : Int}
    {out : List Byte} (hn : 0 < n)
    (h : lz4Next c { s with lz4 := some c } = lz4Commit k d src p out { s with lz4 := some c }) :
    lz4Loop n { s with lz4 := some c } = lz4Commit k d src p out s := by
  obtain ⟨n, rfl⟩ := Nat.exists_eq_add_of_lt hn
  rw [Nat.zero_add, lz4Loop_succ, h]
  exact lz4Loop_of_noBlock rfl n

/-- Everything the loop does with a block of the format: it completes with the output the block stands for. -/
theorem lz4Loop_block {qs : List Sequence} {tail : BlockTail} {s : State} {c : Lz4}
    {buf final post : List Byte} {n : Nat} (hbuf : s.bufAt c.src = some buf)
    (hdrop : buf.drop c.ip = blockBytes qs tail ++ post)
    (hend : c.ip + (blockBytes qs tail).length = c.blockEnd) (hpos : 0 < (blockBytes qs tail).length)
    (hexp : Expands c.out qs tail.lits final) (hfinal : final.length = c.dlen.toNat)
    (hn : (blockBytes qs tail).length ≤ n) :
    lz4Loop n { s with lz4 := some c } = lz4Commit c.k c.d c.src c.blockEnd final s := by
  induction qs generalizing c n with
  | nil =>
    cases tail with
    | afterMatch => exact absurd hpos (by simp [blockBytes, BlockTail.bytes])
    | literals lits m =>
      obtain rfl : final = c.out ++ lits := hexp
      refine lz4Loop_of_commit (hpos.trans_le hn) ?_
      rw [lz4Next_of_token (s := { s with lz4 := some c }) hbuf hdrop (by omega)]
      exact lz4Sequence_last _ hbuf hdrop rfl hend hfinal
  | cons q qs ih =>
    obtain ⟨hlegal, mid, hext, hrest⟩ := hexp
    rw [blockBytes_cons, List.append_assoc] at hdrop
    rw [blockBytes_cons, List.length_append] at hend hn
    have hqlen := q.bytes_length
    have hmid : mid.length ≤ c.dlen.toNat := hfinal ▸ hrest.length_le
    have hnext := lz4Next_of_token (s := { s with lz4 := some c }) hbuf hdrop (by omega)
    cases hz : (blockBytes qs tail).length with
    | zero =>
      obtain ⟨rfl, rfl⟩ := blockBytes_length_eq_zero hz
      obtain rfl : final = mid := hrest.trans (List.append_nil mid)
      refine lz4Loop_of_commit (by omega) (hnext.trans ?_)
      exact lz4Sequence_match_completes hbuf hdrop rfl rfl (by omega) hlegal hext hfinal
    | succ r =>
      obtain ⟨n, rfl⟩ : ∃ n', n = n' + 1 := ⟨n - 1, by omega⟩
      rw [lz4Loop_succ, hnext,
        lz4Sequence_match_continues (s := { s with lz4 := some c }) hbuf hdrop rfl rfl (by omega) hlegal
          hext hmid]
      exact ih (c := c.afterSequence q mid) hbuf (drop_of_drop hdrop)
        (by simp only [Lz4.afterSequence]; omega) (by omega) hrest hfinal (by omega)

/-- Settles O43: LZ4D enters the block at its first byte, and the loop has a sequence allowed for each. -/
theorem compressedBlockDelivers : Obligations.CompressedBlockDelivers := by
  intro s k d b pre post r0 r1 r2 r3 qs tail final hexp hfinal hpos hlen h hd
  have hdrop := drop_behind pre (headerBytes (blockBytes qs tail).length final.length r0 r1 r2 r3)
    (blockBytes qs tail) post
  have hstart := (lz4Start_of_ready h hd hdrop hfinal).2 hpos hlen (by simp)
  have hcnat : (BitVec.ofNat 32 (blockBytes qs tail).length).toNat = (blockBytes qs tail).length :=
    Nat.mod_eq_of_lt hlen
  have hdnat : (BitVec.ofNat 32 final.length).toNat = final.length := Nat.mod_eq_of_lt hfinal
  have hloop := lz4Loop_block (qs := qs) (tail := tail) (s := s)
    (c := lz4Entry k d b (BitVec.ofNat 32 (blockBytes qs tail).length) (BitVec.ofNat 32 final.length)
      (pre.length + 12))
    (bufAt_eq_some_iff.mpr h.slot) (drop_of_drop hdrop) (congrArg _ hcnat.symm) hpos hexp hdnat.symm
    hcnat.ge
  refine (execLz4d_of_start h.ok hstart).trans (congrArg _ (hloop.trans ?_))
  simp only [lz4Commit_eq, lz4Entry, hcnat]

end Sys2Proof.Machine
end

section
/-! Every command ends (R120, R218): no command of the host stops, once its payload has the length it
states. -/

namespace Sys2Proof.Machine

/-- A command answers a next state whatever its body does (R120). -/
theorem command_ends (body : State → Except FaultKind (State × Res)) (s : State) :
    ∃ t, command body s = .next t := by
  obtain ⟨-, h⟩ | ⟨-, _, -, h⟩ | ⟨-, _, _, -, h⟩ := command_cases body s
  · exact ⟨_, h⟩
  · exact ⟨_, h⟩
  · exact ⟨_, h⟩

/-- LZ4D in the faulted state has no effect (R269). -/
theorem execLz4d_of_faulted {k d : Fin 16} {s : State} (hs : s.status ≠ .ok) :
    execLz4d k d s = .next s := by
  unfold execLz4d
  split
  · rfl
  · rename_i hok
    exact absurd hok hs

/-- A raise before the first sequence of LZ4D is taken (R200 to R203, R268). -/
theorem execLz4d_of_error {k d : Fin 16} {s : State} {e : FaultKind} (hs : s.status = .ok)
    (h : lz4Start k d s = .error e) : execLz4d k d s = .next (takeFault e s) := by
  simp only [execLz4d, hs, h]

/-- LZ4D answers a next state, its loop being bounded (R218). -/
theorem execLz4d_ends (k d : Fin 16) (s : State) : ∃ t, execLz4d k d s = .next t := by
  by_cases hs : s.status = .ok
  · cases hstart : lz4Start k d s with
    | error e => exact ⟨_, execLz4d_of_error hs hstart⟩
    | ok u => exact ⟨_, execLz4d_of_start hs hstart⟩
  · exact ⟨s, execLz4d_of_faulted hs⟩

theorem moveCursor_ends (k : Fin 16) (f : Int → Int) (s : State) :
    ∃ t, moveCursor k f s = .next t := command_ends _ s

/-- A read or an interleave answers a next state (R120). -/
theorem exec_slotRead_ends {i : Instr} {k : Fin 16} (hk : readsCursor i = some k)
    (hr : isSlotRead i = true) (hp : i.payloadOk = true) (s : State) : ∃ t, exec i s = .next t := by
  obtain ⟨peek, body, -, hexec⟩ := exec_slotRead hk hr
  rw [hexec s hp]
  exact command_ends _ s

/-- Settles O12: RESET and LZ4D aside, every command is a `command`, behind the test of its payload where it
has one. -/
theorem commandsAlwaysEnd : Obligations.CommandsAlwaysEnd := by
  refine ⟨fun i s hi hp => ?_, fun l m c s hl => ⟨_, exec_lz4seq hl⟩⟩
  cases i with
  | lz4seq => cases hi
  | reset => exact ⟨_, rfl⟩
  | bload =>
    obtain ⟨t, ht⟩ := command_ends _ s
    exact ⟨t, (withPayload_exact (beq_iff_eq.mp hp)).trans ht⟩
  | bfree | cbind | clone | rem =>
    rw [exec]
    exact command_ends _ s
  | seek | adv => exact moveCursor_ends _ _ s
  | lz4d k d => exact execLz4d_ends k d s
  | _ => exact exec_slotRead_ends rfl rfl hp s

end Sys2Proof.Machine
end

section
/-! BLOAD, BFREE, CBIND, CLONE (R122 to R125): the next state where each rule's conditions hold, and
IllegalCommand where a slot is in the wrong state (R264). -/

namespace Sys2Proof.Machine

/-- A command whose body answers Unit writes RES and delivers no float (R29). -/
theorem command_of_unit {body : State → Except FaultKind (State × Res)} {s t : State}
    (hs : s.status = .ok) (hb : body s = .ok (t, .unit)) :
    command body s = .next (withResult t .unit) := by
  rw [command_of_result hs hb, complete_eq_withResult rfl]

theorem needFree_of_alloc {s : State} {d : Fin 16} {b : List Byte}
    (h : s.slots[d.val]? = some (.alloc b)) : needFree s d = .error .illegalCommand := by
  simp only [needFree, h]

theorem needAlloc_of_free {s : State} {d : Fin 16} (h : s.slots[d.val]? = some .free) :
    needAlloc s d = .error .illegalCommand := by
  simp only [needAlloc, h]

theorem execBload_of_free {s : State} {d : Fin 16} {n : Word} {pl : List Byte} (hs : s.status = .ok)
    (hpl : pl.length = n.toNat) (hd : s.slots[d.val]? = some .free) :
    execBload d n pl s = .next (withResult (s.setSlot d.val (.alloc pl)) .unit) :=
  (withPayload_exact hpl).trans
    (command_of_unit hs (by rw [needFree_ok_iff (u := ()) |>.mpr hd]))

theorem execBload_of_alloc {s : State} {d : Fin 16} {n : Word} {pl b : List Byte} (hs : s.status = .ok)
    (hpl : pl.length = n.toNat) (hd : s.slots[d.val]? = some (.alloc b)) :
    execBload d n pl s = .next (takeFault .illegalCommand s) :=
  (withPayload_exact hpl).trans (command_of_error hs (by rw [needFree_of_alloc hd]))

theorem execBfree_of_alloc {s : State} {d : Fin 16} {b : List Byte} (hs : s.status = .ok)
    (hd : s.slots[d.val]? = some (.alloc b)) :
    execBfree d s = .next (withResult (freeSlot d.val s) .unit) :=
  command_of_unit hs (by rw [needAlloc_ok_iff (u := ()) |>.mpr ⟨b, hd⟩])

theorem execBfree_of_free {s : State} {d : Fin 16} (hs : s.status = .ok)
    (hd : s.slots[d.val]? = some .free) : execBfree d s = .next (takeFault .illegalCommand s) :=
  command_of_error hs (by rw [needAlloc_of_free hd])

theorem execCbind_of_alloc {s : State} {k d : Fin 16} {b : List Byte} (hs : s.status = .ok)
    (hd : s.slots[d.val]? = some (.alloc b)) (hk : k.val < s.cursors.length) :
    execCbind k d s = .next (withResult (s.setCursor k.val (.bound d.val 0)) .unit) :=
  command_of_unit hs (by
    rw [needCursor_ok_iff (u := ()) |>.mpr hk, needAlloc_ok_iff (u := ()) |>.mpr ⟨b, hd⟩])

/-- CBIND raises nothing but IllegalCommand, so a FREE slot gives it whatever cursor k is (R124). -/
theorem execCbind_of_free {s : State} {k d : Fin 16} (hs : s.status = .ok)
    (hd : s.slots[d.val]? = some .free) : execCbind k d s = .next (takeFault .illegalCommand s) := by
  refine command_of_error hs ?_
  by_cases hk : k.val < s.cursors.length
  · rw [needCursor_ok_iff (u := ()) |>.mpr hk, needAlloc_of_free hd]
  · rw [needCursor, if_neg hk]

theorem execClone_of_bound {s : State} {k d : Fin 16} {i : Nat} {p : Int} (hs : s.status = .ok)
    (hcur : s.cursors[k.val]? = some (.bound i p)) (hd : d.val < s.cursors.length) :
    execClone k d s = .next (withResult (s.setCursor d.val (.bound i p)) .unit) :=
  command_of_unit hs (by
    rw [cursorOf_ok_iff (x := (i, p)) |>.mpr hcur, needCursor_ok_iff (u := ()) |>.mpr hd])

/-- The resources of LZ4D are tested first, k before d, and both tests raise IllegalCommand (R200). -/
theorem execLz4d_of_alloc {s : State} {k d : Fin 16} {b : List Byte} (hs : s.status = .ok)
    (hd : s.slots[d.val]? = some (.alloc b)) :
    execLz4d k d s = .next (takeFault .illegalCommand s) := by
  refine execLz4d_of_error hs ?_
  cases ho : openCursor s k with
  | error e => simp only [lz4Start, ho, openCursor_error ho]
  | ok o => simp only [lz4Start, ho, needFree_of_alloc hd]

/-- Settles O16: the four next states, and for BFREE what freeing the slot makes of each cursor. -/
theorem sessionCommandsTakeEffect : Obligations.SessionCommandsTakeEffect := by
  refine ⟨fun s d n pl hs hpl hd => execBload_of_free hs hpl hd, fun s d b hs hd => ?bfree,
    fun s k d b hs hd hk => execCbind_of_alloc hs hd hk,
    fun s k d i p hs hcur hd => execClone_of_bound hs hcur hd⟩
  case bfree =>
    refine ⟨_, execBfree_of_alloc hs hd, rfl, List.length_map _, fun k c hk => ?_⟩
    have hmap : (withResult (freeSlot d.val s) .unit).cursors[k]? = some (unbindFrom d.val c) := by
      rw [withResult_cursors, freeSlot_cursors, List.getElem?_map, hk, Option.map_some]
    rw [hmap]
    cases c with
    | unbound => rfl
    | bound i p => rfl

/-- Settles O17, command by command. -/
theorem wrongSlotStateIsIllegal : Obligations.WrongSlotStateIsIllegal := by
  intro s d hs
  rw [← takeFault_eq_faultedWith]
  refine ⟨fun b hd => ⟨fun n pl hpl => ?_, fun k => ?_⟩, fun hd => ⟨?_, fun k => ?_⟩⟩
  · exact execBload_of_alloc hs hpl hd
  · exact execLz4d_of_alloc hs hd
  · exact execBfree_of_free hs hd
  · exact execCbind_of_free hs hd

end Sys2Proof.Machine
end

section
/-! The integer and byte reads (R140 to R150, R190 to R192): what a read of a span that lies in the slot
delivers. -/

namespace Sys2Proof.Machine

/-- A read of n bytes at a span that lies in the slot, an empty one included, whose result is no float. -/
theorem readBytes_of_span {k : Fin 16} {peek : Bool} {n : Nat} {f : List Byte → Res} {s : State}
    {b p : Nat} {buf : List Byte} (h : Ready s k b p buf) (hn : p + n ≤ buf.length) {r : Res}
    (hr : f (memRead buf p n) = r) (hfloat : r.floatList = []) :
    readBytes k peek n f s = .next (withResult (afterRead k peek b p n s) r) := by
  rw [readBytes_of_ready h (Int.natCast_nonneg p) (Int.ofNat_le.mpr hn), Int.toNat_natCast, hr,
    complete_eq_withResult hfloat]
  cases peek with
  | false => rfl
  | true =>
    rw [if_pos rfl, setCursor_self h.cursor]
    rfl

/-- A known byte and what stands behind it. -/
theorem drop_of_getElem? {buf : List Byte} {a : Nat} {x : Byte} (h : buf[a]? = some x) :
    buf.drop a = x :: buf.drop (a + 1) := by
  obtain ⟨hlt, rfl⟩ := List.getElem?_eq_some_iff.mp h
  exact List.drop_eq_getElem_cons hlt

/-- A read of known bytes that delivers an integer made of them. -/
theorem readInt_of_drop {k : Fin 16} {peek : Bool} {g : List Byte → Int} {s : State} {b p : Nat}
    {buf bs tail : List Byte} (h : Ready s k b p buf) (hdrop : buf.drop p = bs ++ tail)
    (hpos : 0 < bs.length) {v : Int} (hv : g bs = v) :
    readBytes k peek bs.length (fun x => .int (g x)) s =
      .next (withResult (afterRead k peek b p bs.length s) (.int v)) := by
  have hlen := length_of_drop hdrop (by rw [List.length_append]; omega)
  rw [List.length_append] at hlen
  exact readBytes_of_span h (by omega) (by rw [memRead_of_drop hdrop, hv]) rfl

theorem le_singleton (a : Byte) : le [a] = a.toNat := by
  simp only [le]
  omega

theorem le_pair (a b : Byte) : le [a, b] = a.toNat + 2 ^ 8 * b.toNat := by
  simp only [le]
  omega

theorem be_pair (a b : Byte) : be [a, b] = 2 ^ 8 * a.toNat + b.toNat := by
  simp only [be, List.length_cons, List.length_nil]
  omega

theorem le_quad (a b c d : Byte) :
    le [a, b, c, d] = a.toNat + 2 ^ 8 * b.toNat + 2 ^ 16 * c.toNat + 2 ^ 24 * d.toNat := by
  simp only [le]
  omega

theorem be_quad (a b c d : Byte) :
    be [a, b, c, d] = 2 ^ 24 * a.toNat + 2 ^ 16 * b.toNat + 2 ^ 8 * c.toNat + d.toNat := by
  simp only [be, List.length_cons, List.length_nil]
  omega

section
variable {s : State} {k : Fin 16} {b p : Nat} {buf : List Byte} {peek : Bool}

/-- A read of one byte, `w` being what it makes of the number read: the number itself or `sext`. -/
theorem readInt_one (w : Nat → Int) (h : Ready s k b p buf) {b0 : Byte} (h0 : buf[p]? = some b0) :
    readBytes k peek 1 (fun x => .int (w (le x))) s =
      .next (withResult (afterRead k peek b p 1 s) (.int (w b0.toNat))) :=
  readInt_of_drop (g := fun x => w (le x)) (bs := [b0]) h (drop_of_getElem? h0) Nat.one_pos
    (congrArg w (le_singleton b0))

/-- A read of two bytes in either byte order. -/
theorem readInt_two (w : Nat → Int) (h : Ready s k b p buf) {b0 b1 : Byte} (h0 : buf[p]? = some b0)
    (h1 : buf[p + 1]? = some b1) :
    readBytes k peek 2 (fun x => .int (w (le x))) s = .next (withResult (afterRead k peek b p 2 s)
      (.int (w (b0.toNat + 2 ^ 8 * b1.toNat)))) ∧
    readBytes k peek 2 (fun x => .int (w (be x))) s = .next (withResult (afterRead k peek b p 2 s)
      (.int (w (2 ^ 8 * b0.toNat + b1.toNat)))) := by
  have hdrop : buf.drop p = [b0, b1] ++ buf.drop (p + 2) := by
    rw [drop_of_getElem? h0, drop_of_getElem? h1]
    rfl
  exact ⟨readInt_of_drop (g := fun x => w (le x)) h hdrop (Nat.succ_pos _) (congrArg w (le_pair _ _)),
    readInt_of_drop (g := fun x => w (be x)) h hdrop (Nat.succ_pos _) (congrArg w (be_pair _ _))⟩

/-- A read of four bytes in either byte order. -/
theorem readInt_four (w : Nat → Int) (h : Ready s k b p buf) {b0 b1 b2 b3 : Byte}
    (h0 : buf[p]? = some b0) (h1 : buf[p + 1]? = some b1) (h2 : buf[p + 2]? = some b2)
    (h3 : buf[p + 3]? = some b3) :
    readBytes k peek 4 (fun x => .int (w (le x))) s = .next (withResult (afterRead k peek b p 4 s)
      (.int (w (b0.toNat + 2 ^ 8 * b1.toNat + 2 ^ 16 * b2.toNat + 2 ^ 24 * b3.toNat)))) ∧
    readBytes k peek 4 (fun x => .int (w (be x))) s = .next (withResult (afterRead k peek b p 4 s)
      (.int (w (2 ^ 24 * b0.toNat + 2 ^ 16 * b1.toNat + 2 ^ 8 * b2.toNat + b3.toNat)))) := by
  have hdrop : buf.drop p = [b0, b1, b2, b3] ++ buf.drop (p + 4) := by
    rw [drop_of_getElem? h0, drop_of_getElem? h1, drop_of_getElem? h2, drop_of_getElem? h3]
    rfl
  exact ⟨readInt_of_drop (g := fun x => w (le x)) h hdrop (Nat.succ_pos _) (congrArg w (le_quad _ _ _ _)),
    readInt_of_drop (g := fun x => w (be x)) h hdrop (Nat.succ_pos _) (congrArg w (be_quad _ _ _ _))⟩

end

/-- Settles O21: the number read is delivered as it is. -/
theorem unsignedReadsDeliver : Obligations.UnsignedReadsDeliver := by
  intro s k b p buf peek h after
  exact ⟨fun _ h0 => readInt_one Nat.cast h h0, fun _ _ h0 h1 => readInt_two Nat.cast h h0 h1,
    fun _ _ _ _ h0 h1 h2 h3 => readInt_four Nat.cast h h0 h1 h2 h3⟩

/-- Settles O22: the number read is delivered as `sext` of its width gives it (R10). -/
theorem signedReadsDeliver : Obligations.SignedReadsDeliver := by
  intro s k b p buf peek h after
  exact ⟨fun _ h0 => readInt_one (sext 8) h h0, fun _ _ h0 h1 => readInt_two (sext 16) h h0 h1,
    fun _ _ _ _ h0 h1 h2 h3 => readInt_four (sext 32) h h0 h1 h2 h3⟩

/-- A span that lies in the buffer equals a pattern of its length exactly when every byte does (R192). -/
theorem memRead_eq_iff {buf pat : List Byte} {a n : Nat} (hn : a + n ≤ buf.length)
    (hpat : pat.length = n) : memRead buf a n = pat ↔ ∀ i, i < n → buf[a + i]? = pat[i]? := by
  constructor
  · rintro rfl i hi
    exact (memRead_getElem? hi).symm
  · intro hbytes
    apply List.ext_getElem?
    intro i
    by_cases hi : i < n
    · rw [memRead_getElem? hi, hbytes i hi]
    · have := memRead_length hn
      rw [List.getElem?_eq_none (by omega), List.getElem?_eq_none (by omega)]

/-- Settles O24: RDSTR and MATCH read the bytes of the span, RDSPAN names them. -/
theorem byteReadsDeliver : Obligations.ByteReadsDeliver := by
  intro s k b p buf peek n h hn after
  refine ⟨?rdstr, execRdspan_of_ready h hn, fun pat hpat => ?matchb⟩
  case rdstr =>
    exact ⟨memRead buf p n.toNat, memRead_length hn, fun _ hi => memRead_getElem? hi,
      readBytes_of_span h hn rfl rfl⟩
  case matchb =>
    refine ⟨decide (memRead buf p n.toNat = pat), ?_, ?_⟩
    · rw [decide_eq_true_iff, memRead_eq_iff hn hpat]
    · exact (withPayload_exact hpat).trans (readBytes_of_span h hn rfl rfl)

end Sys2Proof.Machine
end

section
/-! Peek (R129, R130): a read command with P = 1 leaves the bindings and contents it reads as they were, so
it gives the same again. -/

namespace Sys2Proof.Machine

/-- The one form of the bodies of the read commands (R58): the span check, the advance by n, and a result
made of what the cursor has open. -/
def spanReadBody (k : Fin 16) (n : Nat) (g : Opened → Res) (o : Opened) (s : State) :
    Except FaultKind (State × Res) :=
  match need o n with
  | .error e => .error e
  | .ok _ => .ok (s.setCursor k.val (.bound o.bnd (o.pos + n)), g o)

theorem fetchBody_eq_spanReadBody (k : Fin 16) (n : Nat) (f : List Byte → Res) :
    fetchBody k n f = spanReadBody k n fun o => f (memRead o.buf o.pos.toNat n) := by
  funext o s
  unfold fetchBody fetchBytes spanReadBody
  cases need o n with
  | error e => rfl
  | ok u => rfl

theorem readBytes_eq_spanRead (k : Fin 16) (peek : Bool) (n : Nat) (f : List Byte → Res) (s : State) :
    readBytes k peek n f s =
      readCommand k peek (spanReadBody k n fun o => f (memRead o.buf o.pos.toNat n)) s := by
  rw [readBytes, fetchBody_eq_spanReadBody]

theorem execRdspan_eq_spanRead (k : Fin 16) (peek : Bool) (n : Word) (s : State) :
    execRdspan k peek n s =
      readCommand k peek (spanReadBody k n.toNat fun o => .span o.bnd o.pos.toNat n.toNat) s := rfl

/-- A read command that can peek and its peeking form: one body, the second with the peek bit set (R85,
R108). -/
theorem exec_pseudoPeek {i j : Instr} (h : pseudoPeek i = some j) :
    ∃ k peek n g, i.payloadOk = true → ∀ s,
      exec i s = readCommand k peek (spanReadBody k n g) s ∧
      exec j s = readCommand k true (spanReadBody k n g) s := by
  cases i with
  | reset | bload | bfree | cbind | clone | seek | adv | rem | lz4d | ilv | ilv32 | ilv32i | ilv32f
  | lz4seq => cases h
  | rdspan k p n =>
    cases h
    exact ⟨k, p, _, _, fun _ s => ⟨execRdspan_eq_spanRead _ _ _ s, execRdspan_eq_spanRead _ _ _ s⟩⟩
  | matchb k p n pat =>
    cases h
    exact ⟨k, p, _, _, fun hp s =>
      ⟨(withPayload_exact (beq_iff_eq.mp hp)).trans (readBytes_eq_spanRead _ _ _ _ s),
        (withPayload_exact (beq_iff_eq.mp hp)).trans (readBytes_eq_spanRead _ _ _ _ s)⟩⟩
  | rdu8 k p | rdu16le k p | rdu16be k p | rdu32le k p | rdu32be k p | rdi8 k p | rdi16le k p
  | rdi16be k p | rdi32le k p | rdi32be k p | rdf32le k p | rdf32be k p | rdf64le k p | rdf64be k p
  | rdvfle k p | rdvfbe k p | rdstr k p n =>
    cases h
    exact ⟨k, p, _, _, fun _ s =>
      ⟨readBytes_eq_spanRead _ _ _ _ s, readBytes_eq_spanRead _ _ _ _ s⟩⟩

/-- A read command that completes has delivered what its cursor had open, and its span lay in the slot
(R61, R120). -/
theorem readCommand_spanRead_completes {k : Fin 16} {peek : Bool} {n : Nat} {g : Opened → Res}
    {s t : State} (hs : s.status = .ok) (h : readCommand k peek (spanReadBody k n g) s = .next t)
    (ht : t.status = .ok) :
    ∃ o : Opened, Ready s k o.bnd o.pos o.buf ∧ need o n = .ok () ∧ t.res = g o := by
  cases ho : openCursor s k with
  | error e =>
    cases h.symm.trans (readCommand_of_notOpen hs ho)
    cases ht
  | ok o =>
    obtain ⟨hcur, hslot⟩ := openCursor_ok_iff.mp ho
    have hready : Ready s k o.bnd o.pos o.buf := ⟨hs, hcur, hslot⟩
    rw [readCommand_of_ready hready] at h
    cases hn : need o n with
    | error e =>
      simp only [spanReadBody, hn] at h
      cases h
      cases ht
    | ok u =>
      simp only [spanReadBody, hn] at h
      cases h
      exact ⟨o, hready, hn, rfl⟩

/-- A peek at a span that lies in the slot writes RES and nothing else (R129). -/
theorem readCommand_peek {k : Fin 16} {n : Nat} {g : Opened → Res} {s : State} {o : Opened}
    (h : Ready s k o.bnd o.pos o.buf) (hn : need o n = .ok ()) :
    readCommand k true (spanReadBody k n g) s = .next (complete (g o) s) := by
  rw [readCommand_of_ready h]
  simp only [spanReadBody, hn, if_true, setCursor_setCursor, setCursor_self h.cursor]

/-- Writing RES leaves cursor k ready at the same bytes. -/
theorem Ready.complete {s : State} {k : Fin 16} {b : Nat} {p : Int} {buf : List Byte}
    (h : Ready s k b p buf) (r : Res) : Ready (complete r s) k b p buf :=
  ⟨h.ok, h.cursor, h.slot⟩

/-- Settles O26: the plain read fixes what the cursor has open, and each of the two peeks finds that. -/
theorem peekLaws : Obligations.PeekLaws := by
  intro i j s t hj hs hi ht
  obtain ⟨k, peek, n, g, hforms⟩ := exec_pseudoPeek hj
  have hexec := hforms (payloadOk_of_next hs hi)
  obtain ⟨o, hready, hn, hres⟩ := readCommand_spanRead_completes hs ((hexec s).1.symm.trans hi) ht
  have hfirst : exec j s = .next (complete (g o) s) := (hexec s).2.trans (readCommand_peek hready hn)
  have hsecond : exec j (complete (g o) s) = .next (complete (g o) (complete (g o) s)) :=
    (hexec _).2.trans (readCommand_peek (hready.complete (g o)) hn)
  exact ⟨_, _, hfirst, hres.symm, rfl, rfl, hs, hsecond, hres.symm, rfl⟩

end Sys2Proof.Machine
end

section
/-! Rounding to binary64 (R167) as a function of the rational value alone: the exponent is the binary
logarithm, and scaling a fraction by a common factor does not change how it rounds. -/

namespace Sys2Proof.Machine

/-- An integer power of two as the fraction of natural powers that the definitions scale by. -/
theorem zpow_toNat_div (z : Int) : (2 : Rat) ^ z.toNat / 2 ^ (-z).toNat = 2 ^ z := by
  rw [← zpow_natCast, ← zpow_natCast, ← zpow_sub₀ two_ne_zero]
  congr 1
  omega

/-- The exponent test of `floorLog2` compares the fraction with the power of two. -/
theorem scaled_le_iff {n d : Nat} (hd : 0 < d) (k : Int) :
    d * 2 ^ k.toNat ≤ n * 2 ^ (-k).toNat ↔ (2 : Rat) ^ k ≤ n / d := by
  have hd' : (0 : Rat) < d := by exact_mod_cast hd
  rw [← zpow_toNat_div k, div_le_div_iff₀ (by positivity) hd', mul_comm ((2 : Rat) ^ k.toNat)]
  exact_mod_cast Iff.rfl

/-- `Nat.log2` bounds a positive number by consecutive powers of two. -/
theorem log2_zpow_bounds {n : Nat} (hn : 0 < n) :
    (2 : Rat) ^ (n.log2 : Int) ≤ n ∧ (n : Rat) < 2 ^ ((n.log2 : Int) + 1) := by
  refine ⟨?_, ?_⟩
  · rw [zpow_natCast]
    exact_mod_cast Nat.log2_self_le hn.ne'
  · exact_mod_cast Nat.lt_log2_self

/-- The exponent of a positive fraction is its integer logarithm. -/
theorem floorLog2_eq_log {n d : Nat} (hn : 0 < n) (hd : 0 < d) :
    floorLog2 n d = Int.log 2 ((n : Rat) / d) := by
  have hn' : (0 : Rat) < n := by exact_mod_cast hn
  have hd' : (0 : Rat) < d := by exact_mod_cast hd
  have hpos : (0 : Rat) < n / d := div_pos hn' hd'
  obtain ⟨hnlo, hnhi⟩ := log2_zpow_bounds hn
  obtain ⟨hdlo, hdhi⟩ := log2_zpow_bounds hd
  have hlow : (n.log2 : Int) - d.log2 - 1 ≤ Int.log 2 ((n : Rat) / d) := by
    rw [← Int.zpow_le_iff_le_log one_lt_two hpos, Nat.cast_ofNat, sub_sub, zpow_sub₀ two_ne_zero]
    exact div_le_div₀ hn'.le hnlo hd' hdhi.le
  have hhigh : Int.log 2 ((n : Rat) / d) < (n.log2 : Int) - d.log2 + 1 := by
    rw [← Int.lt_zpow_iff_log_lt one_lt_two hpos, Nat.cast_ofNat, sub_add_eq_add_sub,
      zpow_sub₀ two_ne_zero]
    exact div_lt_div₀ hnhi hdlo (by positivity) (by positivity)
  have htest := (scaled_le_iff (n := n) hd ((n.log2 : Int) - d.log2)).trans
    (Int.zpow_le_iff_le_log one_lt_two hpos)
  simp only [floorLog2]
  split <;> omega

/-- Rounding does not see a common factor. -/
theorem roundHalfEven_mul_right (n d : Nat) {c : Nat} (hc : 0 < c) :
    roundHalfEven (n * c) (d * c) = roundHalfEven n d := by
  simp only [roundHalfEven, Nat.mul_div_mul_right _ _ hc, Nat.mul_mod_mul_right, ← mul_assoc,
    Nat.mul_lt_mul_right hc]

/-- Equal fractions round to the same number. -/
theorem roundHalfEven_congr {n d a b : Nat} (hd : 0 < d) (hb : 0 < b) (h : n * b = a * d) :
    roundHalfEven n d = roundHalfEven a b :=
  calc roundHalfEven n d = roundHalfEven (n * b) (d * b) := (roundHalfEven_mul_right n d hb).symm
    _ = roundHalfEven (a * d) (b * d) := by rw [h, mul_comm d b]
    _ = roundHalfEven a b := roundHalfEven_mul_right a b hd

/-- A whole number is not rounded. -/
theorem roundHalfEven_one (m : Nat) : roundHalfEven m 1 = m := by
  simp [roundHalfEven, Nat.mod_one]

/-- Half of a natural number, a tie going to the even neighbour. -/
theorem roundHalfEven_two (h : Nat) :
    roundHalfEven h 2 = (h + if h % 4 = 3 then 1 else 0) / 2 := by
  simp only [roundHalfEven]
  split_ifs <;> omega

/-- The pattern of a magnitude from its exponent and from any fraction equal to it in units of the last
place. -/
theorem magnitudePattern_eq {n d a b : Nat} {e : Int} (hn : 0 < n) (hd : 0 < d) (hb : 0 < b)
    (he : max (Int.log 2 ((n : Rat) / d)) (-1022) = e) (hab : (n : Rat) / d * 2 ^ (52 - e) = a / b) :
    magnitudePattern n d = min ((e + 1022).toNat * 2 ^ 52 + roundHalfEven a b) (2047 * 2 ^ 52) := by
  have hd' : (d : Rat) ≠ 0 := by exact_mod_cast hd.ne'
  have hb' : (b : Rat) ≠ 0 := by exact_mod_cast hb.ne'
  have hscale : n * 2 ^ (52 - e).toNat * b = a * (d * 2 ^ (e - 52).toNat) := by
    rw [← zpow_toNat_div, neg_sub, div_mul_div_comm, div_eq_div_iff (by positivity) hb'] at hab
    exact_mod_cast hab
  simp only [magnitudePattern, floorLog2_eq_log hn hd, he,
    roundHalfEven_congr (Nat.mul_pos hd (Nat.two_pow_pos _)) hb hscale]

/-- The magnitude of a normal number with exponent field e and fraction field f is these two fields. -/
theorem magnitudePattern_normal {n d e f : Nat} (hd : 0 < d) (he : 1 ≤ e) (he' : e ≤ 2046)
    (hf : f < 2 ^ 52) (hv : (n : Rat) / d = 2 ^ ((e : Int) - 1023) * (1 + f / 2 ^ 52)) :
    magnitudePattern n d = e * 2 ^ 52 + f := by
  have hf' : (f : Rat) / 2 ^ 52 < 1 := by
    rw [div_lt_one (by positivity)]
    exact_mod_cast hf
  have hf0 : (0 : Rat) ≤ f / 2 ^ 52 := by positivity
  have hpos : (0 : Rat) < n / d := hv ▸ by positivity
  have hn : 0 < n := Nat.pos_of_ne_zero fun h => by simp [h] at hpos
  have hlog : Int.log 2 ((n : Rat) / d) = (e : Int) - 1023 := by
    have hlow := (Int.zpow_le_iff_le_log (x := (e : Int) - 1023) one_lt_two hpos).mp <| by
      rw [hv, Nat.cast_ofNat]
      exact le_mul_of_one_le_right (by positivity) (by linarith)
    have hhigh := (Int.lt_zpow_iff_log_lt (x := (e : Int) - 1023 + 1) one_lt_two hpos).mp <| by
      rw [hv, Nat.cast_ofNat, zpow_add_one₀ two_ne_zero]
      exact mul_lt_mul_of_pos_left (by linarith) (by positivity)
    omega
  have hulp : (n : Rat) / d * 2 ^ (52 - ((e : Int) - 1023)) = ((2 ^ 52 + f : Nat) : Rat) / (1 : Nat) := by
    rw [hv, mul_right_comm, ← zpow_add₀ two_ne_zero, add_sub_cancel]
    push_cast
    ring
  rw [magnitudePattern_eq hn hd one_pos (by omega) hulp, roundHalfEven_one]
  omega

/-- The magnitude of a zero-exponent double, f units of half the last place, is f halved (R164, R167). -/
theorem magnitudePattern_halved {n d f : Nat} (hd : 0 < d) (hf0 : f ≠ 0) (hf : f < 2 ^ 52)
    (hv : (n : Rat) / d = f * 2 ^ (-1075 : Int)) :
    magnitudePattern n d = (f + if f % 4 = 3 then 1 else 0) / 2 := by
  have hpos : (0 : Rat) < n / d := by
    have : (0 : Rat) < f := by exact_mod_cast Nat.pos_of_ne_zero hf0
    exact hv ▸ by positivity
  have hn : 0 < n := Nat.pos_of_ne_zero fun h => by simp [h] at hpos
  have hlog : Int.log 2 ((n : Rat) / d) < -1022 :=
    (Int.lt_zpow_iff_log_lt one_lt_two hpos).mp <| by
      calc (n : Rat) / d = f * 2 ^ (-1075 : Int) := hv
        _ < 2 ^ (52 : Int) * 2 ^ (-1075 : Int) :=
          mul_lt_mul_of_pos_right (by exact_mod_cast hf) (by positivity)
        _ = 2 ^ (-1023 : Int) := (zpow_add₀ two_ne_zero _ _).symm
        _ < ((2 : Nat) : Rat) ^ (-1022 : Int) := zpow_lt_zpow_right₀ one_lt_two (by decide)
  have hulp : (n : Rat) / d * 2 ^ (52 - (-1022 : Int)) = (f : Rat) / (2 : Nat) := by
    rw [hv, mul_assoc, ← zpow_add₀ two_ne_zero]
    norm_num
    ring
  rw [magnitudePattern_eq hn hd two_pos (by omega) hulp, roundHalfEven_two]
  split <;> omega

end Sys2Proof.Machine
end

section
/-! The delivered pattern of a nonzero rational: its sign, and the pattern of its magnitude (R167). -/

namespace Sys2Proof.Machine

/-- The numerator and the denominator of a positive rational are the rational. -/
theorem natAbs_num_div_den {q : Rat} (hq : 0 < q) : (q.num.natAbs : Rat) / q.den = q := by
  have hnum : (q.num.natAbs : Rat) = q.num := by
    rw [← Int.cast_natCast, Int.natAbs_of_nonneg (Rat.num_pos.mpr hq).le]
  rw [hnum, Rat.num_div_den]

/-- The sign goes to the sign bit and the magnitude below it. -/
theorem deliver_applySign (n : Nat) (neg : Bool) {q : Rat} (hq : 0 < q) :
    deliver n (.fin (applySign neg q)) = signedPattern neg (magnitudePattern q.num.natAbs q.den) := by
  cases neg with
  | false => simp [deliver, applySign, not_lt.mpr hq.le]
  | true => simp [deliver, applySign, hq]

/-- A pattern below the sign bit is kept beside it. -/
theorem signedPattern_toNat (neg : Bool) {m : Nat} (hm : m < 2 ^ 63) :
    (signedPattern neg m).toNat = neg.toNat * 2 ^ 63 + m := by
  have := Bool.toNat_le neg
  rw [signedPattern, BitVec.toNat_ofNat]
  omega

/-- A digit that is 0 or 1 is the bit that tests it. -/
theorem toNat_decide_eq_one {s : Nat} (hs : s < 2) : (decide (s = 1)).toNat = s := by
  obtain rfl | rfl : s = 0 ∨ s = 1 := by omega
  · rfl
  · rfl

/-- A normal number is delivered as its three fields, with no rounding (R167). -/
theorem deliver_normal (n : Nat) (neg : Bool) {e f : Nat} (he : 1 ≤ e) (he' : e ≤ 2046) (hf : f < 2 ^ 52) :
    (deliver n (.fin (applySign neg (2 ^ ((e : Int) - 1023) * (1 + (f : Rat) / 2 ^ 52))))).toNat =
      neg.toNat * 2 ^ 63 + (e * 2 ^ 52 + f) := by
  have hpos : (0 : Rat) < 2 ^ ((e : Int) - 1023) * (1 + (f : Rat) / 2 ^ 52) := by positivity
  rw [deliver_applySign n neg hpos, magnitudePattern_normal (Rat.den_pos _) he he' hf
    (natAbs_num_div_den hpos), signedPattern_toNat neg (by omega)]

/-- A zero-exponent double is delivered with half its fraction, a tie going to even (R164, R167). -/
theorem deliver_halved (n : Nat) (neg : Bool) {f : Nat} (hf0 : f ≠ 0) (hf : f < 2 ^ 52) :
    (deliver n (.fin (applySign neg (f * 2 ^ (-1075 : Int))))).toNat =
      neg.toNat * 2 ^ 63 + (f + if f % 4 = 3 then 1 else 0) / 2 := by
  have hpos : (0 : Rat) < f * 2 ^ (-1075 : Int) :=
    mul_pos (by exact_mod_cast Nat.pos_of_ne_zero hf0) (by positivity)
  rw [deliver_applySign n neg hpos, magnitudePattern_halved (Rat.den_pos _) hf0 hf
    (natAbs_num_div_den hpos), signedPattern_toNat neg (by split <;> omega)]

end Sys2Proof.Machine
end

section
/-! The 32-bit formats (R161, R166): the value of F32, and the exact delivery of both. -/

namespace Sys2Proof.Machine

/-- Settles O32: the two cases of the exponent field. -/
theorem standardFloatValue : Obligations.StandardFloatValue := by
  intro w e m q
  refine ⟨fun he => ?_, fun he => ?_⟩
  · rw [f32_eq, show w.toNat / 2 ^ 23 % 2 ^ 8 = 0 from he, floatOfFields_zero]
  · rw [f32_eq, floatOfFields_of_ne_zero he]
    simp only [decide_eq_true_eq]
    rfl

/-- The value of nonzero 32-bit fields is that of a normal double, the exponent rebiased and the mantissa in
the top of the fraction field. -/
theorem shortValue_eq_double (e m : Nat) :
    (2 : Rat) ^ ((e : Int) - 127) * (1 + (m : Rat) / 2 ^ 23) =
      2 ^ (((e + 896 : Nat) : Int) - 1023) * (1 + ((m * 2 ^ 29 : Nat) : Rat) / 2 ^ 52) := by
  have hexp : ((e + 896 : Nat) : Int) - 1023 = e - 127 := by omega
  rw [hexp]
  push_cast
  ring

/-- The fields of a 32-bit format are delivered exactly. -/
theorem deliver_floatOfFields (n : Nat) {e m : Nat} (neg : Bool) (he : e < 2 ^ 8) (hm : m < 2 ^ 23) :
    (deliver n (floatOfFields e m neg)).toNat =
      if e = 0 then 0 else neg.toNat * 2 ^ 63 + (e + 896) * 2 ^ 52 + m * 2 ^ 29 := by
  split
  case isTrue h0 =>
    rw [h0, floatOfFields_zero]
    exact signedPattern_toNat false (by decide)
  case isFalse h0 =>
    rw [floatOfFields_of_ne_zero h0, shortValue_eq_double]
    exact (deliver_normal n neg (by omega) (by omega) (by omega)).trans (add_assoc _ _ _).symm

/-- Settles O38: each format is the value of its fields, and fields are delivered exactly. -/
theorem shortFloatsDeliverExactly : Obligations.ShortFloatsDeliverExactly := by
  intro n w pattern
  have hw := w.isLt
  have hsign : (decide (0x7FFFFFFF < w.toNat)).toNat = w.toNat / 2 ^ 31 := by
    rw [← toNat_decide_eq_one (s := w.toNat / 2 ^ 31) (by omega)]
    congr 2
    exact propext ⟨fun h => by omega, fun h => by omega⟩
  refine ⟨?_, ?_⟩
  · rw [f32_eq, deliver_floatOfFields n _ (by omega) (by omega), hsign]
  · rw [vf32_eq, deliver_floatOfFields n _ (by omega) (by omega), toNat_decide_eq_one (by omega)]

end Sys2Proof.Machine
end

section
/-! F64 (R100, R163 to R168): the value of its three fields case by case, and its delivery. -/

namespace Sys2Proof.Machine

/-- The value of F64 as a function of exponent field, fraction and sign (R163). -/
def doubleOfFields (e fr : Nat) (neg : Bool) : FVal :=
  if e = 0 then
    if fr = 0 then (if neg then .negZero else .posZero)
    else .fin (applySign neg (pow2 (0 - 1023) * mkRat fr (2 ^ 52)))
  else if e = 2047 then
    if fr = 0 then (if neg then .negInf else .posInf) else .nan
  else .fin (applySign neg (pow2 ((e : Int) - 1023) * (1 + mkRat fr (2 ^ 52))))

/-- F64 with its fields as quotients and remainders of the words (R100). -/
theorem f64_eq (hi lo : Word) :
    f64 hi lo = doubleOfFields (hi.toNat / 2 ^ 20 % 2 ^ 11) (hi.toNat % 2 ^ 20 * 2 ^ 32 + lo.toNat)
      (decide (hi.toNat / 2 ^ 31 = 1)) := by
  have hfrac : bits hi.toNat 19 0 = hi.toNat % 2 ^ 20 := by simp [bits]
  have hsign : bits hi.toNat 31 31 = hi.toNat / 2 ^ 31 :=
    Nat.mod_eq_of_lt (by have := hi.isLt; omega)
  rw [f64, hfrac, hsign]
  rfl

/-- A zero carries the sign. -/
theorem doubleOfFields_zero (neg : Bool) :
    doubleOfFields 0 0 neg = if neg then .negZero else .posZero := rfl

/-- The zero-exponent branch has half the scale of the IEEE-754 one (R164). -/
theorem doubleOfFields_denormal {fr : Nat} (hfr : fr ≠ 0) (neg : Bool) :
    doubleOfFields 0 fr neg = .fin (applySign neg (fr * 2 ^ (-1075 : Int))) := by
  have hscale : (2 : Rat) ^ (0 - 1023 : Int) = 2 ^ (-1075 : Int) * 2 ^ (52 : Nat) := by
    rw [← zpow_natCast, ← zpow_add₀ two_ne_zero]
    rfl
  have hvalue : pow2 (0 - 1023) * mkRat fr (2 ^ 52) = fr * 2 ^ (-1075 : Int) := by
    rw [pow2_eq_zpow, Rat.mkRat_eq_div, hscale, Nat.cast_pow, Nat.cast_ofNat, Int.cast_natCast]
    field_simp
  rw [doubleOfFields, if_pos rfl, if_neg hfr, hvalue]

/-- An infinity carries the sign. -/
theorem doubleOfFields_infinity (neg : Bool) :
    doubleOfFields 2047 0 neg = if neg then .negInf else .posInf := rfl

/-- NaN carries neither the fraction nor the sign (R168). -/
theorem doubleOfFields_nan {fr : Nat} (hfr : fr ≠ 0) (neg : Bool) : doubleOfFields 2047 fr neg = .nan := by
  simp [doubleOfFields, hfr]

/-- The normalized branch, with the powers of two as powers. -/
theorem doubleOfFields_normal {e : Nat} (he : 1 ≤ e) (he' : e ≤ 2046) (fr : Nat) (neg : Bool) :
    doubleOfFields e fr neg =
      .fin (applySign neg (2 ^ ((e : Int) - 1023) * (1 + (fr : Rat) / 2 ^ 52))) := by
  have hcast : ((2 ^ 52 : Nat) : Rat) = 2 ^ 52 := by norm_cast
  rw [doubleOfFields, if_neg (by omega), if_neg (by omega), pow2_eq_zpow, Rat.mkRat_eq_div, hcast]
  rfl

/-- The fraction of a double, 20 bits of the high word over the low word, fits its field of 52 bits. -/
theorem doubleFraction_lt (hi lo : Word) : hi.toNat % 2 ^ 20 * 2 ^ 32 + lo.toNat < 2 ^ 52 := by
  have := lo.isLt
  omega

/-- Settles O34: one lemma about the fields for each case of R163. -/
theorem standardDoubleValue : Obligations.StandardDoubleValue := by
  intro hi lo e fr s signed
  have hfields : f64 hi lo = doubleOfFields e fr (decide (s = 1)) := f64_eq hi lo
  rw [hfields]
  refine ⟨fun he hfr => ?_, fun he hfr => ?_, fun he hfr => ?_, fun he hfr => ?_, fun he he' => ?_⟩
  · rw [he, hfr, doubleOfFields_zero]
    simp only [decide_eq_true_eq]
  · rw [he, doubleOfFields_denormal hfr]
    simp only [applySign, decide_eq_true_eq, signed]
  · rw [he, hfr, doubleOfFields_infinity]
    simp only [decide_eq_true_eq]
  · rw [he, doubleOfFields_nan hfr]
  · rw [doubleOfFields_normal he he']
    simp only [applySign, decide_eq_true_eq, signed]

/-- Settles O36: the delivered pattern has the three fields of the two words. -/
theorem normalDoublesDeliverExactly : Obligations.NormalDoublesDeliverExactly := by
  intro n hi lo he he'
  have hhi := hi.isLt
  rw [f64_eq, doubleOfFields_normal he he', deliver_normal n _ he he' (doubleFraction_lt hi lo),
    toNat_decide_eq_one (by omega)]
  omega

/-- A zero keeps its sign, and any other fraction is halved. -/
theorem deliver_zeroExponent (n : Nat) {fr : Nat} (hlt : fr < 2 ^ 52) (neg : Bool) :
    (deliver n (doubleOfFields 0 fr neg)).toNat =
      neg.toNat * 2 ^ 63 + (fr + if fr % 4 = 3 then 1 else 0) / 2 := by
  by_cases hfr : fr = 0
  · subst hfr
    cases neg with
    | false => exact signedPattern_toNat false (by decide)
    | true => exact signedPattern_toNat true (by decide)
  · rw [doubleOfFields_denormal hfr, deliver_halved n neg hfr hlt]

/-- Settles O37: the zero-exponent branch of the fields of the two words. -/
theorem denormalDoublesDeliverHalved : Obligations.DenormalDoublesDeliverHalved := by
  intro n hi lo he fr
  have hhi := hi.isLt
  rw [f64_eq, he, deliver_zeroExponent n (doubleFraction_lt hi lo), toNat_decide_eq_one (by omega)]

/-- A delivered NaN has exponent field 2047 and a non-zero fraction, whatever is drawn (R168; log 5). -/
theorem deliver_nan_fields (n : Nat) :
    (deliver n .nan).toNat / 2 ^ 52 % 2 ^ 11 = 2047 ∧ (deliver n .nan).toNat % 2 ^ 52 ≠ 0 := by
  have hdraw := (Config.nanFraction n).isLt
  rw [deliver, signedPattern_toNat _ (by omega)]
  omega

/-- Settles O39: F64 is NaN at both inputs, and every draw is a NaN pattern. -/
theorem nanIsOneValueWithFreeBits : Obligations.NanIsOneValueWithFreeBits := by
  refine ⟨fun hi lo hi' lo' he hfr he' hfr' => ?_, deliver_nan_fields⟩
  rw [f64_eq, f64_eq hi' lo', he, he', doubleOfFields_nan hfr, doubleOfFields_nan hfr']

end Sys2Proof.Machine
end

section
/-! The two grains of LZ4D (R204, R316): a machine step of a block in progress is one turn of its loop. -/

namespace Sys2Proof.Machine

theorem run_succ_of_next {M : Host.Core} {s t : M.State} (h : M.step s = .next t) (n : Nat) :
    M.run (n + 1) s = M.run n t := by
  rw [Host.Core.run, h]

/-- Whatever the loop reaches is reached step by step, with one step for each turn. -/
theorem exists_run_eq_lz4Loop (n : Nat) (s : State) :
    ∃ m, Host.Core.run Sys2Proof.core m s = .next (lz4Loop n s) := by
  induction n generalizing s with
  | zero => exact ⟨0, rfl⟩
  | succ n ih =>
    cases hl : s.lz4 with
    | none => exact ⟨0, congrArg _ (lz4Loop_of_noBlock hl _).symm⟩
    | some c =>
      obtain ⟨m, hm⟩ := ih (lz4Next c s)
      have hturn : lz4Loop (n + 1) s = lz4Loop n (lz4Next c s) := by rw [lz4Loop, hl]
      exact ⟨m + 1, by rw [run_succ_of_next (M := Sys2Proof.core) (step_block hl), hm, hturn]⟩

/-- One sequence for each payload byte is enough for the loop to end the block (R218). -/
theorem lz4Loop_of_start_noBlock {k d : Fin 16} {s t : State} (h : lz4Start k d s = .ok t) :
    (lz4Loop (lz4Fuel t) t).lz4 = none := by
  obtain ⟨-, ⟨b, p, out, rfl⟩ | ⟨b, clen, dlen, p, hclen, rfl⟩⟩ := lz4Start_ok h
  · rfl
  · obtain ⟨kind, hfault⟩ | ⟨q, out, hout⟩ := lz4Loop_entry (p := p) (b := b) (s := s) hclen
    · exact congrArg State.lz4 hfault
    · exact congrArg State.lz4 hout

/-- Settles O51: LZ4D is its start and then the loop, and the machine takes the loop's turns one by one. -/
theorem sequenceGrainAgrees : Obligations.SequenceGrainAgrees := by
  intro s t k d hs hstart
  obtain ⟨n, hrun⟩ := exists_run_eq_lz4Loop (lz4Fuel t) t
  exact ⟨n, _, hrun, execLz4d_of_start hs hstart, lz4Loop_of_start_noBlock hstart⟩

end Sys2Proof.Machine
end

section
/-! The header of LZ4D for any bytes (R201 to R203): what it declares, when it is BufferUnderrun, and what an
accepted block has consumed. -/

namespace Sys2Proof.Machine

/-- A header word is the little-endian number of its bytes, of which there are at most four (R54, R201). -/
theorem leWord_memRead_toNat (buf : List Byte) (a : Nat) :
    (leWord (memRead buf a 4)).toNat = le (memRead buf a 4) := by
  have hlt : le (memRead buf a 4) < 2 ^ 32 := by
    rw [memRead, le_take]
    exact Nat.mod_lt _ (by decide)
  exact Nat.mod_eq_of_lt hlt

/-- The raw path is taken exactly when those bytes are all zero (R202). -/
theorem leWord_eq_zero_iff {buf : List Byte} {a : Nat} :
    leWord (memRead buf a 4) = 0 ↔ le (memRead buf a 4) = 0 := by
  rw [← leWord_memRead_toNat, BitVec.toNat_eq]
  rfl

/-- How many bytes a header declares behind itself: the payload, or on the raw path the output (R202, R203). -/
def declaredLength (buf : List Byte) (p : Nat) : Nat :=
  if le (memRead buf p 4) = 0 then le (memRead buf (p + 4) 4) else le (memRead buf p 4)

section
variable {s : State} {k d : Fin 16} {b : Nat} {buf : List Byte}

/-- A header that does not lie in the slot (R201). -/
theorem lz4Start_header_underrun {p : Int} (h : Ready s k b p buf) (hd : s.slots[d.val]? = some .free)
    (hout : p < 0 ∨ (buf.length : Int) < p + 12) : lz4Start k d s = .error .bufferUnderrun := by
  have hneed : need ⟨b, p, buf⟩ 12 = .error .bufferUnderrun := if_pos hout
  simp only [lz4Start, h.openCursor, needFree_ok_iff (u := ()).mpr hd, hneed]

/-- A header that lies in the slot: bytes it declares and that are not there, the raw path, or the entry of the
block (R201 to R203). -/
theorem lz4Start_of_header {p : Nat} (h : Ready s k b p buf) (hd : s.slots[d.val]? = some .free)
    (hin : p + 12 ≤ buf.length) :
    lz4Start k d s =
      if buf.length - (p + 12) < declaredLength buf p then .error .bufferUnderrun
      else if le (memRead buf p 4) = 0 then
        .ok (lz4Commit k d b (p + 12 + declaredLength buf p : Nat)
          (memRead buf (p + 12) (declaredLength buf p)) s)
      else .ok { s with
        lz4 := some
          (lz4Entry k d b (leWord (memRead buf p 4)) (leWord (memRead buf (p + 4) 4)) (p + 12)) } := by
  have hneed : need ⟨b, p, buf⟩ 12 = .ok () :=
    need_ok_iff.mpr ⟨Int.natCast_nonneg p, Int.ofNat_le.mpr hin⟩
  simp only [lz4Start, h.openCursor, needFree_ok_iff (u := ()).mpr hd, hneed, Int.toNat_natCast,
    leWord_eq_zero_iff, leWord_memRead_toNat, declaredLength]
  by_cases hclen : le (memRead buf p 4) = 0
  · simp only [if_pos hclen]
  · simp only [if_neg hclen]

/-- LZ4D starts only with its destination FREE and its header in the slot (R200, R201). -/
theorem lz4Start_ok_header {p : Int} {t : State} (h : Ready s k b p buf) (hstart : lz4Start k d s = .ok t) :
    s.slots[d.val]? = some .free ∧ 0 ≤ p ∧ p + 12 ≤ buf.length := by
  obtain ⟨hd, -⟩ := lz4Start_ok hstart
  refine ⟨hd, ?_⟩
  by_contra hout
  rw [lz4Start_header_underrun h hd (by omega)] at hstart
  cases hstart

/-- A loop from the entry of a block that ends without a fault has completed the block (R212, R213). -/
theorem lz4Loop_entry_accepts {clen dlen : Word} {p : Nat} (hclen : clen ≠ 0)
    (ht : (lz4Loop clen.toNat { s with lz4 := some (lz4Entry k d b clen dlen p) }).status = .ok) :
    ∃ out : List Byte, out.length = dlen.toNat ∧
      lz4Loop clen.toNat { s with lz4 := some (lz4Entry k d b clen dlen p) } =
        lz4Commit k d b (p + clen.toNat : Nat) out s := by
  have hpos : 0 < clen.toNat := Nat.pos_of_ne_zero fun h0 => hclen (BitVec.eq_of_toNat_eq h0)
  obtain ⟨kind, hfault⟩ | hdone :=
    lz4Loop_result (c := lz4Entry k d b clen dlen p) (s := s) (Nat.lt_succ_self _) hpos
  · cases (congrArg State.status hfault).symm.trans ht
  · exact hdone

/-- Everything an accepted LZ4D has done: the bytes it declares were there, and its completion moves the cursor
behind them, with an output of the declared length (R212, R213). -/
theorem execLz4d_accepts {p : Int} {t : State} (h : Ready s k b p buf) (hx : execLz4d k d s = .next t)
    (ht : t.status = .ok) :
    0 ≤ p ∧ p + 12 + declaredLength buf p.toNat ≤ buf.length ∧ s.slots[d.val]? = some .free ∧
      ∃ out : List Byte, out.length = le (memRead buf (p.toNat + 4) 4) ∧
        t = lz4Commit k d b (p + 12 + declaredLength buf p.toNat) out s := by
  cases hstart : lz4Start k d s with
  | error e =>
    rw [execLz4d_of_error h.ok hstart] at hx
    cases hx
    cases ht
  | ok u =>
    obtain ⟨hd, h0, hin⟩ := lz4Start_ok_header h hstart
    obtain ⟨p, rfl⟩ := Int.eq_ofNat_of_zero_le h0
    rw [execLz4d_of_start h.ok hstart] at hx
    cases hx
    rw [lz4Start_of_header h hd (by omega)] at hstart
    split at hstart
    · cases hstart
    · rename_i hfits
      refine ⟨h0, by rw [Int.toNat_natCast]; omega, hd, ?_⟩
      split at hstart
      · rename_i hclen
        cases hstart
        refine ⟨_, ?_, lz4Loop_of_noBlock rfl _⟩
        rw [memRead_length (by omega), declaredLength, if_pos hclen]
        rfl
      · rename_i hclen
        cases hstart
        have hne : leWord (memRead buf p 4) ≠ 0 := fun h0 => hclen (leWord_eq_zero_iff.mp h0)
        obtain ⟨out, hlen, hout⟩ := lz4Loop_entry_accepts hne ht
        refine ⟨out, hlen.trans (leWord_memRead_toNat _ _), hout.trans ?_⟩
        rw [leWord_memRead_toNat, Int.toNat_natCast, declaredLength, if_neg hclen]
        rfl

end

/-- Settles O45: the header is tested first, and then what it declares. -/
theorem blockHeaderUnderruns : Obligations.BlockHeaderUnderruns := by
  intro s k d b p buf h hd clen dlen hshort
  have hstart : lz4Start k d s = .error .bufferUnderrun := by
    by_cases hheader : p < 0 ∨ (buf.length : Int) < p + 12
    · exact lz4Start_header_underrun h hd hheader
    · rw [not_or, not_lt, not_lt] at hheader
      obtain ⟨h0, hin⟩ := hheader
      obtain ⟨p, rfl⟩ := Int.eq_ofNat_of_zero_le h0
      have hout : (buf.length : Int) < p + 12 + declaredLength buf p :=
        (hshort.resolve_left h0.not_gt).resolve_left hin.not_gt
      rw [lz4Start_of_header h hd (by omega), if_pos (by omega)]
  exact execLz4d_of_error h.ok hstart

/-- Settles O44: an accepted LZ4D is its completion, written out. -/
theorem acceptedBlocksAreExact : Obligations.AcceptedBlocksAreExact := by
  intro s t k d b p buf h hx ht clen dlen used
  obtain ⟨h0, hin, hd, out, hlen, rfl⟩ := execLz4d_accepts h hx ht
  have hused : p + 12 + declaredLength buf p.toNat = p + used := by
    show p + 12 + declaredLength buf p.toNat = p + ((12 + declaredLength buf p.toNat : Nat) : Int)
    omega
  rw [hused] at hin ⊢
  exact ⟨h0, hin, hd, out, hlen, by rw [lz4Commit_eq, hlen]⟩

end Sys2Proof.Machine
end

section
/-! A sequence whose bytes are any (R205 to R211): its parts in order, each of which may raise. -/

namespace Sys2Proof.Machine

/-- The block in progress behind the literal run of length `n`, whatever bytes it copies (R207). -/
def Lz4.afterCopy (c : Lz4) (buf : List Byte) (n m : Nat) : Lz4 :=
  { c.afterLength n m with
    out := c.out ++ memRead buf (c.afterLength n m).ip n, ip := (c.afterLength n m).ip + n }

/-- The block in progress behind an offset (R209). -/
def Lz4.afterOffset (c : Lz4) (off : Nat) : Lz4 :=
  { c with off := BitVec.ofNat 16 off, ip := c.ip + 2, start := (c.op : Int) - off }

/-- The block in progress behind the extension bytes of a match length `n + 4` (R210). -/
def Lz4.afterMatchLength (c : Lz4) (n : Nat) : Lz4 :=
  { c with ml := n + 4, ip := c.ip + (lengthExtension n).length }

section
variable {buf tail : List Byte} {c : Lz4} {l m : Nat} {e : FaultKind}

/-- Of a sequence the literal length raises first (R206). -/
theorem seqBody_of_length_error (h : seqLiteralLength buf (seqToken l m c) = .error e) :
    seqBody buf l m c = .error e := by
  simp only [seqBody, h]

/-- Behind the literal length the literal run raises (R207). -/
theorem seqBody_of_literals_error {c' : Lz4} (hlength : seqLiteralLength buf (seqToken l m c) = .ok c')
    (h : seqLiterals buf c' = .error e) : seqBody buf l m c = .error e := by
  simp only [seqBody, hlength, h]

/-- Behind the literals, where input remains, the match decides (R208). -/
theorem seqBody_of_match_due {c' c'' : Lz4} (hlength : seqLiteralLength buf (seqToken l m c) = .ok c')
    (hcopy : seqLiterals buf c' = .ok c'') (hdue : c''.ip < c''.blockEnd) :
    seqBody buf l m c = seqMatch buf c'' := by
  simp only [seqBody, hlength, hcopy, if_pos hdue]

/-- Of a match the offset raises first (R209). -/
theorem seqMatch_of_offset_error (h : seqOffset buf c = .error e) : seqMatch buf c = .error e := by
  simp only [seqMatch, h]

/-- Behind the offset the match length raises (R210). -/
theorem seqMatch_of_length_error {c' : Lz4} (hoff : seqOffset buf c = .ok c')
    (h : seqMatchLength buf c' = .error e) : seqMatch buf c = .error e := by
  simp only [seqMatch, hoff, h]

/-- Behind both the copy decides (R211). -/
theorem seqMatch_of_length {c' c'' : Lz4} (hoff : seqOffset buf c = .ok c')
    (hlength : seqMatchLength buf c' = .ok c'') : seqMatch buf c = seqMatchCopy c'' := by
  simp only [seqMatch, hoff, hlength]

/-- A literal length whose extension runs off the buffer (R206). -/
theorem seqLiteralLength_underrun {n : Nat} (hlit : c.lit = 15)
    (hdrop : buf.drop c.ip = List.replicate n 255) : seqLiteralLength buf c = .error .bufferUnderrun := by
  simp only [seqLiteralLength, if_pos hlit, hdrop, readExtension_underrun]

/-- A match length whose extension runs off the buffer (R210). -/
theorem seqMatchLength_underrun {n : Nat} (hml : c.ml = 15)
    (hdrop : buf.drop c.ip = List.replicate n 255) : seqMatchLength buf c = .error .bufferUnderrun := by
  simp only [seqMatchLength, if_pos hml, hdrop, readExtension_underrun]

/-- Behind its token a sequence has the literal length that its extension bytes spell (R205, R206). -/
theorem seqLiteralLength_token {n : Nat} (hl : l = lengthNibble n)
    (hdrop : buf.drop (c.ip + 1) = lengthExtension n ++ tail) :
    seqLiteralLength buf (seqToken l m c) = .ok (c.afterLength n m) :=
  seqLiteralLength_format (c := seqToken l m c) hl hdrop

/-- A sequence whose literals fit the block and the output, with input behind them, is its match (R208). -/
theorem seqBody_of_copy {n : Nat} (hl : l = lengthNibble n)
    (hdrop : buf.drop (c.ip + 1) = lengthExtension n ++ tail)
    (hdue : (c.afterLength n m).ip + n < c.blockEnd) (hout : c.op + n ≤ c.dlen.toNat) :
    seqBody buf l m c = seqMatch buf (c.afterCopy buf n m) :=
  seqBody_of_match_due (seqLiteralLength_token hl hdrop)
    (seqLiterals_copy (c := c.afterLength n m) hdue.le hout) hdue

/-- Any two bytes are the offset they spell (R93, R209). -/
theorem seqOffset_bytes {o0 o1 : Byte} (hdrop : buf.drop c.ip = o0 :: o1 :: tail) :
    seqOffset buf c = .ok (c.afterOffset (o0.toNat + 256 * o1.toNat)) := by
  have h0 := o0.isLt
  have h1 := o1.isLt
  refine seqOffset_format (tail := tail) (by omega) ?_
  have hlow : BitVec.ofNat 8 (o0.toNat + 256 * o1.toNat) = o0 := by
    apply BitVec.eq_of_toNat_eq
    rw [BitVec.toNat_ofNat]
    omega
  have hhigh : BitVec.ofNat 8 ((o0.toNat + 256 * o1.toNat) / 256) = o1 := by
    apply BitVec.eq_of_toNat_eq
    rw [BitVec.toNat_ofNat]
    omega
  rw [hlow, hhigh, hdrop]
  rfl

/-- Where the match of a sequence stands. -/
theorem drop_afterCopy {n : Nat} (hdrop : buf.drop (c.ip + 1) = lengthExtension n ++ tail) :
    buf.drop (c.afterCopy buf n m).ip = tail.drop n := by
  rw [← drop_of_drop hdrop, List.drop_drop]
  rfl

/-- The run is copied in full where the buffer goes on behind it. -/
theorem afterCopy_op {n : Nat} (h : (c.afterCopy buf n m).ip ≤ buf.length) :
    (c.afterCopy buf n m).op = c.op + n := by
  simp only [Lz4.op, Lz4.afterCopy, List.length_append]
  rw [memRead_length h]

/-- The faults of the match copy, told by the offset and the match length (R211). -/
theorem seqMatchCopy_of_malformed {off more : Nat} (hoff : off < 65536)
    (h : off = 0 ∨ c.op < off ∨ c.dlen.toNat < c.op + more + 4) :
    seqMatchCopy ((c.afterOffset off).afterMatchLength more) = .error .malformedStream := by
  apply seqMatchCopy_malformed
  simp only [Lz4.afterMatchLength, Lz4.afterOffset, Lz4.op] at h ⊢
  obtain rfl | hbeyond | hlong := h
  · exact .inl rfl
  · exact .inr (.inl (by omega))
  · exact .inr (.inr (by omega))

end
end Sys2Proof.Machine
end

section
/-! The faults of a sequence of a block in progress, in order (R206 to R211). -/

namespace Sys2Proof.Machine

/-- A raise of a sequence is taken (R268). -/
theorem lz4Sequence_of_error {l m : Nat} {c : Lz4} {s : State} {buf : List Byte} {e : FaultKind}
    (hbuf : s.bufAt c.src = some buf) (h : seqBody buf l m c = .error e) :
    lz4Sequence l m c s = takeFault e s := by
  simp only [lz4Sequence, hbuf, h]

/-- A literal length whose extension runs off the buffer (R206, R214). -/
theorem lz4Sequence_length_underrun {s : State} {c : Lz4} {buf : List Byte} {l m n : Nat}
    (hbuf : s.bufAt c.src = some buf) (hl : l = 15) (hdrop : buf.drop (c.ip + 1) = List.replicate n 255) :
    lz4Sequence l m c s = takeFault .bufferUnderrun s :=
  lz4Sequence_of_error hbuf
    (seqBody_of_length_error (seqLiteralLength_underrun (c := seqToken l m c) hl hdrop))

section
variable {s : State} {c : Lz4} {buf tail : List Byte} {l m run : Nat}
  (hbuf : s.bufAt c.src = some buf) (hl : l = lengthNibble run)
  (hdrop : buf.drop (c.ip + 1) = lengthExtension run ++ tail)
include hbuf hl hdrop

/-- A literal run beyond the block (R207). -/
theorem lz4Sequence_run_underrun (hlong : c.blockEnd < c.ip + 1 + (lengthExtension run).length + run) :
    lz4Sequence l m c s = takeFault .bufferUnderrun s :=
  lz4Sequence_of_error hbuf (seqBody_of_literals_error (seqLiteralLength_token hl hdrop)
    (seqLiterals_underrun (c := c.afterLength run m) hlong))

/-- A literal run that fits the block and is beyond the output (R207). -/
theorem lz4Sequence_run_malformed (hfits : c.ip + 1 + (lengthExtension run).length + run ≤ c.blockEnd)
    (hout : c.dlen.toNat < c.op + run) : lz4Sequence l m c s = takeFault .malformedStream s :=
  lz4Sequence_of_error hbuf (seqBody_of_literals_error (seqLiteralLength_token hl hdrop)
    (seqLiterals_malformed (c := c.afterLength run m) hfits hout))

variable (hdue : c.ip + 1 + (lengthExtension run).length + run < c.blockEnd)
  (hout : c.op + run ≤ c.dlen.toNat)
include hdue hout

/-- Where a match is due, what it raises is what the sequence raises. -/
theorem lz4Sequence_of_match_error {e : FaultKind} (h : seqMatch buf (c.afterCopy buf run m) = .error e) :
    lz4Sequence l m c s = takeFault e s :=
  lz4Sequence_of_error hbuf ((seqBody_of_copy hl hdrop hdue hout).trans h)

/-- An offset that does not lie in the buffer (R209). -/
theorem lz4Sequence_offset_underrun
    (hshort : buf.length < c.ip + 1 + (lengthExtension run).length + run + 2) :
    lz4Sequence l m c s = takeFault .bufferUnderrun s :=
  lz4Sequence_of_match_error hbuf hl hdrop hdue hout
    (seqMatch_of_offset_error (seqOffset_underrun hshort))

/-- A match length whose extension runs off the buffer, whatever the offset (R210). -/
theorem lz4Sequence_match_underrun {o0 o1 : Byte} {n : Nat} (hm : m = 15)
    (htail : tail.drop run = o0 :: o1 :: List.replicate n 255) :
    lz4Sequence l m c s = takeFault .bufferUnderrun s := by
  have hmatch := (drop_afterCopy (m := m) hdrop).trans htail
  have hlength : seqMatchLength buf ((c.afterCopy buf run m).afterOffset (o0.toNat + 256 * o1.toNat)) =
      .error .bufferUnderrun :=
    seqMatchLength_underrun hm (drop_of_drop (xs := [o0, o1]) hmatch)
  exact lz4Sequence_of_match_error hbuf hl hdrop hdue hout
    (seqMatch_of_length_error (seqOffset_bytes hmatch) hlength)

/-- A match with a zero offset, one beyond the output, or a length beyond `dlen` (R211). -/
theorem lz4Sequence_match_malformed {o0 o1 : Byte} {more : Nat} {rest : List Byte}
    (hm : m = lengthNibble more) (htail : tail.drop run = o0 :: o1 :: (lengthExtension more ++ rest))
    (hbad : o0.toNat + 256 * o1.toNat = 0 ∨ c.op + run < o0.toNat + 256 * o1.toNat ∨
      c.dlen.toNat < c.op + run + more + 4) :
    lz4Sequence l m c s = takeFault .malformedStream s := by
  have h0 := o0.isLt
  have h1 := o1.isLt
  have hmatch := (drop_afterCopy (m := m) hdrop).trans htail
  have hin : (c.afterCopy buf run m).ip ≤ buf.length := by
    rw [length_of_drop hmatch (by simp)]
    exact Nat.le_add_right _ _
  have hlength : seqMatchLength buf ((c.afterCopy buf run m).afterOffset (o0.toNat + 256 * o1.toNat)) =
      .ok (((c.afterCopy buf run m).afterOffset (o0.toNat + 256 * o1.toNat)).afterMatchLength more) :=
    seqMatchLength_format hm (drop_of_drop (xs := [o0, o1]) hmatch)
  have hcopy := seqMatchCopy_of_malformed (c := c.afterCopy buf run m)
    (off := o0.toNat + 256 * o1.toNat) (more := more) (by omega) (by rw [afterCopy_op hin]; exact hbad)
  exact lz4Sequence_of_match_error hbuf hl hdrop hdue hout
    ((seqMatch_of_length (seqOffset_bytes hmatch) hlength).trans hcopy)

end

/-- Settles O49: the raises of a sequence, in their order. -/
theorem sequenceFaults : Obligations.SequenceFaults := by
  intro s c buf l m hs hbuf
  simp only [exec_lz4seq hs, ← takeFault_eq_faultedWith]
  refine ⟨fun n hl hdrop => congrArg _ (lz4Sequence_length_underrun hbuf hl hdrop), ?_⟩
  intro run tail hl hdrop
  refine ⟨fun hlong => ?_, fun hfits hout => ?_, fun hdue hout => ⟨fun hshort => ?_, ?_, ?_⟩⟩
  · exact congrArg _ (lz4Sequence_run_underrun hbuf hl hdrop hlong)
  · exact congrArg _ (lz4Sequence_run_malformed hbuf hl hdrop hfits hout)
  · exact congrArg _ (lz4Sequence_offset_underrun hbuf hl hdrop hdue hout hshort)
  · intro o0 o1 n hm htail
    exact congrArg _ (lz4Sequence_match_underrun hbuf hl hdrop hdue hout hm htail)
  · intro o0 o1 more rest hm htail hbad
    exact congrArg _ (lz4Sequence_match_malformed hbuf hl hdrop hdue hout hm htail hbad)

end Sys2Proof.Machine
end

section
/-! The checks at the end of a block (R207, R211, R212, R215). -/

namespace Sys2Proof.Machine

/-- A sequence behind which no input remains, and which misses the block end or the declared output length
(R212). -/
theorem lz4Sequence_end_malformed {l m : Nat} {c c' : Lz4} {s : State} {buf : List Byte}
    (hbuf : s.bufAt c.src = some buf) (hbody : seqBody buf l m c = .ok c') (hend : c'.blockEnd ≤ c'.ip)
    (hmiss : c'.blockEnd < c'.ip ∨ c'.op ≠ c'.dlen.toNat) :
    lz4Sequence l m c s = takeFault .malformedStream s := by
  simp only [lz4Sequence, hbuf, hbody, if_neg hend.not_gt]
  obtain hfault | ⟨hip, hop, -⟩ := lz4Finish_cases c' s
  · exact hfault
  · exact absurd hop (hmiss.resolve_left hip.le.not_gt)

section
variable {s : State} {c : Lz4} {buf rest : List Byte} {q : Sequence} {l m : Nat}
  (hbuf : s.bufAt c.src = some buf) (hdrop : buf.drop c.ip = q.bytes ++ rest)
  (hl : l = lengthNibble q.lits.length) (hm : m = lengthNibble (q.ml - 4))
  (hlegal : q.Legal (c.out ++ q.lits).length) (hdue : c.ip + q.runLength < c.blockEnd)
include hbuf hdrop hl hm hlegal hdue

/-- A sequence of the format that produces more than the block declares: its literals or its match are beyond
`dlen` (R207, R211). -/
theorem lz4Sequence_overlong (hlong : c.dlen.toNat < c.op + q.lits.length + q.ml) :
    lz4Sequence l m c s = takeFault .malformedStream s := by
  have hmin := hlegal.minMatch
  have hrun : buf.drop (c.ip + 1) = lengthExtension q.lits.length ++ (q.lits ++
      (BitVec.ofNat 8 q.off :: BitVec.ofNat 8 (q.off / 256) :: (lengthExtension (q.ml - 4) ++ rest))) := by
    rw [← List.drop_drop, hdrop, Sequence.bytes]
    simp only [List.cons_append, List.drop_succ_cons, List.drop_zero, List.append_assoc, List.nil_append]
  have hdue' : c.ip + 1 + (lengthExtension q.lits.length).length + q.lits.length < c.blockEnd := by
    unfold Sequence.runLength at hdue
    omega
  by_cases hout : c.op + q.lits.length ≤ c.dlen.toNat
  · exact lz4Sequence_match_malformed hbuf hl hrun hdue' hout hm List.drop_left
      (.inr (.inr (by omega)))
  · exact lz4Sequence_run_malformed hbuf hl hrun hdue'.le (by omega)

/-- A sequence of the format that ends beyond the block end, or there with another output than declared
(R211, R212, R215). -/
theorem lz4Sequence_match_misses (hmiss : c.blockEnd < c.ip + q.bytes.length ∨
      (c.ip + q.bytes.length = c.blockEnd ∧ c.op + q.lits.length + q.ml ≠ c.dlen.toNat)) :
    lz4Sequence l m c s = takeFault .malformedStream s := by
  by_cases hlong : c.dlen.toNat < c.op + q.lits.length + q.ml
  · exact lz4Sequence_overlong hbuf hdrop hl hm hlegal hdue hlong
  · obtain ⟨mid, -, hext⟩ := matchCopyRepeats _ q.off q.ml hlegal.offPos hlegal.offOut
    have hmid : mid.length = c.op + q.lits.length + q.ml := by
      rw [hext.length, List.length_append]
      rfl
    refine lz4Sequence_end_malformed hbuf
      (seqBody_format hdrop hl hm hdue hlegal hext (hmid ▸ not_lt.mp hlong)) ?_ ?_
    · exact hmiss.elim Nat.le_of_lt fun h => h.1.ge
    · exact hmiss.imp_right fun h => hmid.trans_ne h.2

end

/-- A last run of literals with another output than the block declares (R207, R212). -/
theorem lz4Sequence_last_misses {s : State} {c : Lz4} {buf lits rest : List Byte} {n l m : Nat}
    (hbuf : s.bufAt c.src = some buf) (hdrop : buf.drop c.ip = lastBytes lits n ++ rest)
    (hl : l = lengthNibble lits.length) (hip : c.ip + (lastBytes lits n).length = c.blockEnd)
    (hmiss : c.op + lits.length ≠ c.dlen.toNat) :
    lz4Sequence l m c s = takeFault .malformedStream s := by
  have hop : (c.out ++ lits).length = c.op + lits.length := List.length_append
  by_cases hout : c.op + lits.length ≤ c.dlen.toNat
  · have hend : (c.afterRun lits m).ip = c.blockEnd := by
      rw [← hip, lastBytes_length]
      rfl
    exact lz4Sequence_end_malformed hbuf (seqBody_last m hdrop hl hip (hop ▸ hout)) hend.ge
      (.inr (hop.trans_ne hmiss))
  · have hrun : buf.drop (c.ip + 1) = lengthExtension lits.length ++ (lits ++ rest) := by
      rw [← List.drop_drop, hdrop, lastBytes]
      simp only [List.cons_append, List.drop_succ_cons, List.drop_zero, List.append_assoc]
    rw [lastBytes_length] at hip
    exact lz4Sequence_run_malformed hbuf hl hrun (by omega) (by omega)

/-- A fault ends the loop (R268). -/
theorem lz4Loop_of_fault {n : Nat} {c : Lz4} {s : State} {kind : FaultKind} (hn : 0 < n)
    (h : lz4Next c { s with lz4 := some c } = takeFault kind { s with lz4 := some c }) :
    lz4Loop n { s with lz4 := some c } = takeFault kind s := by
  obtain ⟨n, rfl⟩ := Nat.exists_eq_add_of_lt hn
  rw [Nat.zero_add, lz4Loop_succ, h]
  exact lz4Loop_of_noBlock rfl n

/-- The loop on a block of the format that declares another output length: MalformedStream at the sequence that
passes it, or at the end. -/
theorem lz4Loop_block_misses {qs : List Sequence} {tail : BlockTail} {s : State} {c : Lz4}
    {buf final post : List Byte} {n : Nat} (hbuf : s.bufAt c.src = some buf)
    (hdrop : buf.drop c.ip = blockBytes qs tail ++ post)
    (hend : c.ip + (blockBytes qs tail).length = c.blockEnd) (hpos : 0 < (blockBytes qs tail).length)
    (hexp : Expands c.out qs tail.lits final) (hmiss : final.length ≠ c.dlen.toNat)
    (hn : (blockBytes qs tail).length ≤ n) :
    lz4Loop n { s with lz4 := some c } = takeFault .malformedStream s := by
  induction qs generalizing c n with
  | nil =>
    cases tail with
    | afterMatch => exact absurd hpos (by simp [blockBytes, BlockTail.bytes])
    | literals lits m =>
      obtain rfl : final = c.out ++ lits := hexp
      refine lz4Loop_of_fault (hpos.trans_le hn) ?_
      rw [lz4Next_of_token (s := { s with lz4 := some c }) hbuf hdrop (by omega)]
      exact lz4Sequence_last_misses hbuf hdrop rfl hend (List.length_append ▸ hmiss)
  | cons q qs ih =>
    obtain ⟨hlegal, mid, hext, hrest⟩ := hexp
    rw [blockBytes_cons, List.append_assoc] at hdrop
    rw [blockBytes_cons, List.length_append] at hend hn
    have hqlen := q.bytes_length
    have hmid : mid.length = c.op + q.lits.length + q.ml := by
      rw [hext.length, List.length_append]
      rfl
    have hnext := lz4Next_of_token (s := { s with lz4 := some c }) hbuf hdrop (by omega)
    by_cases hlong : c.dlen.toNat < mid.length
    · refine lz4Loop_of_fault (by omega) (hnext.trans ?_)
      exact lz4Sequence_overlong hbuf hdrop rfl rfl hlegal (by omega) (hmid ▸ hlong)
    cases hz : (blockBytes qs tail).length with
    | zero =>
      obtain ⟨rfl, rfl⟩ := blockBytes_length_eq_zero hz
      obtain rfl : final = mid := hrest.trans (List.append_nil mid)
      refine lz4Loop_of_fault (by omega) (hnext.trans ?_)
      exact lz4Sequence_match_misses hbuf hdrop rfl rfl hlegal (by omega)
        (.inr ⟨by omega, hmid.symm.trans_ne hmiss⟩)
    | succ r =>
      obtain ⟨n, rfl⟩ : ∃ n', n = n' + 1 := ⟨n - 1, by omega⟩
      rw [lz4Loop_succ, hnext,
        lz4Sequence_match_continues (s := { s with lz4 := some c }) hbuf hdrop rfl rfl (by omega) hlegal
          hext (not_lt.mp hlong)]
      exact ih (c := c.afterSequence q mid) hbuf (drop_of_drop hdrop)
        (by simp only [Lz4.afterSequence]; omega) (by omega) hrest hmiss (by omega)

/-- Settles O50: a sequence that ends the block, and the loop on a whole block. -/
theorem blockEndChecks : Obligations.BlockEndChecks := by
  refine ⟨?_, ?_, ?_⟩
  · intro s c buf rest q l m hs hbuf hdrop hl hm hlegal hdue hmiss
    exact (exec_lz4seq hs).trans
      (congrArg _ (lz4Sequence_match_misses hbuf hdrop hl hm hlegal hdue hmiss))
  · intro s c buf lits rest n l m hs hbuf hdrop hl hip hmiss
    exact (exec_lz4seq hs).trans (congrArg _ (lz4Sequence_last_misses hbuf hdrop hl hip hmiss))
  · intro s k d b pre post r0 r1 r2 r3 qs tail final dlen hexp hdlen hmiss hpos hlen h hd
    have hdrop := drop_behind pre (headerBytes (blockBytes qs tail).length dlen r0 r1 r2 r3)
      (blockBytes qs tail) post
    have hstart := (lz4Start_of_ready h hd hdrop hdlen).2 hpos hlen (by simp)
    have hcnat : (BitVec.ofNat 32 (blockBytes qs tail).length).toNat = (blockBytes qs tail).length :=
      Nat.mod_eq_of_lt hlen
    have hdnat : (BitVec.ofNat 32 dlen).toNat = dlen := Nat.mod_eq_of_lt hdlen
    refine (execLz4d_of_start h.ok hstart).trans (congrArg _ ?_)
    exact lz4Loop_block_misses (bufAt_eq_some_iff.mpr h.slot) (drop_of_drop hdrop)
      (congrArg _ hcnat.symm) hpos hexp (hdnat.symm ▸ hmiss.symm) hcnat.ge

end Sys2Proof.Machine
end

section
/-! ILV on any run (R240, R241, R267): its two faults in the order it tests for them, what is left when it
delivers elements, and that ILV32 reads the same bytes (R248). -/

namespace Sys2Proof.Machine

section
variable {s : State} {k : Fin 16} {b : Nat} {p : Int} {buf : List Byte} {bc w : Word}

/-- A width of zero, or one that does not divide the byte count, is found before the bounds (R241). -/
theorem execIlv_bad_geometry (h : Ready s k b p buf) (hgeom : w.toNat = 0 ∨ bc.toNat % w.toNat ≠ 0) :
    execIlv k bc w s = .next (faultedWith s .invalidGeometry) := by
  have hbody : ilvBody bc.toNat w.toNat ⟨b, p, buf⟩ s = .error .invalidGeometry := if_pos hgeom
  rw [execIlv, readCommand_of_ready h]
  simp only [zext32, hbody, takeFault_eq_faultedWith]

/-- With a good geometry the span check is next (R61, R241). -/
theorem execIlv_past_end (h : Ready s k b p buf) (hw : w.toNat ≠ 0) (hmod : bc.toNat % w.toNat = 0)
    (hout : p < 0 ∨ (buf.length : Int) < p + bc.toNat) :
    execIlv k bc w s = .next (faultedWith s .bufferUnderrun) := by
  have hgeom : ¬ (w.toNat = 0 ∨ bc.toNat % w.toNat ≠ 0) := not_or.mpr ⟨hw, not_not.mpr hmod⟩
  have hneed : need ⟨b, p, buf⟩ bc.toNat = .error .bufferUnderrun := if_pos hout
  rw [execIlv, readCommand_of_ready h]
  simp only [ilvBody, zext32, if_neg hgeom, hneed, takeFault_eq_faultedWith]

end

/-- Settles O54: the two tests of ILV, in their order. -/
theorem interleaveFaultOrder : Obligations.InterleaveFaultOrder :=
  fun _ _ _ _ _ _ _ h => ⟨execIlv_bad_geometry h, execIlv_past_end h⟩

/-- A read command that writes RES found an ALLOC slot behind its cursor (R120 step 3). -/
theorem readCommand_ready_of_result {k : Fin 16} {peek : Bool}
    {body : Opened → State → Except FaultKind (State × Res)} {s t : State} (hs : s.status = .ok)
    (h : readCommand k peek body s = .next t) (ht : t.res ≠ .none) : ∃ b p buf, Ready s k b p buf := by
  cases ho : openCursor s k with
  | error e =>
    cases h.symm.trans (readCommand_of_notOpen hs ho)
    exact absurd rfl ht
  | ok o =>
    obtain ⟨hcur, hslot⟩ := openCursor_ok_iff.mp ho
    exact ⟨_, _, _, hs, hcur, hslot⟩

/-- Everything an ILV that writes RES can have done: its run lies in the slot, and it delivers the elements
of the run. -/
theorem execIlv_completes {s t : State} {k : Fin 16} {bc w : Word} (hs : s.status = .ok)
    (h : execIlv k bc w s = .next t) (ht : t.res ≠ .none) :
    ∃ (b p : Nat) (buf : List Byte), Ready s k b p buf ∧ p + bc.toNat ≤ buf.length ∧
      t = withResult s (.elems
        ((List.range (bc.toNat / w.toNat)).map (planeElem buf p (bc.toNat / w.toNat) w.toNat))) := by
  obtain ⟨b, p, buf, hready⟩ := readCommand_ready_of_result hs h ht
  by_cases hgeom : w.toNat = 0 ∨ bc.toNat % w.toNat ≠ 0
  · cases h.symm.trans (execIlv_bad_geometry hready hgeom)
    exact absurd rfl ht
  obtain ⟨hw, hmod⟩ := not_or.mp hgeom
  rw [not_not] at hmod
  by_cases hout : p < 0 ∨ (buf.length : Int) < p + bc.toNat
  · cases h.symm.trans (execIlv_past_end hready hw hmod hout)
    exact absurd rfl ht
  obtain ⟨p, rfl⟩ := Int.eq_ofNat_of_zero_le (show 0 ≤ p by omega)
  have hrun : p + bc.toNat ≤ buf.length := by omega
  cases h.symm.trans (execIlv_of_ready hready hw hmod hrun)
  exact ⟨b, p, buf, hready, hrun, rfl⟩

/-- Word i is element i of width 4 read big-endian (R105, R248). -/
theorem planeWordAt_toNat (buf : List Byte) (p count i : Nat) :
    (planeWordAt buf p count i).toNat = be (planeElem buf p count 4 i) :=
  (wordOfPlanes_toNat _ _ _ _).trans (be_quad _ _ _ _).symm

/-- Settles O56: an ILV that delivers elements fixes the run, and ILV32 makes its words of the same run. -/
theorem wordsAreBigEndianElements : Obligations.WordsAreBigEndianElements := by
  refine ⟨fun p count i j hi hj => wordPlaneIndex_eq hi (Nat.lt_succ_of_le hj), ?_⟩
  intro s t u k bc count es ws hbc hs hilv hilv32 hes hws
  obtain ⟨b, p, buf, hready, hrun, rfl⟩ := execIlv_completes hs hilv (by simp [hes])
  cases hilv32.symm.trans
    (words32_of_ready hready (Int.natCast_nonneg p) (show (p : Int) + 4 * count.toNat ≤ buf.length by omega))
  cases hes
  cases hws
  have hcount : bc.toNat / (4 : Word).toNat = count.toNat := by
    rw [hbc]
    exact Nat.mul_div_cancel_left _ (by decide)
  rw [hcount, List.map_map, List.map_map]
  exact List.map_congr_left fun i _ => planeWordAt_toNat buf p count.toNat i

end Sys2Proof.Machine
end

section
/-! The zigzag map (R106, R246): its value by parity, its inverse, and its exclusive-or form. -/

namespace Sys2Proof.Machine

theorem zz_of_even {v : Word} (h : v.toNat % 2 = 0) : zz v = (v.toNat / 2 : Nat) := if_pos h

theorem zz_of_odd {v : Word} (h : v.toNat % 2 = 1) : zz v = -((v.toNat + 1) / 2 : Nat) :=
  if_neg (by omega)

/-- R246 without the division: the halves are exact. -/
theorem two_mul_zz (v : Word) :
    (v.toNat % 2 = 0 → 2 * zz v = v.toNat) ∧ (v.toNat % 2 = 1 → 2 * zz v = -(v.toNat + 1)) := by
  constructor
  · intro h
    rw [zz_of_even h]
    omega
  · intro h
    rw [zz_of_odd h]
    omega

/-- The zigzag code of an integer, which ZZ reads back: 0, −1, 1, −2, … are 0, 1, 2, 3, …. -/
def zigzagCode (z : Int) : Word := BitVec.ofNat 32 (if 0 ≤ z then 2 * z else -2 * z - 1).toNat

theorem zigzagCode_zz (v : Word) : zigzagCode (zz v) = v := by
  apply BitVec.eq_of_toNat_eq
  obtain ⟨heven, hodd⟩ := two_mul_zz v
  have := v.isLt
  rw [zigzagCode, BitVec.toNat_ofNat]
  split <;> omega

theorem zz_zigzagCode {z : Int} (hlow : -2 ^ 31 ≤ z) (hhigh : z < 2 ^ 31) : zz (zigzagCode z) = z := by
  obtain ⟨heven, hodd⟩ := two_mul_zz (zigzagCode z)
  have hcode : ((zigzagCode z).toNat : Int) = if 0 ≤ z then 2 * z else -2 * z - 1 := by
    rw [zigzagCode, BitVec.toNat_ofNat]
    split <;> omega
  split at hcode <;> omega

/-- The exclusive-or form of R246: with v even the half is itself its two's complement reading, with v odd
its complement reads as −1 less the half. -/
theorem zz_eq_xor (v : Word) :
    zz v = ((v >>> 1) ^^^ (if v.toNat % 2 = 1 then BitVec.allOnes 32 else 0)).toInt := by
  have hhalf : (v >>> 1).toNat = v.toNat / 2 := by
    rw [BitVec.toNat_ushiftRight, Nat.shiftRight_eq_div_pow, pow_one]
  have := v.isLt
  obtain h | h := Nat.mod_two_eq_zero_or_one v.toNat
  · rw [if_neg (by omega), zz_of_even h, BitVec.ofNat_eq_ofNat, BitVec.xor_zero,
      BitVec.toInt_eq_toNat_of_lt (by omega), hhalf]
  · rw [if_pos h, zz_of_odd h, BitVec.xor_allOnes, BitVec.toInt_eq_toNat_cond, BitVec.toNat_not, hhalf,
      if_neg (by omega)]
    omega

/-- Settles O57: `zigzagCode` is the inverse of ZZ on both sides. -/
theorem zigzagIsABijection : Obligations.ZigzagIsABijection := by
  refine ⟨two_mul_zz, fun v w h => ?_, fun z => ⟨fun ⟨hlow, hhigh⟩ => ?_, ?_⟩, zz_eq_xor⟩
  · rw [← zigzagCode_zz v, h, zigzagCode_zz]
  · exact ⟨zigzagCode z, zz_zigzagCode hlow hhigh⟩
  · rintro ⟨v, rfl⟩
    exact zz_range v

end Sys2Proof.Machine
end

section
/-! Precise faults (R268): among the results of a command of the host, the faulted ones are exactly the fault
taken on the state before it. -/

namespace Sys2Proof.Machine

/-- Of all that a command can lead to, only a taken fault turns STATUS from OK to Faulted. -/
theorem CommandResult.eq_takeFault {i : Instr} {s t : State} {kind : FaultKind} (hr : CommandResult i s t)
    (hs : s.status = .ok) (ht : t.status = .faulted kind) : t = takeFault kind s := by
  have still_ok {u : State} (hu : u.status = s.status) : u.status ≠ .faulted kind := by
    rw [hu, hs]
    exact Status.noConfusion
  cases hr with
  | ignored hne => exact absurd hs hne
  | fault _ kind' =>
    cases ht
    rfl
  | reset => cases ht
  | loaded | freed | result | moved | block => exact absurd ht (still_ok rfl)

/-- Settles O10: the inversion lemma of `exec` leaves a taken fault as the only faulted result. -/
theorem faultsArePrecise : Obligations.FaultsArePrecise :=
  fun _ _ _ _ hi hs h ht => (exec_result hi h).eq_takeFault hs ht

end Sys2Proof.Machine
end

section
/-! Which kinds of fault each instruction can raise (R261 to R264): the raises of every operation, then of the
bodies of the commands, then of `exec`. -/

namespace Sys2Proof.Machine

/-! ### The operations -/

theorem needCursor_error {s : State} {k : Fin 16} {e : FaultKind} (h : needCursor s k = .error e) :
    e = .illegalCommand := by
  unfold needCursor at h
  split at h
  · cases h
  · cases h
    rfl

/-- `collect` raises only what one of its elements raises. -/
theorem collect_error {α β : Type} {f : α → Except FaultKind β} {as : List α} {e : FaultKind}
    (h : collect f as = .error e) : ∃ a ∈ as, f a = .error e := by
  induction as with
  | nil => cases h
  | cons a as ih =>
    rw [collect] at h
    split at h
    · rename_i ha
      cases h
      exact ⟨a, List.mem_cons_self, ha⟩
    · split at h
      · rename_i has
        cases h
        obtain ⟨x, hx, hfx⟩ := ih has
        exact ⟨x, List.mem_cons_of_mem a hx, hfx⟩
      · cases h

theorem byteAt_error {buf : List Byte} {a : Nat} {e : FaultKind} (h : byteAt buf a = .error e) :
    e = .bufferUnderrun := by
  unfold byteAt at h
  split at h
  · cases h
  · cases h
    rfl

theorem ilvElems_error {buf : List Byte} {p count width : Nat} {e : FaultKind}
    (h : ilvElems buf p count width = .error e) : e = .bufferUnderrun := by
  obtain ⟨i, -, helem⟩ := collect_error h
  obtain ⟨j, -, hbyte⟩ := collect_error helem
  exact byteAt_error hbyte

theorem planeWords_error {buf : List Byte} {p count : Nat} {e : FaultKind}
    (h : planeWords buf p count = .error e) : e = .bufferUnderrun := by
  obtain ⟨i, -, hword⟩ := collect_error h
  unfold planeWord at hword
  split at hword
  · cases hword
  · cases hword
    rfl

/-! ### The sequence (R205 to R211) -/

theorem seqLiteralLength_error {buf : List Byte} {c : Lz4} {e : FaultKind}
    (h : seqLiteralLength buf c = .error e) : e = .bufferUnderrun := by
  unfold seqLiteralLength at h
  split at h
  · split at h
    · rename_i hext
      cases h
      exact readExtension_error hext
    · cases h
  · cases h

theorem seqLiterals_error {buf : List Byte} {c : Lz4} {e : FaultKind} (h : seqLiterals buf c = .error e) :
    e = .bufferUnderrun ∨ e = .malformedStream := by
  unfold seqLiterals at h
  split at h
  · cases h
    exact .inl rfl
  · split at h
    · cases h
      exact .inr rfl
    · cases h

theorem seqOffset_error {buf : List Byte} {c : Lz4} {e : FaultKind} (h : seqOffset buf c = .error e) :
    e = .bufferUnderrun := by
  unfold seqOffset at h
  split at h
  · cases h
    rfl
  · cases h

theorem seqMatchLength_error {buf : List Byte} {c : Lz4} {e : FaultKind}
    (h : seqMatchLength buf c = .error e) : e = .bufferUnderrun := by
  unfold seqMatchLength at h
  split at h
  · split at h
    · rename_i hext
      cases h
      exact readExtension_error hext
    · cases h
  · cases h

theorem seqMatchCopy_error {c : Lz4} {e : FaultKind} (h : seqMatchCopy c = .error e) :
    e = .malformedStream := by
  unfold seqMatchCopy at h
  split at h
  · cases h
    rfl
  · split at h
    · cases h
      rfl
    · split at h
      · cases h
        rfl
      · cases h

theorem seqMatch_error {buf : List Byte} {c : Lz4} {e : FaultKind} (h : seqMatch buf c = .error e) :
    e = .bufferUnderrun ∨ e = .malformedStream := by
  unfold seqMatch at h
  split at h
  · rename_i hoff
    cases h
    exact .inl (seqOffset_error hoff)
  · split at h
    · rename_i hlength
      cases h
      exact .inl (seqMatchLength_error hlength)
    · exact .inr (seqMatchCopy_error h)

/-- A sequence raises BufferUnderrun or MalformedStream (R219). -/
theorem seqBody_error {buf : List Byte} {l m : Nat} {c : Lz4} {e : FaultKind}
    (h : seqBody buf l m c = .error e) : e = .bufferUnderrun ∨ e = .malformedStream := by
  unfold seqBody at h
  split at h
  · rename_i hlength
    cases h
    exact .inl (seqLiteralLength_error hlength)
  · split at h
    · rename_i hrun
      cases h
      exact seqLiterals_error hrun
    · split at h
      · exact seqMatch_error h
      · cases h

/-! ### What a state change does to STATUS -/

/-- From `s` to `t` STATUS has stayed or has become a fault of one of the kinds `allowed`. -/
def FaultsWithin (allowed : List FaultKind) (s t : State) : Prop :=
  t.status = s.status ∨ ∃ kind ∈ allowed, t.status = .faulted kind

theorem FaultsWithin.trans {allowed : List FaultKind} {s t u : State} (h : FaultsWithin allowed s t)
    (h' : FaultsWithin allowed t u) : FaultsWithin allowed s u := by
  obtain hu | hfault := h'
  · unfold FaultsWithin
    rw [hu]
    exact h
  · exact .inr hfault

theorem FaultsWithin.takeFault {allowed : List FaultKind} {kind : FaultKind} (h : kind ∈ allowed)
    (s : State) : FaultsWithin allowed s (takeFault kind s) := .inr ⟨kind, h, rfl⟩

/-- A fault that was not there before is of an allowed kind. -/
theorem FaultsWithin.mem {allowed : List FaultKind} {s t : State} {kind : FaultKind}
    (h : FaultsWithin allowed s t) (hs : s.status = .ok) (ht : t.status = .faulted kind) :
    kind ∈ allowed := by
  obtain hsame | ⟨kind', hmem, hfault⟩ := h
  · rw [ht, hs] at hsame
    cases hsame
  · cases ht.symm.trans hfault
    exact hmem

/-- The answer of a command's body on `s` raises a kind of `allowed` or leaves STATUS alone. -/
def RaisesWithin (allowed : List FaultKind) (s : State) : Except FaultKind (State × Res) → Prop
  | .error kind => kind ∈ allowed
  | .ok (t, _) => t.status = s.status

theorem command_faultsWithin {allowed : List FaultKind} {body : State → Except FaultKind (State × Res)}
    {s t : State} (hb : RaisesWithin allowed s (body s)) (h : command body s = .next t) :
    FaultsWithin allowed s t := by
  obtain ⟨-, hc⟩ | ⟨-, kind, hbody, hc⟩ | ⟨-, u, r, hbody, hc⟩ := command_cases body s
  · cases hc.symm.trans h
    exact .inl rfl
  · cases hc.symm.trans h
    rw [hbody] at hb
    exact .takeFault hb s
  · cases hc.symm.trans h
    rw [hbody] at hb
    exact .inl hb

theorem readCommand_faultsWithin {allowed : List FaultKind} {k : Fin 16} {peek : Bool}
    {body : Opened → State → Except FaultKind (State × Res)} {s t : State}
    (hopen : .illegalCommand ∈ allowed) (hb : ∀ o, RaisesWithin allowed s (body o s))
    (h : readCommand k peek body s = .next t) : FaultsWithin allowed s t := by
  refine command_faultsWithin ?_ h
  cases ho : openCursor s k with
  | error e =>
    cases openCursor_error ho
    exact hopen
  | ok o =>
    have hraise := hb o
    cases hbody : body o s with
    | error e =>
      rw [hbody] at hraise
      simpa only [hbody] using hraise
    | ok x =>
      rw [hbody] at hraise
      simp only [hbody]
      cases peek with
      | false => exact hraise
      | true => exact hraise

/-! ### The instructions -/

/-- The kinds of fault an instruction can raise: BufferUnderrun and IllegalCommand everywhere (R261, R264),
MalformedStream in a block (R262), InvalidGeometry in ILV (R263). -/
def faultKinds : Instr → List FaultKind
  | .lz4d _ _ | .lz4seq _ _ => [.bufferUnderrun, .illegalCommand, .malformedStream]
  | .ilv _ _ _ => [.bufferUnderrun, .illegalCommand, .invalidGeometry]
  | _ => [.bufferUnderrun, .illegalCommand]

theorem underrun_mem_faultKinds (i : Instr) : .bufferUnderrun ∈ faultKinds i := by
  unfold faultKinds
  split <;> exact List.mem_cons_self

theorem illegal_mem_faultKinds (i : Instr) : .illegalCommand ∈ faultKinds i := by
  unfold faultKinds
  split <;> exact List.mem_cons_of_mem _ List.mem_cons_self

/-- The body of a read (R58): its span check is all that can raise. -/
theorem spanReadBody_raisesWithin {allowed : List FaultKind} (hunder : .bufferUnderrun ∈ allowed)
    (k : Fin 16) (n : Nat) (g : Opened → Res) (o : Opened) (s : State) :
    RaisesWithin allowed s (spanReadBody k n g o s) := by
  unfold spanReadBody
  split
  · rename_i hneed
    exact (need_error hneed).1 ▸ hunder
  · rfl

theorem words32Body_raisesWithin {allowed : List FaultKind} (hunder : .bufferUnderrun ∈ allowed)
    (k : Fin 16) (n : Nat) (f : List Word → Res) (o : Opened) (s : State) :
    RaisesWithin allowed s (words32Body k n f o s) := by
  unfold words32Body
  split
  · rename_i hneed
    exact (need_error hneed).1 ▸ hunder
  · split
    · rename_i hwords
      exact planeWords_error hwords ▸ hunder
    · rfl

theorem ilvBody_raisesWithin {allowed : List FaultKind} (hunder : .bufferUnderrun ∈ allowed)
    (hgeom : .invalidGeometry ∈ allowed) (n w : Nat) (o : Opened) (s : State) :
    RaisesWithin allowed s (ilvBody n w o s) := by
  unfold ilvBody
  split
  · exact hgeom
  · split
    · rename_i hneed
      exact (need_error hneed).1 ▸ hunder
    · split
      · rename_i helems
        exact ilvElems_error helems ▸ hunder
      · rfl

/-- A read command, with or without peek, can only find its cursor unbound or its span outside the slot. -/
theorem exec_read_faultsWithin {i j : Instr} {s t : State} (hj : pseudoPeek i = some j)
    (hs : s.status = .ok) (h : exec i s = .next t) : FaultsWithin (faultKinds i) s t := by
  obtain ⟨k, peek, n, g, hforms⟩ := exec_pseudoPeek hj
  rw [(hforms (payloadOk_of_next hs h) s).1] at h
  exact readCommand_faultsWithin (illegal_mem_faultKinds i)
    (fun o => spanReadBody_raisesWithin (underrun_mem_faultKinds i) k n g o s) h

section
variable {allowed : List FaultKind} (hunder : .bufferUnderrun ∈ allowed)
  (hillegal : .illegalCommand ∈ allowed) (hmalformed : .malformedStream ∈ allowed)

include hmalformed in
theorem lz4Finish_faultsWithin (c : Lz4) (s : State) : FaultsWithin allowed s (lz4Finish c s) := by
  obtain h | ⟨-, -, h⟩ := lz4Finish_cases c s
  · rw [h]
    exact .takeFault hmalformed s
  · rw [h]
    exact .inl rfl

include hunder hillegal hmalformed

theorem lz4Sequence_faultsWithin (l m : Nat) (c : Lz4) (s : State) :
    FaultsWithin allowed s (lz4Sequence l m c s) := by
  unfold lz4Sequence
  split
  · exact .takeFault hillegal s
  · split
    · rename_i hbody
      obtain rfl | rfl := seqBody_error hbody
      · exact .takeFault hunder s
      · exact .takeFault hmalformed s
    · split
      · exact .inl rfl
      · exact lz4Finish_faultsWithin hmalformed _ s

theorem lz4Next_faultsWithin (c : Lz4) (s : State) : FaultsWithin allowed s (lz4Next c s) := by
  unfold lz4Next
  split
  · split
    · exact .takeFault hunder s
    · exact lz4Sequence_faultsWithin hunder hillegal hmalformed _ _ c s
  · exact lz4Finish_faultsWithin hmalformed c s

theorem lz4Loop_faultsWithin (n : Nat) (s : State) : FaultsWithin allowed s (lz4Loop n s) := by
  induction n generalizing s with
  | zero => exact .inl rfl
  | succ n ih =>
    cases hl : s.lz4 with
    | none =>
      rw [lz4Loop_of_noBlock hl]
      exact .inl rfl
    | some c =>
      simp only [lz4Loop, hl]
      exact (lz4Next_faultsWithin hunder hillegal hmalformed c s).trans (ih _)

end

/-- Before its first sequence LZ4D raises BufferUnderrun or IllegalCommand (R200 to R203). -/
theorem lz4Start_error {k d : Fin 16} {s : State} {e : FaultKind} (h : lz4Start k d s = .error e) :
    e = .bufferUnderrun ∨ e = .illegalCommand := by
  unfold lz4Start at h
  split at h
  · rename_i hopen
    cases h
    exact .inr (openCursor_error hopen)
  · split at h
    · rename_i hfree
      cases h
      exact .inr (needFree_error hfree)
    · split at h
      · rename_i hneed
        cases h
        exact .inl (need_error hneed).1
      · dsimp only at h
        split at h
        · split at h
          · cases h
            exact .inl rfl
          · cases h
        · split at h
          · cases h
            exact .inl rfl
          · cases h

/-- Neither way of starting a block touches STATUS. -/
theorem lz4Start_status {k d : Fin 16} {s t : State} (h : lz4Start k d s = .ok t) :
    t.status = s.status := by
  obtain ⟨-, ⟨b, p, out, rfl⟩ | ⟨b, clen, dlen, p, -, rfl⟩⟩ := lz4Start_ok h
  · rfl
  · rfl

theorem execLz4d_faultsWithin {allowed : List FaultKind} (hunder : .bufferUnderrun ∈ allowed)
    (hillegal : .illegalCommand ∈ allowed) (hmalformed : .malformedStream ∈ allowed) {k d : Fin 16}
    {s t : State} (hs : s.status = .ok) (h : execLz4d k d s = .next t) : FaultsWithin allowed s t := by
  cases hstart : lz4Start k d s with
  | error e =>
    cases (execLz4d_of_error hs hstart).symm.trans h
    obtain rfl | rfl := lz4Start_error hstart
    · exact .takeFault hunder s
    · exact .takeFault hillegal s
  | ok u =>
    cases (execLz4d_of_start hs hstart).symm.trans h
    have hentry : FaultsWithin allowed s u := .inl (lz4Start_status hstart)
    exact hentry.trans (lz4Loop_faultsWithin hunder hillegal hmalformed _ u)

/-- A move of a cursor (R126, R127) can only find it unbound. -/
theorem moveCursor_faultsWithin {allowed : List FaultKind} (hillegal : .illegalCommand ∈ allowed)
    {k : Fin 16} {f : Int → Int} {s t : State} (h : moveCursor k f s = .next t) :
    FaultsWithin allowed s t := by
  refine command_faultsWithin ?_ h
  split
  · rename_i hcur
    exact cursorOf_error hcur ▸ hillegal
  · rfl

/-- Every fault an instruction leads to is of a kind that `faultKinds` lists for it. -/
theorem exec_faultsWithin {i : Instr} {s t : State} (hs : s.status = .ok) (h : exec i s = .next t) :
    FaultsWithin (faultKinds i) s t := by
  have hunder := underrun_mem_faultKinds i
  have hillegal := illegal_mem_faultKinds i
  cases i with
  | reset =>
    cases h
    exact .inl hs.symm
  | bload d n pl =>
    refine command_faultsWithin ?_ (withPayload_next h).1
    split
    · rename_i hfree
      exact needFree_error hfree ▸ hillegal
    · rfl
  | bfree d =>
    rw [exec] at h
    refine command_faultsWithin ?_ h
    split
    · rename_i halloc
      exact needAlloc_error halloc ▸ hillegal
    · rfl
  | cbind k d =>
    rw [exec] at h
    refine command_faultsWithin ?_ h
    split
    · rename_i hcur
      exact needCursor_error hcur ▸ hillegal
    · split
      · rename_i halloc
        exact needAlloc_error halloc ▸ hillegal
      · rfl
  | clone k d =>
    rw [exec] at h
    refine command_faultsWithin ?_ h
    split
    · rename_i hcur
      exact cursorOf_error hcur ▸ hillegal
    · split
      · rename_i hdst
        exact needCursor_error hdst ▸ hillegal
      · rfl
  | rem k =>
    rw [exec] at h
    refine command_faultsWithin ?_ h
    split
    · rename_i hopen
      exact openCursor_error hopen ▸ hillegal
    · rfl
  | seek | adv => exact moveCursor_faultsWithin hillegal h
  | lz4d k d => exact execLz4d_faultsWithin hunder hillegal (by simp [faultKinds]) hs h
  | lz4seq l m =>
    cases hl : s.lz4 with
    | none => cases (sequenceOutsideBlockStops s l m hl).symm.trans h
    | some c =>
      cases (exec_lz4seq hl).symm.trans h
      exact lz4Sequence_faultsWithin hunder hillegal (by simp [faultKinds]) _ _ c s
  | ilv k n w =>
    exact readCommand_faultsWithin hillegal
      (fun o => ilvBody_raisesWithin hunder (by simp [faultKinds]) _ _ o s) h
  | ilv32 k n | ilv32i k n | ilv32f k n =>
    exact readCommand_faultsWithin hillegal (fun o => words32Body_raisesWithin hunder k _ _ o s) h
  | _ => exact exec_read_faultsWithin rfl hs h

theorem malformedStream_mem_faultKinds {i : Instr} (h : .malformedStream ∈ faultKinds i) :
    (∃ k d, i = .lz4d k d) ∨ isSequence i = true := by
  cases i with
  | lz4d k d => exact .inl ⟨k, d, rfl⟩
  | lz4seq => exact .inr rfl
  | _ => simp [faultKinds] at h

theorem invalidGeometry_mem_faultKinds {i : Instr} (h : .invalidGeometry ∈ faultKinds i) :
    ∃ k n w, i = .ilv k n w := by
  cases i with
  | ilv k n w => exact ⟨k, n, w, rfl⟩
  | _ => simp [faultKinds] at h

/-- Settles O11, by reading the two kinds off `faultKinds`. -/
theorem faultKindsByCommand : Obligations.FaultKindsByCommand := fun _ _ _ hs h =>
  ⟨fun ht => malformedStream_mem_faultKinds ((exec_faultsWithin hs h).mem hs ht),
   fun ht => invalidGeometry_mem_faultKinds ((exec_faultsWithin hs h).mem hs ht)⟩

end Sys2Proof.Machine
end

section
/-! The faulted state (R269): every command but RESET, and every packet but a legal RESET, is ignored. -/

namespace Sys2Proof.Machine

theorem moveCursor_of_faulted {k : Fin 16} {f : Int → Int} {s : State} (hs : s.status ≠ .ok) :
    moveCursor k f s = .next s := command_of_faulted hs

/-- A read or an interleave in the faulted state has no effect. -/
theorem exec_slotRead_of_faulted {i : Instr} {k : Fin 16} {s : State} (hk : readsCursor i = some k)
    (hr : isSlotRead i = true) (hp : i.payloadOk = true) (hs : s.status ≠ .ok) : exec i s = .next s := by
  obtain ⟨peek, body, -, hexec⟩ := exec_slotRead hk hr
  rw [hexec s hp]
  exact readCommand_of_faulted hs

/-- RESET and LZ4D aside every command is a `command`, behind the test of its payload where it has one, and
that test passes in the faulted state. -/
theorem exec_of_faulted {i : Instr} {s : State} (hs : s.status ≠ .ok) (hreset : i ≠ .reset)
    (hseq : isSequence i = false) : exec i s = .next s := by
  cases i with
  | reset => exact absurd rfl hreset
  | lz4seq => cases hseq
  | lz4d => exact execLz4d_of_faulted hs
  | bload => exact (withPayload_of_faulted hs).trans (command_of_faulted hs)
  | matchb => exact (withPayload_of_faulted hs).trans (readCommand_of_faulted hs)
  | bfree | cbind | clone | rem =>
    rw [exec]
    exact command_of_faulted hs
  | seek | adv => exact moveCursor_of_faulted hs
  | _ => exact exec_slotRead_of_faulted rfl rfl rfl hs

theorem rejectPacket_of_faulted {e : Illegal} {s : State} (hs : s.status ≠ .ok) :
    rejectPacket e s = .next s := by
  unfold rejectPacket
  split
  · rfl
  · rename_i hok
    exact absurd hok hs

/-- Settles O9: a packet is taken from the inbox, and then its command or its rejection is ignored. -/
theorem faultedIgnoresAllButReset : Obligations.FaultedIgnoresAllButReset := by
  refine ⟨fun i s => exec_of_faulted, fun s p rest hs hl hin hd => ?_⟩
  cases hdec : decode s.slots.length s.cursors.length p with
  | ok i =>
    have hreset : i ≠ .reset := fun hi => hd (by rw [hdec, hi])
    rw [step, fetch_packet_of_decode hl hin hdec]
    exact exec_of_faulted (s := { s with inbox := rest }) hs hreset (isSequence_of_decode hdec)
  | error e =>
    rw [step, fetch_packet_of_reject hl hin hdec]
    exact rejectPacket_of_faulted (s := { s with inbox := rest }) hs

end Sys2Proof.Machine
end
